-- ==== Sys2Proof/Word.lean ====
section
/-! DEFINITION. The 64-bit word of MCORE and the numbers that fix its digit geometry (spec/00_scope.md R6 to R9, R14). -/

namespace Sys2Proof

/-- One 64-bit word: a storage word (R8), a command word (R85), the data of a bus access (R57). -/
abbrev Word := BitVec 64

/-- `NLEN`, the number of digits of a register (R6). -/
abbrev nlen : Nat := 9

/-- `BASEBITS`, the significant bits of a digit (R7). -/
abbrev baseBits : Nat := 60

/-- `NFREG`, the number of field registers (R14). -/
abbrev nfreg : Nat := 16

/-- `R = M = 2^540`, as nine digits of 60 bits: the Montgomery radix and the bound of a canonical
digit vector (R9). Irreducible, so that no unifier counts up to it. -/
@[irreducible] def radix : Nat := (2 ^ 60) ^ 9

end Sys2Proof
end

