-- ==== Sys2Proof/Syntax.lean ====
section
/-! DEFINITION. The commands of MCORE as syntax: one constructor per row of spec/opcode_table.json
(spec/30_encoding.md R86 to R90). -/

namespace Sys2Proof

/-- A field register `F0` to `F15` (R26). -/
abbrev FReg := Fin 16

/-- A point register `P0` to `P7` (R30, R87). -/
abbrev PReg := Fin 8

/-- A 10-bit unsigned immediate `IMM` (R88). -/
abbrev Imm := BitVec 10

/-- A command with its operands, destination first (R90, the syntax column). -/
inductive Instr where
  | nop
  | mov (rd rs1 : FReg)
  | ldk (rd : FReg) (k : Imm)
  | csel (rd rs1 rs2 : FReg)
  | dadd (rd rs1 rs2 : FReg)
  | dsub (rd rs1 rs2 : FReg)
  | dcmp (rs1 rs2 : FReg)
  | disz (rs1 : FReg)
  | dshl (rd rs1 : FReg) (n : Imm)
  | dshr (rd rs1 : FReg) (n : Imm)
  | dnorm (rd rs1 : FReg)
  | fadd (rd rs1 rs2 : FReg)
  | fsub (rd rs1 rs2 : FReg)
  | fneg (rd rs1 : FReg)
  | mmul (rd rs1 rs2 : FReg)
  | msqr (rd rs1 : FReg)
  | tom (rd rs1 : FReg)
  | fromm (rd rs1 : FReg)
  | finv (rd rs1 : FReg)
  | fsqrt (rd rs1 : FReg)
  | feq (rs1 rs2 : FReg)
  | fpar (rs1 : FReg)
  | fchk (rs1 : FReg)
  | padd (pd ps1 ps2 : PReg)
  | pdbl (pd ps1 : PReg)
  | pneg (pd ps1 : PReg)
  | pmul (pd ps1 : PReg) (rs2 : FReg)
  | pcof (pd ps1 : PReg)
  | ponc (ps1 : PReg)
  | pval (ps1 : PReg)
  | pdec (pd : PReg) (rs1 : FReg) (s : Bool)
  | penc (rd : FReg) (ps1 : PReg)
  deriving DecidableEq, Repr

end Sys2Proof
end

