-- ==== Sys2Proof/WellFormed.lean ====
section
/-! DEFINITION. When a command is well formed. The types of `Instr` already hold every bound of
spec/30_encoding.md R86 to R89 but one: the LDK index (R91 (e)). -/

namespace Sys2Proof

/-- A command the core accepts as legal (R91). Register numbers, point registers, shift amounts and
PDEC's sign fit by their types; LDK's index must be at most 9 (R91 (e)). -/
def Instr.wellFormed : Instr → Bool
  | .nop => true
  | .mov _ _ => true
  | .ldk _ k => decide (k.toNat ≤ 9)
  | .csel _ _ _ => true
  | .dadd _ _ _ => true
  | .dsub _ _ _ => true
  | .dcmp _ _ => true
  | .disz _ => true
  | .dshl _ _ _ => true
  | .dshr _ _ _ => true
  | .dnorm _ _ => true
  | .fadd _ _ _ => true
  | .fsub _ _ _ => true
  | .fneg _ _ => true
  | .mmul _ _ _ => true
  | .msqr _ _ => true
  | .tom _ _ => true
  | .fromm _ _ => true
  | .finv _ _ => true
  | .fsqrt _ _ => true
  | .feq _ _ => true
  | .fpar _ => true
  | .fchk _ => true
  | .padd _ _ _ => true
  | .pdbl _ _ => true
  | .pneg _ _ => true
  | .pmul _ _ _ => true
  | .pcof _ _ => true
  | .ponc _ => true
  | .pval _ => true
  | .pdec _ _ _ => true
  | .penc _ _ => true

end Sys2Proof
end

