-- ==== Sys2Proof/Decode.lean ====
section
/-! DEFINITION. The decoder and the encoder of command words, both from the tables of
spec/30_encoding.md (R86 to R91). -/

namespace Sys2Proof

/-- `w[lo+len-1 : lo]` as an unsigned integer of `len` bits (spec/00_scope.md R16). -/
def bits (w : Word) (lo len : Nat) : Nat := w.toNat / 2 ^ lo % 2 ^ len

/-- The fields of a command word (R86). -/
structure Fields where
  opc : Nat
  rd : Nat
  rs1 : Nat
  rs2 : Nat
  imm : Nat
  rsv : Nat
  deriving DecidableEq, Repr

/-- The fields at their bit positions (R86). -/
def fieldsOf (w : Word) : Fields where
  opc := bits w 0 8
  rd := bits w 8 4
  rs1 := bits w 12 4
  rs2 := bits w 16 4
  imm := bits w 20 10
  rsv := bits w 30 34

/-- The thirteen formats (R89). -/
inductive Format where
  | z | r3 | r2 | t2 | t1 | k | ri | p3 | p2 | ps | pt | px | pe
  deriving DecidableEq, Repr

/-- How a format uses a register field: not at all, as a field register, as a point register
(R87, R89). -/
inductive Use where
  | unused | field | point
  deriving DecidableEq, Repr

/-- The RD column of R89. -/
def Format.rdUse : Format → Use
  | .z | .t2 | .t1 | .pt => .unused
  | .r3 | .r2 | .k | .ri | .pe => .field
  | .p3 | .p2 | .ps | .px => .point

/-- The RS1 column of R89. -/
def Format.rs1Use : Format → Use
  | .z | .k => .unused
  | .r3 | .r2 | .t2 | .t1 | .ri | .px => .field
  | .p3 | .p2 | .ps | .pt | .pe => .point

/-- The RS2 column of R89. -/
def Format.rs2Use : Format → Use
  | .r3 | .t2 | .ps => .field
  | .p3 => .point
  | .z | .r2 | .t1 | .k | .ri | .p2 | .pt | .px | .pe => .unused

/-- Why a word is illegal: the conditions (a) to (f) of R91, in that order (Log 19). -/
inductive IllegalReason where
  /-- (a) the opcode is not assigned -/
  | opcode
  /-- (b) a reserved bit is 1 -/
  | reserved
  /-- (c) a field the format does not use is not 0 -/
  | unusedField
  /-- (d) a point field has its top bit set -/
  | pointField
  /-- (e) the LDK index is above 9 -/
  | ldkIndex
  /-- (f) PDEC's IMM[9:1] is not 0 -/
  | pdecImm
  deriving DecidableEq, Repr

/-- A register field that its format does not use and that is not 0 (R91 (c)). -/
def unusedNonzero (u : Use) (v : Nat) : Bool := decide (u = .unused) && v != 0

/-- A point field whose top bit is 1 (R91 (d)). -/
def pointTop (u : Use) (v : Nat) : Bool := decide (u = .point) && decide (8 ≤ v)

/-- Whether a format uses IMM (R88). -/
def Format.usesImm : Format → Bool
  | .k | .ri | .px => true
  | .z | .r3 | .r2 | .t2 | .t1 | .p3 | .p2 | .ps | .pt | .pe => false

/-- The conditions (b) to (f) of R91 on the fields of a word of format `fmt`. -/
def fieldFault (fmt : Format) (f : Fields) : Option IllegalReason :=
  if f.rsv ≠ 0 then some .reserved
  else if unusedNonzero fmt.rdUse f.rd || unusedNonzero fmt.rs1Use f.rs1
      || unusedNonzero fmt.rs2Use f.rs2 || (!fmt.usesImm && f.imm != 0) then some .unusedField
  else if pointTop fmt.rdUse f.rd || pointTop fmt.rs1Use f.rs1 || pointTop fmt.rs2Use f.rs2 then
    some .pointField
  else if fmt = .k ∧ 9 < f.imm then some .ldkIndex
  else if fmt = .px ∧ 1 < f.imm then some .pdecImm
  else none

/-- RD as a field register. -/
def Fields.fd (f : Fields) : FReg := Fin.ofNat 16 f.rd
/-- RS1 as a field register. -/
def Fields.f1 (f : Fields) : FReg := Fin.ofNat 16 f.rs1
/-- RS2 as a field register. -/
def Fields.f2 (f : Fields) : FReg := Fin.ofNat 16 f.rs2
/-- RD as a point register: `PD = RD[2:0]` (R87). -/
def Fields.pd (f : Fields) : PReg := Fin.ofNat 8 f.rd
/-- RS1 as a point register: `PS1 = RS1[2:0]` (R87). -/
def Fields.p1 (f : Fields) : PReg := Fin.ofNat 8 f.rs1
/-- RS2 as a point register: `PS2 = RS2[2:0]` (R87). -/
def Fields.p2 (f : Fields) : PReg := Fin.ofNat 8 f.rs2
/-- IMM as a 10-bit immediate (R88). -/
def Fields.immBits (f : Fields) : Imm := BitVec.ofNat 10 f.imm

/-- The opcode map (R90): each assigned opcode with its format and the command its fields give. -/
def opcodeMap : Nat → Option (Format × (Fields → Instr))
  | 0x00 => some (.z, fun _ => .nop)
  | 0x01 => some (.r2, fun f => .mov f.fd f.f1)
  | 0x02 => some (.k, fun f => .ldk f.fd f.immBits)
  | 0x03 => some (.r3, fun f => .csel f.fd f.f1 f.f2)
  | 0x04 => some (.r3, fun f => .dadd f.fd f.f1 f.f2)
  | 0x05 => some (.r3, fun f => .dsub f.fd f.f1 f.f2)
  | 0x06 => some (.t2, fun f => .dcmp f.f1 f.f2)
  | 0x07 => some (.t1, fun f => .disz f.f1)
  | 0x08 => some (.ri, fun f => .dshl f.fd f.f1 f.immBits)
  | 0x09 => some (.ri, fun f => .dshr f.fd f.f1 f.immBits)
  | 0x0A => some (.r2, fun f => .dnorm f.fd f.f1)
  | 0x10 => some (.r3, fun f => .fadd f.fd f.f1 f.f2)
  | 0x11 => some (.r3, fun f => .fsub f.fd f.f1 f.f2)
  | 0x12 => some (.r2, fun f => .fneg f.fd f.f1)
  | 0x13 => some (.r3, fun f => .mmul f.fd f.f1 f.f2)
  | 0x14 => some (.r2, fun f => .msqr f.fd f.f1)
  | 0x15 => some (.r2, fun f => .tom f.fd f.f1)
  | 0x16 => some (.r2, fun f => .fromm f.fd f.f1)
  | 0x17 => some (.r2, fun f => .finv f.fd f.f1)
  | 0x18 => some (.r2, fun f => .fsqrt f.fd f.f1)
  | 0x19 => some (.t2, fun f => .feq f.f1 f.f2)
  | 0x1A => some (.t1, fun f => .fpar f.f1)
  | 0x1B => some (.t1, fun f => .fchk f.f1)
  | 0x20 => some (.p3, fun f => .padd f.pd f.p1 f.p2)
  | 0x21 => some (.p2, fun f => .pdbl f.pd f.p1)
  | 0x22 => some (.p2, fun f => .pneg f.pd f.p1)
  | 0x23 => some (.ps, fun f => .pmul f.pd f.p1 f.f2)
  | 0x24 => some (.p2, fun f => .pcof f.pd f.p1)
  | 0x25 => some (.pt, fun f => .ponc f.p1)
  | 0x26 => some (.pt, fun f => .pval f.p1)
  | 0x27 => some (.px, fun f => .pdec f.pd f.f1 (f.imm == 1))
  | 0x28 => some (.pe, fun f => .penc f.fd f.p1)
  | _ => none

/-- What the decoder answers: exactly one command, or the verdict `illegal` (R96). -/
inductive Decoded where
  | legal (i : Instr)
  | illegal (why : IllegalReason)
  deriving DecidableEq, Repr

/-- The decoder, total on every 64-bit word (R91, R96). -/
def decode (w : Word) : Decoded :=
  match opcodeMap (fieldsOf w).opc with
  | none => .illegal .opcode
  | some (fmt, mk) =>
    match fieldFault fmt (fieldsOf w) with
    | some why => .illegal why
    | none => .legal (mk (fieldsOf w))

/-- `legal(w)` of R91. -/
def legal (w : Word) : Bool :=
  match decode w with
  | .legal _ => true
  | .illegal _ => false

/-- `OPC | rd << 8 | rs1 << 12 | rs2 << 16 | imm << 20` (R90). The fields do not overlap, so the
sum is the bitwise or. -/
def wordOf (opc rd rs1 rs2 imm : Nat) : Word :=
  BitVec.ofNat 64 (opc + rd * 2 ^ 8 + rs1 * 2 ^ 12 + rs2 * 2 ^ 16 + imm * 2 ^ 20)

/-- The encoder: the one word of a well-formed command (R90, R96). -/
def encode : Instr → Word
  | .nop => wordOf 0x00 0 0 0 0
  | .mov rd rs1 => wordOf 0x01 rd rs1 0 0
  | .ldk rd k => wordOf 0x02 rd 0 0 k.toNat
  | .csel rd rs1 rs2 => wordOf 0x03 rd rs1 rs2 0
  | .dadd rd rs1 rs2 => wordOf 0x04 rd rs1 rs2 0
  | .dsub rd rs1 rs2 => wordOf 0x05 rd rs1 rs2 0
  | .dcmp rs1 rs2 => wordOf 0x06 0 rs1 rs2 0
  | .disz rs1 => wordOf 0x07 0 rs1 0 0
  | .dshl rd rs1 n => wordOf 0x08 rd rs1 0 n.toNat
  | .dshr rd rs1 n => wordOf 0x09 rd rs1 0 n.toNat
  | .dnorm rd rs1 => wordOf 0x0A rd rs1 0 0
  | .fadd rd rs1 rs2 => wordOf 0x10 rd rs1 rs2 0
  | .fsub rd rs1 rs2 => wordOf 0x11 rd rs1 rs2 0
  | .fneg rd rs1 => wordOf 0x12 rd rs1 0 0
  | .mmul rd rs1 rs2 => wordOf 0x13 rd rs1 rs2 0
  | .msqr rd rs1 => wordOf 0x14 rd rs1 0 0
  | .tom rd rs1 => wordOf 0x15 rd rs1 0 0
  | .fromm rd rs1 => wordOf 0x16 rd rs1 0 0
  | .finv rd rs1 => wordOf 0x17 rd rs1 0 0
  | .fsqrt rd rs1 => wordOf 0x18 rd rs1 0 0
  | .feq rs1 rs2 => wordOf 0x19 0 rs1 rs2 0
  | .fpar rs1 => wordOf 0x1A 0 rs1 0 0
  | .fchk rs1 => wordOf 0x1B 0 rs1 0 0
  | .padd pd ps1 ps2 => wordOf 0x20 pd ps1 ps2 0
  | .pdbl pd ps1 => wordOf 0x21 pd ps1 0 0
  | .pneg pd ps1 => wordOf 0x22 pd ps1 0 0
  | .pmul pd ps1 rs2 => wordOf 0x23 pd ps1 rs2 0
  | .pcof pd ps1 => wordOf 0x24 pd ps1 0 0
  | .ponc ps1 => wordOf 0x25 0 ps1 0 0
  | .pval ps1 => wordOf 0x26 0 ps1 0 0
  | .pdec pd rs1 s => wordOf 0x27 pd rs1 0 s.toNat
  | .penc rd ps1 => wordOf 0x28 rd ps1 0 0

/-- The instruction the decoder reads from a command whose bits are `w`, `nbits` of them given and
every bit above them 0. A command is one 64-bit word (R85), so bits above 63 are none of it. -/
def decodeTableWord (nbits w : Nat) : Option Instr :=
  if w % 2 ^ nbits < 2 ^ 64 then
    match decode (BitVec.ofNat 64 (w % 2 ^ nbits)) with
    | .legal i => some i
    | .illegal _ => none
  else none

end Sys2Proof
end

