-- ==== Sys2Proof/Config.lean ====
section
/-! DEFINITION. What an implementation fixes and the spec leaves open: the curve record `CFG`
(spec/00_scope.md R11), the base address (spec/20_memory.md R65), and the uninterpreted values. -/

namespace Sys2Proof

/-- The configuration record `CFG` (R11). The field named `d` is the coefficient `D`. -/
structure Cfg where
  /-- `p`, the modulus -/
  p : Nat
  /-- `R2 = R^2 mod p` -/
  r2 : Nat
  /-- `MCONST = -p^-1 mod 2^60` -/
  mconst : Nat
  /-- `A`, fixed to 1 -/
  a : Nat
  /-- `D`, the curve coefficient -/
  d : Nat
  /-- `COF`, the cofactor, 4 -/
  cof : Nat
  /-- `Q`, the group order -/
  q : Nat
  /-- `GX`, the x coordinate of the generator -/
  gx : Nat
  /-- `GY`, the y coordinate of the generator -/
  gy : Nat
  deriving DecidableEq, Repr, Inhabited

/-- The record the block was built with: no source gives its values (R11, N1), so it has no value
here. Log 1. -/
opaque Config.built : Cfg

/-- `BASE / 0x2000`: the platform's choice, any number (R65, I20). Log 2. -/
opaque Config.basePage : Nat

/-- Whether an access to a reserved offset inside the FREG window (`j` in 9..15) while BUSY = 1 sets
OVR: R75 (b), (c) and R75 (d) read differently, so the implementation decides. Log 12. -/
opaque Config.gapSetsOvr : Bool

/-- The unspecified values of the spec (R69, R116, R133, R151): the word at `place` of the free draw
number `draw`. It has no body, so nothing can be proved of any value of it. Log 5. -/
opaque Config.freeWord : (draw place : Nat) → Word

end Sys2Proof
end

