-- ==== Sys2Proof/Machine/Field.lean ====
section
/-! DEFINITION. Arithmetic modulo `p`: Montgomery form, Fermat inversion, square-root candidate
(spec/00_scope.md R13, R19, R20; spec/41_field.md R118, R127, R128). -/

namespace Sys2Proof

/-- A square-and-multiply ladder from the low bit up: `acc * b ^ e` modulo `m`, for `e < 2 ^ fuel`
(R127). -/
def powModAux (m : Nat) : (fuel b e acc : Nat) → Nat
  | 0, _, _, acc => acc
  | fuel + 1, b, e, acc =>
    powModAux m fuel (b * b % m) (e / 2) (if e % 2 = 1 then acc * b % m else acc)

/-- `b ^ e mod m`. The value is that of the power whatever ladder computes it (R127). Log 17. -/
def powMod (m b e : Nat) : Nat := powModAux m (Nat.log2 e + 1) (b % m) e (1 % m)

/-- `(a - b) mod p`, for `a` below `p` (R120). -/
def subMod (p a b : Nat) : Nat := (a + (p - b % p)) % p

/-- `inv(x) = x^(p-2) mod p` (R20). -/
def Cfg.inv (c : Cfg) (x : Nat) : Nat := powMod c.p x (c.p - 2)

/-- `Rm = R mod p`, the Montgomery form of 1 (R13). -/
def Cfg.rm (c : Cfg) : Nat := radix % c.p

/-- `Rinv = R^-1 mod p` (R13), by Fermat's little theorem. Log 18. -/
def Cfg.rinv (c : Cfg) : Nat := c.inv c.rm

/-- `a * b * Rinv mod p` (R118, R122). -/
def Cfg.montMul (c : Cfg) (a b : Nat) : Nat := a * b * c.rinv % c.p

/-- `mont(x) = x * R mod p` (R19). `R` stands first, so that the kernel does not count up to it. -/
def Cfg.mont (c : Cfg) (x : Nat) : Nat := radix * x % c.p

/-- `unmont(X) = X * Rinv mod p` (R19). -/
def Cfg.unmont (c : Cfg) (x : Nat) : Nat := x * c.rinv % c.p

/-- `par(x) = x mod 2` (R20). -/
def par (x : Nat) : Bool := x % 2 == 1

/-- `x^((p+1)/4) mod p`, the one root MCORE gives (R128). -/
def Cfg.rootOf (c : Cfg) (x : Nat) : Nat := powMod c.p x ((c.p + 1) / 4)

/-- One word step of the word-serial reduction: `t` takes digit `ai` of the first operand, and an
exact division by the digit base follows (R118, the informative algorithm). -/
def Cfg.serialStep (c : Cfg) (b t ai : Nat) : Nat :=
  let t' := t + ai * b
  (t' + t' % 2 ^ 60 * c.mconst % 2 ^ 60 * c.p) / 2 ^ 60

/-- The Montgomery product by the word-serial algorithm with `MCONST`: nine steps and one final
selected subtraction (R117, R118). It is not the meaning of MMUL, which is `Cfg.montMul`; R118 says
that it gives the same value. -/
def Cfg.montMulSerial (c : Cfg) (a b : Nat) : Nat :=
  let t := ([0, 1, 2, 3, 4, 5, 6, 7, 8] : List Nat).foldl
    (fun t i => c.serialStep b t (a / 2 ^ (60 * i) % 2 ^ 60)) 0
  if t < c.p then t else t - c.p

end Sys2Proof
end

