-- ==== Sys2Proof/Machine/State.lean ====
section
/-! DEFINITION. The state of MCORE as plain data (spec/10_state.md), why a step can stop, and the
state after reset (spec/70_reset_and_hazards.md R166, R167). -/

namespace Sys2Proof.Machine

/-- One storage word `S(i, j)` with its ghost bit `written(i, j)` (R17, R50). -/
structure Slot where
  word : Word
  written : Bool
  deriving DecidableEq, Repr, Inhabited

/-- A field register: nine storage words, digit 0 first (R17, R26). -/
abbrev FieldReg := Vector Slot 9

/-- The register file `F[0]` to `F[15]` (R26). -/
abbrev RegFile := Vector FieldReg 16

/-- FLAGS.CMP: `00` equal, `01` less, `10` greater; `11` is never written (R40). -/
inductive Cmp where
  | eq | lt | gt
  deriving DecidableEq, Repr, Inhabited

/-- FLAGS (R35). -/
structure Flags where
  c : Bool
  b : Bool
  t : Bool
  p : Bool
  cmp : Cmp
  deriving DecidableEq, Repr, Inhabited

/-- The result codes 0 to 7 of STATUS.ERR; 8 to 15 are never written (R43, R147). -/
inductive ResultCode where
  | ok | invalidEncoding | notOnCurve | notInSubgroup
  | zeroInverse | noSquareRoot | identityPoint | illegalCommand
  deriving DecidableEq, Repr, Inhabited

/-- The stored bits of STATUS (R42). BUSY is `State.busy`, a view of the command in flight. -/
structure Status where
  done : Bool
  illegal : Bool
  ovr : Bool
  err : ResultCode
  deriving DecidableEq, Repr, Inhabited

/-- What a command reads, as it was at acceptance: the registers and FLAGS.T (R24, R48, R107). -/
structure Snapshot where
  regs : RegFile
  t : Bool
  deriving DecidableEq, Repr

/-- The in-flight command record (R48), with no time attached (R177). -/
structure InFlight where
  instr : Instr
  snap : Snapshot
  deriving DecidableEq, Repr

/-- The kinds of model fault (R151). -/
inductive ModelFault where
  | uninit | noncanon | range | offcurve
  deriving DecidableEq, Repr

/-- The model faults recorded so far, one bit a kind, never cleared (R151). -/
structure ModelFaults where
  uninit : Bool
  noncanon : Bool
  range : Bool
  offcurve : Bool
  deriving DecidableEq, Repr

/-- The width of a bus access: a burst is any access of more than one transfer (R57, R58). -/
inductive Width where
  | w8 | w16 | w32 | w64 | burst
  deriving DecidableEq, Repr

/-- What an access does (R23, R52). -/
inductive AccessKind where
  | read
  | write (v : Word)
  deriving DecidableEq, Repr

/-- One access of a host to a byte address of its address space (R52, R53). -/
structure Access where
  addr : Nat
  width : Width
  kind : AccessKind
  deriving DecidableEq, Repr

/-- What the block meets, in order of arrival: a host access (R76), the reset input (R166), or the
core's turn, at which a command in flight completes (R157, R177). Log 7. -/
inductive Event where
  | access (a : Access)
  | hardReset
  | coreTurn
  deriving DecidableEq, Repr

/-- What the bus gives back to the host: the data of a read, the acceptance of a write, or a bus
error (R58, R63, R175). -/
inductive Reply where
  | data (v : Word)
  | ack
  | busError
  deriving DecidableEq, Repr

/-- Everything the spec gives the machine, and the model's own `draws`, `inbox` and `replies`. -/
structure State where
  /-- `CFG`, constant (R33) -/
  cfg : Cfg
  /-- `BASE / 0x2000`, constant (R65) -/
  basePage : Nat
  /-- `F[0]` to `F[15]` with the ghost bits (R26, R50) -/
  regs : RegFile
  /-- FLAGS (R35) -/
  flags : Flags
  /-- STATUS but BUSY (R42) -/
  status : Status
  /-- CTRL.IRQ_EN (R44) -/
  irqEn : Bool
  /-- LASTCMD (R46) -/
  lastCmd : Word
  /-- the command in flight (R48) -/
  inflight : Option InFlight
  /-- the recorded model faults (R151) -/
  faults : ModelFaults
  /-- the model's own: how many free values have been used (Log 5) -/
  draws : Nat
  /-- the model's own: what arrives at the block, next first (Log 7) -/
  inbox : List Event
  /-- the model's own: what the bus gave back, newest first (Log 21) -/
  replies : List Reply
  deriving DecidableEq, Repr

/-- Why the machine can stop. -/
inductive Fault where
  /-- Raised by `busAccess` for an access outside `[BASE, BASE + 0x2000)`, which is not MCORE's
  (R53). Safe: the block does nothing there that a claim could miss (Log 13). -/
  | outsideWindow
  deriving DecidableEq, Repr

/-- Why a step can be refused. -/
inductive Refusal where
  /-- Raised by an arm of `exec` for an instruction that has no meaning yet; no arm raises it now.
  Safe. -/
  | notModelled (mnemonic : String)
  deriving DecidableEq, Repr

/-- STATUS.BUSY: 1 from the acceptance of a legal command until its completion, that is, while
there is a command in flight (R42, R48). Log 10. -/
def State.busy (s : State) : Bool := s.inflight.isSome

/-- `irq = STATUS.DONE and CTRL.IRQ_EN` at all times (R49, R155). -/
def State.irq (s : State) : Bool := s.status.done && s.irqEn

/-- FLAGS at reset: all 0 (R167). -/
def Flags.zero : Flags := ⟨false, false, false, false, .eq⟩

/-- STATUS at reset: all 0 (R167). -/
def Status.zero : Status := ⟨false, false, false, .ok⟩

/-- No model fault recorded. -/
def ModelFaults.none : ModelFaults := ⟨false, false, false, false⟩

/-- The register file after reset: no word holds a defined value, every ghost bit is clear (R166,
R167). The zero under a clear ghost bit is a placeholder that no command and no host read gives
back (Log 3). -/
def RegFile.unwritten : RegFile := Vector.replicate 16 (Vector.replicate 9 ⟨0, false⟩)

/-- The machine right after power-up, which is a hardware reset (R165 to R167): nothing in flight,
no access arrived, no reply given. -/
def State.reset : State where
  cfg := Config.built
  basePage := Config.basePage
  regs := RegFile.unwritten
  flags := Flags.zero
  status := Status.zero
  irqEn := false
  lastCmd := 0
  inflight := none
  faults := ModelFaults.none
  draws := 0
  inbox := []
  replies := []

end Sys2Proof.Machine
end

