-- ==== Sys2Proof/Machine/Flags.lean ====
section
/-! DEFINITION. Every flag computation, the writes of one flag, and FLAGS, STATUS and CTRL as the
64-bit words a host reads (spec/10_state.md R35 to R44). -/

namespace Sys2Proof.Machine

/-- FLAGS.C of DADD: the 540-bit sum overflows (R108). -/
def carryOut (a b : Nat) : Bool := decide (radix ≤ a + b)

/-- FLAGS.B of DSUB: the first operand is less than the second (R37, R109). -/
def borrowOut (a b : Nat) : Bool := decide (a < b)

/-- FLAGS.CMP of DCMP (R40, R110). -/
def compare (a b : Nat) : Cmp := if a = b then .eq else if a < b then .lt else .gt

/-- FLAGS.C of DSHL: a 1 bit was shifted out at the top (R112). -/
def shlLost (a n : Nat) : Bool := a * 2 ^ n / radix != 0

/-- FLAGS.C of DSHR: a 1 bit was shifted out at the bottom (R113). -/
def shrLost (a n : Nat) : Bool := a % 2 ^ n != 0

/-- FLAGS.C of DNORM: the value overflows 540 bits (R114). -/
def normLost (v : Nat) : Bool := decide (radix ≤ v)

/-- FLAGS.C <- v. -/
def State.setC (s : State) (v : Bool) : State := { s with flags := { s.flags with c := v } }
/-- FLAGS.B <- v. -/
def State.setB (s : State) (v : Bool) : State := { s with flags := { s.flags with b := v } }
/-- FLAGS.T <- v. -/
def State.setT (s : State) (v : Bool) : State := { s with flags := { s.flags with t := v } }
/-- FLAGS.P <- v. -/
def State.setP (s : State) (v : Bool) : State := { s with flags := { s.flags with p := v } }
/-- FLAGS.CMP <- v. -/
def State.setCmp (s : State) (v : Cmp) : State := { s with flags := { s.flags with cmp := v } }

/-- The two bits of FLAGS.CMP (R40). -/
def cmpBits : Cmp → Nat
  | .eq => 0
  | .lt => 1
  | .gt => 2

/-- FLAGS as the host reads it (R35). -/
def flagsWord (f : Flags) : Word :=
  BitVec.ofNat 64 (f.c.toNat + f.b.toNat * 2 + f.t.toNat * 4 + f.p.toNat * 8 + cmpBits f.cmp * 16)

/-- The number of a result code (R147). -/
def codeNum : ResultCode → Nat
  | .ok => 0
  | .invalidEncoding => 1
  | .notOnCurve => 2
  | .notInSubgroup => 3
  | .zeroInverse => 4
  | .noSquareRoot => 5
  | .identityPoint => 6
  | .illegalCommand => 7

/-- STATUS as the host reads it (R42). -/
def statusWord (s : State) : Word :=
  BitVec.ofNat 64 (s.busy.toNat + s.status.done.toNat * 2 + s.status.illegal.toNat * 4
    + s.status.ovr.toNat * 8 + codeNum s.status.err * 256)

/-- CTRL as the host reads it: SRST and the reserved bits read 0 (R44). -/
def ctrlWord (s : State) : Word := BitVec.ofNat 64 s.irqEn.toNat

/-- The bit length of a number; MODBITS is that of `p` (R10). -/
def bitLength (n : Nat) : Nat := if n = 0 then 0 else Nat.log2 n + 1

/-- ID (R45): VERSION, NLEN, BASEBITS, MODBITS, NFREG. -/
def idWord (c : Cfg) : Word :=
  BitVec.ofNat 64 (0x0100 + nlen * 2 ^ 16 + baseBits * 2 ^ 24 + bitLength c.p % 2 ^ 16 * 2 ^ 32
    + nfreg * 2 ^ 48)

end Sys2Proof.Machine
end

