-- ==== Sys2Proof/Machine/Curve.lean ====
section
/-! DEFINITION. The twisted Edwards curve (spec/00_scope.md R21; spec/42_point.md R134) and the
constraints on the configuration record (spec/00_scope.md R12). -/

namespace Sys2Proof

/-- An affine point, its coordinates in normal form (R21). -/
structure Point where
  x : Nat
  y : Nat
  deriving DecidableEq, Repr

/-- `O = (0, 1)`, the identity (R21). -/
def Point.zero : Point := ⟨0, 1⟩

/-- Membership in `E` (R21): both coordinates below `p`, and `x^2 + y^2` is `1 + D x^2 y^2`
modulo `p` (R142). -/
def Cfg.onCurve (c : Cfg) (pt : Point) : Bool :=
  decide (pt.x < c.p) && decide (pt.y < c.p) &&
    (pt.x * pt.x + pt.y * pt.y) % c.p == (1 + c.d * (pt.x * pt.x) * (pt.y * pt.y)) % c.p

/-- The group law (R134), every operation modulo `p`. -/
def Cfg.add (c : Cfg) (P Q : Point) : Point :=
  let t := c.d * P.x * Q.x * P.y * Q.y % c.p
  { x := (P.x * Q.y + P.y * Q.x) * c.inv (1 + t) % c.p
    y := subMod c.p (P.y * Q.y % c.p) (P.x * Q.x) * c.inv (subMod c.p 1 t) % c.p }

/-- `-(x, y) = (-x mod p, y)` (R134, C7). -/
def Cfg.neg (c : Cfg) (P : Point) : Point := ⟨(c.p - P.x) % c.p, P.y⟩

/-- The k-fold sum of `P` with itself, `0*P = O`: the definition of `k*P` (R21). -/
def Cfg.sum (c : Cfg) : Nat → Point → Point
  | 0, _ => .zero
  | k + 1, P => c.add (c.sum k P) P

/-- A double-and-add ladder over the bits of `k`, high bit first, for `k < 2 ^ fuel` (R140). -/
def Cfg.mulAux (c : Cfg) (P : Point) : (fuel k : Nat) → Point
  | 0, _ => .zero
  | fuel + 1, k =>
    let h := c.mulAux P fuel (k / 2)
    if k % 2 = 1 then c.add (c.add h h) P else c.add h h

/-- `k*P` by double-and-add (R139, R140). `E` with `+` is a group (R134), so it is the k-fold sum.
Log 16. -/
def Cfg.mul (c : Cfg) (k : Nat) (P : Point) : Point := c.mulAux P (Nat.log2 k + 1) k

/-- `#E`, the number of points of the curve (R12 (f)). -/
def Cfg.card (c : Cfg) : Nat :=
  ((List.range c.p).map fun x => (List.range c.p).countP fun y => c.onCurve ⟨x, y⟩).sum

/-- The constraints (a) to (i) that `CFG` must satisfy (R12). -/
structure Cfg.Valid (c : Cfg) : Prop where
  /-- (a) -/
  prime : Nat.Prime c.p
  /-- (a) -/
  big : 3 < c.p
  /-- (a) -/
  fits : c.p < (2 ^ 64) ^ 8
  /-- (b) -/
  r2 : c.r2 = radix ^ 2 % c.p
  /-- (c): `MCONST = (-p^-1) mod 2^60` -/
  mconstDigit : c.mconst < 2 ^ 60
  /-- (c): `MCONST = (-p^-1) mod 2^60` -/
  mconst : (c.p * c.mconst + 1) % 2 ^ 60 = 0
  /-- (d) -/
  a : c.a = 1
  /-- (e) -/
  dReduced : c.d < c.p
  /-- (e) -/
  dNonSquare : ∀ y, y < c.p → y * y % c.p ≠ c.d
  /-- (f); `COF` divides `#E` by (g) -/
  cof : c.cof = 4
  /-- (g) -/
  qPrime : Nat.Prime c.q
  /-- (g) -/
  order : c.q * c.cof = c.card
  /-- (h) -/
  gOnCurve : c.onCurve ⟨c.gx, c.gy⟩ = true
  /-- (h): `G` has order `Q`, a prime -/
  gOrder : c.sum c.q ⟨c.gx, c.gy⟩ = .zero ∧ (⟨c.gx, c.gy⟩ : Point) ≠ .zero
  /-- (i) -/
  mod4 : c.p % 4 = 3

end Sys2Proof
end

