-- ==== Sys2Proof/Machine/Operands.lean ====
section
/-! DEFINITION. Registers as operands: the integer a register holds, the point a register pair holds,
the operand contracts `need_*` (spec/00_scope.md R17, R18, R22, R23), and what each command requires
of its operands and writes to (spec/40_digit_vector.md, 41_field.md, 42_point.md). -/

namespace Sys2Proof.Machine

/-- The digit indexes 0 to 8, digit 0 first (R17). -/
def digitIdx : List (Fin 9) := [0, 1, 2, 3, 4, 5, 6, 7, 8]

/-- `val = sum over j = 0..8 of S(i, j) * 2^(60*j)`, all 64 bits of each word (R17). The power stands
first, and the definition is irreducible, so that neither the kernel nor a unifier counts up to it;
`regVal_eq` of Sys2Proof/Laws/Registers.lean unfolds it. -/
@[irreducible] def regVal (r : FieldReg) : Nat :=
  (digitIdx.map fun j => 2 ^ (60 * j.val) * (r.get j).word.toNat).sum

/-- Digit `j` of an integer: `v[60*j+59 : 60*j]`, headroom bits 0 (R17). -/
@[irreducible] def digit (v j : Nat) : Word := BitVec.ofNat 64 (v / 2 ^ (60 * j) % 2 ^ 60)

/-- A storage word that a host or a command wrote (R50). -/
def slotOf (w : Word) : Slot := ⟨w, true⟩

/-- The register contents that `F[i] <- v` writes, for `v < 2^540` (R17). -/
def regOf (v : Nat) : FieldReg :=
  #v[slotOf (digit v 0), slotOf (digit v 1), slotOf (digit v 2), slotOf (digit v 3),
    slotOf (digit v 4), slotOf (digit v 5), slotOf (digit v 6), slotOf (digit v 7),
    slotOf (digit v 8)]

/-- A register with each of its storage words changed. -/
def mapReg (f : Slot → Slot) (r : FieldReg) : FieldReg :=
  #v[f (r.get 0), f (r.get 1), f (r.get 2), f (r.get 3), f (r.get 4), f (r.get 5), f (r.get 6),
    f (r.get 7), f (r.get 8)]

/-- Every storage word has been written (R23 `need_raw`). -/
def regWritten (r : FieldReg) : Bool := digitIdx.all fun j => (r.get j).written

/-- Canonical: every storage word below `2^60` (R18). -/
def regCanon (r : FieldReg) : Bool := digitIdx.all fun j => decide ((r.get j).word.toNat < 2 ^ 60)

/-- `F[2k]`, the x coordinate of `Pk` (R22, R30). -/
def xReg (k : PReg) : FReg := ⟨2 * k.val, by omega⟩

/-- `F[2k+1]`, the y coordinate of `Pk` (R22, R30). -/
def yReg (k : PReg) : FReg := ⟨2 * k.val + 1, by omega⟩

/-- The registers and FLAGS.T as they are now (R24). -/
def State.snapshot (s : State) : Snapshot := ⟨s.regs, s.flags.t⟩

/-- What a command reads: the snapshot of the command in flight (R24, R48), or the state itself when
none is (Log 15). -/
def operands (s : State) : Snapshot :=
  match s.inflight with
  | some r => r.snap
  | none => s.snapshot

/-- `val(F[i])` of what a command reads. -/
def Snapshot.val (v : Snapshot) (i : FReg) : Nat := regVal (v.regs.get i)

/-- `pt(k)`, the affine point in normal form (R22). -/
def Snapshot.pt (c : Cfg) (v : Snapshot) (k : PReg) : Point :=
  ⟨c.unmont (v.val (xReg k)), c.unmont (v.val (yReg k))⟩

/-- The operand contracts (R23). -/
inductive Need where
  | raw (i : FReg)
  | canon (i : FReg)
  | field (i : FReg)
  | point (k : PReg)
  deriving DecidableEq, Repr

/-- `need_raw(i)` (R23). -/
def rawFault (v : Snapshot) (i : FReg) : Option ModelFault :=
  if regWritten (v.regs.get i) then none else some .uninit

/-- `need_canon(i)` (R23). -/
def canonFault (v : Snapshot) (i : FReg) : Option ModelFault :=
  match rawFault v i with
  | some k => some k
  | none => if regCanon (v.regs.get i) then none else some .noncanon

/-- `need_field(i)` (R23): RANGE at or above `p`, and only there. So a register that holds `K(5) = Q`,
which is below `p` for every valid `CFG`, raises none, though R106 says once that it does. Log 32. -/
def fieldFaultOf (c : Cfg) (v : Snapshot) (i : FReg) : Option ModelFault :=
  match canonFault v i with
  | some k => some k
  | none => if v.val i < c.p then none else some .range

/-- `need_point(k)` (R23). -/
def pointFault (c : Cfg) (v : Snapshot) (k : PReg) : Option ModelFault :=
  match fieldFaultOf c v (xReg k) with
  | some e => some e
  | none =>
    match fieldFaultOf c v (yReg k) with
    | some e => some e
    | none => if c.onCurve (v.pt c k) then none else some .offcurve

/-- The fault one contract raises, if any. -/
def needFault (c : Cfg) (v : Snapshot) : Need → Option ModelFault
  | .raw i => rawFault v i
  | .canon i => canonFault v i
  | .field i => fieldFaultOf c v i
  | .point k => pointFault c v k

/-- The first fault that a list of contracts raises, in the order of the list. -/
def contractFault (c : Cfg) (v : Snapshot) : List Need → Option ModelFault
  | [] => none
  | n :: ns =>
    match needFault c v n with
    | some k => some k
    | none => contractFault c v ns

/-- The `need_*` checks of each command, in the order of its rule's pseudocode (R104 to R146). -/
def needs : Instr → List Need
  | .nop => []
  | .mov _ rs1 => [.raw rs1]
  | .ldk _ _ => []
  | .csel _ rs1 rs2 => [.raw rs1, .raw rs2]
  | .dadd _ rs1 rs2 => [.canon rs1, .canon rs2]
  | .dsub _ rs1 rs2 => [.canon rs1, .canon rs2]
  | .dcmp rs1 rs2 => [.canon rs1, .canon rs2]
  | .disz rs1 => [.canon rs1]
  | .dshl _ rs1 _ => [.canon rs1]
  | .dshr _ rs1 _ => [.canon rs1]
  | .dnorm _ rs1 => [.raw rs1]
  | .fadd _ rs1 rs2 => [.field rs1, .field rs2]
  | .fsub _ rs1 rs2 => [.field rs1, .field rs2]
  | .fneg _ rs1 => [.field rs1]
  | .mmul _ rs1 rs2 => [.field rs1, .field rs2]
  | .msqr _ rs1 => [.field rs1]
  | .tom _ rs1 => [.field rs1]
  | .fromm _ rs1 => [.field rs1]
  | .finv _ rs1 => [.field rs1]
  | .fsqrt _ rs1 => [.field rs1]
  | .feq rs1 rs2 => [.canon rs1, .canon rs2]
  | .fpar rs1 => [.field rs1]
  | .fchk rs1 => [.canon rs1]
  | .padd _ ps1 ps2 => [.point ps1, .point ps2]
  | .pdbl _ ps1 => [.point ps1]
  | .pneg _ ps1 => [.field (xReg ps1), .field (yReg ps1)]
  | .pmul _ ps1 rs2 => [.point ps1, .canon rs2]
  | .pcof _ ps1 => [.point ps1]
  | .ponc ps1 => [.canon (xReg ps1), .canon (yReg ps1)]
  | .pval ps1 => [.canon (xReg ps1), .canon (yReg ps1)]
  | .pdec _ rs1 _ => [.canon rs1]
  | .penc _ ps1 => [.field (xReg ps1), .field (yReg ps1)]

/-- The destination registers of each command: `F[rd]`, both registers of `Pd`, or none (R95,
R169). -/
def dests : Instr → List FReg
  | .nop => []
  | .mov rd _ => [rd]
  | .ldk rd _ => [rd]
  | .csel rd _ _ => [rd]
  | .dadd rd _ _ => [rd]
  | .dsub rd _ _ => [rd]
  | .dcmp _ _ => []
  | .disz _ => []
  | .dshl rd _ _ => [rd]
  | .dshr rd _ _ => [rd]
  | .dnorm rd _ => [rd]
  | .fadd rd _ _ => [rd]
  | .fsub rd _ _ => [rd]
  | .fneg rd _ => [rd]
  | .mmul rd _ _ => [rd]
  | .msqr rd _ => [rd]
  | .tom rd _ => [rd]
  | .fromm rd _ => [rd]
  | .finv rd _ => [rd]
  | .fsqrt rd _ => [rd]
  | .feq _ _ => []
  | .fpar _ => []
  | .fchk _ => []
  | .padd pd _ _ => [xReg pd, yReg pd]
  | .pdbl pd _ => [xReg pd, yReg pd]
  | .pneg pd _ => [xReg pd, yReg pd]
  | .pmul pd _ _ => [xReg pd, yReg pd]
  | .pcof pd _ => [xReg pd, yReg pd]
  | .ponc _ => []
  | .pval _ => []
  | .pdec pd _ _ => [xReg pd, yReg pd]
  | .penc rd _ => [rd]

/-- MOV and CSEL copy storage words verbatim; every other command writes canonical digits (R28). -/
def copiesRaw : Instr → Bool
  | .mov _ _ => true
  | .csel _ _ _ => true
  | .nop => false
  | .ldk _ _ => false
  | .dadd _ _ _ => false
  | .dsub _ _ _ => false
  | .dcmp _ _ => false
  | .disz _ => false
  | .dshl _ _ _ => false
  | .dshr _ _ _ => false
  | .dnorm _ _ => false
  | .fadd _ _ _ => false
  | .fsub _ _ _ => false
  | .fneg _ _ => false
  | .mmul _ _ _ => false
  | .msqr _ _ => false
  | .tom _ _ => false
  | .fromm _ _ => false
  | .finv _ _ => false
  | .fsqrt _ _ => false
  | .feq _ _ => false
  | .fpar _ => false
  | .fchk _ => false
  | .padd _ _ _ => false
  | .pdbl _ _ => false
  | .pneg _ _ => false
  | .pmul _ _ _ => false
  | .pcof _ _ => false
  | .ponc _ => false
  | .pval _ => false
  | .pdec _ _ _ => false
  | .penc _ _ => false

/-- A set of flags (R35). -/
structure FlagSet where
  c : Bool := false
  b : Bool := false
  t : Bool := false
  p : Bool := false
  cmp : Bool := false
  deriving DecidableEq, Repr

/-- The flags each command's rule names as written (R36 to R41). -/
def flagsWritten : Instr → FlagSet
  | .nop => {}
  | .mov _ _ => {}
  | .ldk _ _ => {}
  | .csel _ _ _ => {}
  | .dadd _ _ _ => { c := true }
  | .dsub _ _ _ => { b := true }
  | .dcmp _ _ => { cmp := true }
  | .disz _ => { t := true }
  | .dshl _ _ _ => { c := true }
  | .dshr _ _ _ => { c := true }
  | .dnorm _ _ => { c := true }
  | .fadd _ _ _ => {}
  | .fsub _ _ _ => {}
  | .fneg _ _ => {}
  | .mmul _ _ _ => {}
  | .msqr _ _ => {}
  | .tom _ _ => {}
  | .fromm _ _ => {}
  | .finv _ _ => { t := true }
  | .fsqrt _ _ => { t := true }
  | .feq _ _ => { t := true }
  | .fpar _ => { p := true }
  | .fchk _ => { t := true }
  | .padd _ _ _ => {}
  | .pdbl _ _ => {}
  | .pneg _ _ => {}
  | .pmul _ _ _ => {}
  | .pcof _ _ => {}
  | .ponc _ => { t := true }
  | .pval _ => { t := true }
  | .pdec _ _ _ => { t := true }
  | .penc _ _ => { p := true }

/-- All of FLAGS. -/
def FlagSet.all : FlagSet := ⟨true, true, true, true, true⟩

/-- The flags that are unspecified after a command given out-of-contract operands: all of them (R133
(a) for PADD, PDBL, PMUL and PCOF, R151 for every command), but of a Field Engine command only "the
flags it writes" (R116). NOP and LDK have no contract. Log 31. -/
def unspecifiedFlags : Instr → FlagSet
  | .nop => {}
  | .mov _ _ => .all
  | .ldk _ _ => {}
  | .csel _ _ _ => .all
  | .dadd _ _ _ => .all
  | .dsub _ _ _ => .all
  | .dcmp _ _ => .all
  | .disz _ => .all
  | .dshl _ _ _ => .all
  | .dshr _ _ _ => .all
  | .dnorm _ _ => .all
  | .fadd _ _ _ => {}
  | .fsub _ _ _ => {}
  | .fneg _ _ => {}
  | .mmul _ _ _ => {}
  | .msqr _ _ => {}
  | .tom _ _ => {}
  | .fromm _ _ => {}
  | .finv _ _ => { t := true }
  | .fsqrt _ _ => { t := true }
  | .feq _ _ => { t := true }
  | .fpar _ => { p := true }
  | .fchk _ => { t := true }
  | .padd _ _ _ => .all
  | .pdbl _ _ => .all
  | .pneg _ _ => .all
  | .pmul _ _ _ => .all
  | .pcof _ _ => .all
  | .ponc _ => .all
  | .pval _ => .all
  | .pdec _ _ _ => .all
  | .penc _ _ => .all

end Sys2Proof.Machine
end

