-- ==== Sys2Proof/Machine/Ops.lean ====
section
/-! DEFINITION. The named operations over the state: register writes, completion, the completion with
unspecified results, acceptance, issue, and the two resets (spec/30_encoding.md R92 to R95,
spec/60_exceptions.md R151, spec/70_reset_and_hazards.md R166 to R169). The machine has no trap
(R152): what stands here in its place is the completion with a result code and the recorded model
fault. -/

namespace Sys2Proof.Machine

/-- The contents of `F[i]`. -/
def State.reg (s : State) (i : FReg) : FieldReg := s.regs.get i

/-- `Fraw[i] <- r`: nine storage words (R17). -/
def State.setReg (s : State) (i : FReg) (r : FieldReg) : State :=
  { s with regs := s.regs.set i.val r i.isLt }

/-- `F[i] <- v` (R17). -/
def State.setVal (s : State) (i : FReg) (v : Nat) : State := s.setReg i (regOf v)

/-- `Pk <- (x, y)`: both coordinates, in Montgomery form (R22). -/
def State.setPoint (s : State) (k : PReg) (P : Point) : State :=
  (s.setVal (xReg k) (s.cfg.mont P.x)).setVal (yReg k) (s.cfg.mont P.y)

/-- `complete(e)`: STATUS.ERR <- e, BUSY <- 0, DONE <- 1 (R95). -/
def State.complete (s : State) (e : ResultCode) : State :=
  { s with status := { s.status with done := true, err := e }, inflight := none }

/-- The completion of an illegal word (R92). -/
def State.illegalCompletion (s : State) : State :=
  { s with
    status := { s.status with done := true, illegal := true, err := .illegalCommand }
    inflight := none }

/-- A model fault, recorded (R151). -/
def ModelFaults.record (f : ModelFaults) : ModelFault → ModelFaults
  | .uninit => { f with uninit := true }
  | .noncanon => { f with noncanon := true }
  | .range => { f with range := true }
  | .offcurve => { f with offcurve := true }

/-- The state with a model fault recorded, if there is one (R94, R151). -/
def State.recordFault (s : State) : Option ModelFault → State
  | none => s
  | some k => { s with faults := s.faults.record k }

/-- An unspecified result code: one of the eight (R43, R151). -/
def codeOfWord (w : Word) : ResultCode :=
  match w.toNat % 8 with
  | 0 => .ok
  | 1 => .invalidEncoding
  | 2 => .notOnCurve
  | 3 => .notInSubgroup
  | 4 => .zeroInverse
  | 5 => .noSquareRoot
  | 6 => .identityPoint
  | _ => .illegalCommand

/-- An unspecified value of FLAGS.CMP: never `11` (R40). -/
def cmpOfWord (w : Word) : Cmp :=
  match w.toNat % 3 with
  | 0 => .eq
  | 1 => .lt
  | _ => .gt

/-- An unspecified flag bit. -/
def bitOfWord (w : Word) : Bool := w.toNat % 2 == 1

/-- An unspecified storage word: any word where words are copied, any digit elsewhere (R28, R29).
Log 6. -/
def freeSlot (raw : Bool) (draw place : Nat) : Slot :=
  slotOf (if raw then Config.freeWord draw place
    else BitVec.ofNat 64 ((Config.freeWord draw place).toNat % 2 ^ 60))

/-- Unspecified register contents, its nine words at the places from `9 * n`. -/
def freeReg (raw : Bool) (draw n : Nat) : FieldReg :=
  #v[freeSlot raw draw (9 * n), freeSlot raw draw (9 * n + 1), freeSlot raw draw (9 * n + 2),
    freeSlot raw draw (9 * n + 3), freeSlot raw draw (9 * n + 4), freeSlot raw draw (9 * n + 5),
    freeSlot raw draw (9 * n + 6), freeSlot raw draw (9 * n + 7), freeSlot raw draw (9 * n + 8)]

/-- Unspecified contents in each of a list of registers. -/
def setFree (raw : Bool) (draw : Nat) : (n : Nat) → List FReg → State → State
  | _, [], s => s
  | n, i :: is, s => setFree raw draw (n + 1) is (s.setReg i (freeReg raw draw n))

/-- Unspecified values in the flags of `w`, the others unchanged (R116, R133, R151). -/
def freeFlags (w : FlagSet) (draw : Nat) (f : Flags) : Flags where
  c := if w.c then bitOfWord (Config.freeWord draw 18) else f.c
  b := if w.b then bitOfWord (Config.freeWord draw 19) else f.b
  t := if w.t then bitOfWord (Config.freeWord draw 20) else f.t
  p := if w.p then bitOfWord (Config.freeWord draw 21) else f.p
  cmp := if w.cmp then cmpOfWord (Config.freeWord draw 22) else f.cmp

/-- The completion of a command given out-of-contract operands: "it completes the command after
LAT(op) cycles with destination, flags and result code unspecified" (R151, R116, R133 (a)). One
free draw gives all of them. Log 4, Log 5, Log 6, Log 31. -/
def State.completeUnspecified (s : State) (i : Instr) : State :=
  let t := setFree (copiesRaw i) s.draws 0 (dests i) s
  { t with
    flags := freeFlags (unspecifiedFlags i) s.draws s.flags
    draws := s.draws + 1 }.complete (codeOfWord (Config.freeWord s.draws 23))

/-- A command from its operands to its completion (R94, R95): its contract is checked on what it
reads; if the contract holds, `effect` is the completed state; if not, the model fault is recorded
and the results are unspecified (R151). -/
def perform (i : Instr) (s : State) (effect : Snapshot → State) :
    Host.Outcome State Fault Refusal :=
  match contractFault s.cfg (operands s) (needs i) with
  | none => .next (effect (operands s))
  | some k => .next ((s.recordFault (some k)).completeUnspecified i)

/-- Acceptance of a legal command (R94): the in-flight record takes the command and the operands,
DONE <- 0, and a model fault of its contract is recorded. -/
def State.accept (s : State) (i : Instr) : State :=
  { s with
    inflight := some ⟨i, s.snapshot⟩
    status := { s.status with done := false } }.recordFault
      (contractFault s.cfg s.snapshot (needs i))

/-- STATUS.OVR <- 1 (R75). -/
def State.setOvr (s : State) : State := { s with status := { s.status with ovr := true } }

/-- A host write of `w` to CMD (R93): dropped while busy, else recorded in LASTCMD and accepted or
completed as illegal. -/
def State.issue (s : State) (w : Word) : State :=
  if s.busy then s.setOvr
  else
    match decode w with
    | .legal i => { s with lastCmd := w }.accept i
    | .illegal _ => { s with lastCmd := w }.illegalCompletion

/-- The ghost bits of a register cleared: its contents become unspecified (R50, R169). -/
def forgetReg (r : FieldReg) : FieldReg := mapReg (fun d => ⟨d.word, false⟩) r

/-- The registers of a list become unspecified (R169). -/
def forgetRegs : List FReg → State → State
  | [], s => s
  | i :: is, s => forgetRegs is (s.setReg i (forgetReg (s.reg i)))

/-- The destination registers of the command in flight, if there is one. -/
def State.pendingDests (s : State) : List FReg :=
  match s.inflight with
  | some r => dests r.instr
  | none => []

/-- Soft reset (R168, R169): FLAGS, STATUS, IRQ_EN and LASTCMD take their reset values, and a
command in flight is discarded, its destination registers becoming unspecified. Recorded model
faults stay (R151). -/
def State.softReset (s : State) : State :=
  let t := forgetRegs s.pendingDests s
  { t with
    flags := Flags.zero
    status := Status.zero
    irqEn := false
    lastCmd := 0
    inflight := none }

/-- Hardware reset (R166, R167): everything takes its reset value but `CFG`, BASE and the recorded
model faults (R151); the model's own draws, inbox and replies go on. Log 22. -/
def State.hardReset (s : State) : State :=
  { State.reset with
    cfg := s.cfg
    basePage := s.basePage
    faults := s.faults
    draws := s.draws
    inbox := s.inbox
    replies := s.replies }

end Sys2Proof.Machine
end

