-- ==== Sys2Proof/Machine/DigitVector.lean ====
section
/-! DEFINITION. The meanings of the Digit Vector commands (spec/40_digit_vector.md). `a` and `b` are
the values of the first and second source registers, `radix` is `M = 2^540`. -/

namespace Sys2Proof.Machine

/-- NOP (R104). -/
def execNop (s : State) : Host.Outcome State Fault Refusal :=
  perform .nop s fun _ => s.complete .ok

/-- MOV Fd, Fs: the storage words verbatim (R105). -/
def execMov (rd rs1 : FReg) (s : State) : Host.Outcome State Fault Refusal :=
  perform (.mov rd rs1) s fun v => (s.setReg rd (v.regs.get rs1)).complete .ok

/-- `K(k)` (R106). -/
def constK (c : Cfg) : Nat → Nat
  | 0 => 0
  | 1 => 1
  | 2 => c.rm
  | 3 => c.p
  | 4 => c.r2
  | 5 => c.q
  | 6 => c.mont c.d
  | 7 => c.mont c.gx
  | 8 => c.mont c.gy
  | _ => c.cof

/-- LDK Fd, #k: load a constant (R106). An index above 9 is illegal (R91 (e)). -/
def execLdk (rd : FReg) (k : Imm) (s : State) : Host.Outcome State Fault Refusal :=
  if k.toNat ≤ 9 then
    perform (.ldk rd k) s fun _ => (s.setVal rd (constK s.cfg k.toNat)).complete .ok
  else .next s.illegalCompletion

/-- CSEL Fd, Fa, Fb: select on FLAGS.T (R107). -/
def execCsel (rd rs1 rs2 : FReg) (s : State) : Host.Outcome State Fault Refusal :=
  perform (.csel rd rs1 rs2) s fun v =>
    (s.setReg rd (if v.t then v.regs.get rs1 else v.regs.get rs2)).complete .ok

/-- DADD Fd, Fa, Fb: add with carry out (R108). -/
def execDadd (rd rs1 rs2 : FReg) (s : State) : Host.Outcome State Fault Refusal :=
  perform (.dadd rd rs1 rs2) s fun v =>
    let a := v.val rs1
    let b := v.val rs2
    ((s.setVal rd ((a + b) % radix)).setC (carryOut a b)).complete .ok

/-- DSUB Fd, Fa, Fb: subtract with borrow out (R109). -/
def execDsub (rd rs1 rs2 : FReg) (s : State) : Host.Outcome State Fault Refusal :=
  perform (.dsub rd rs1 rs2) s fun v =>
    let a := v.val rs1
    let b := v.val rs2
    ((s.setVal rd (subMod radix a b)).setB (borrowOut a b)).complete .ok

/-- DCMP Fa, Fb: compare (R110). -/
def execDcmp (rs1 rs2 : FReg) (s : State) : Host.Outcome State Fault Refusal :=
  perform (.dcmp rs1 rs2) s fun v => (s.setCmp (compare (v.val rs1) (v.val rs2))).complete .ok

/-- DISZ Fa: zero test of the integer (R111). -/
def execDisz (rs1 : FReg) (s : State) : Host.Outcome State Fault Refusal :=
  perform (.disz rs1) s fun v => (s.setT (v.val rs1 == 0)).complete .ok

/-- DSHL Fd, Fa, #n: shift left (R112). -/
def execDshl (rd rs1 : FReg) (n : Imm) (s : State) : Host.Outcome State Fault Refusal :=
  perform (.dshl rd rs1 n) s fun v =>
    let a := v.val rs1
    ((s.setVal rd (a * 2 ^ n.toNat % radix)).setC (shlLost a n.toNat)).complete .ok

/-- DSHR Fd, Fa, #n: logical shift right (R113). -/
def execDshr (rd rs1 : FReg) (n : Imm) (s : State) : Host.Outcome State Fault Refusal :=
  perform (.dshr rd rs1 n) s fun v =>
    let a := v.val rs1
    ((s.setVal rd (a / 2 ^ n.toNat)).setC (shrLost a n.toNat)).complete .ok

/-- DNORM Fd, Fa: normalize, from all 64 bits of each word (R114). -/
def execDnorm (rd rs1 : FReg) (s : State) : Host.Outcome State Fault Refusal :=
  perform (.dnorm rd rs1) s fun v =>
    let x := v.val rs1
    ((s.setVal rd (x % radix)).setC (normLost x)).complete .ok

end Sys2Proof.Machine
end

