-- ==== Sys2Proof/Machine/Bus.lean ====
section
/-! DEFINITION. The host bus: the address map of the window, and what each read and write gives and
does (spec/20_memory.md R52 to R75, spec/10_state.md R42 to R47). -/

namespace Sys2Proof.Machine

/-- What an aligned offset of the window reaches (R66, R67, R71). -/
inductive Target where
  | id | ctrl | status | flags | cmd | lastCmd
  /-- storage word `S(i, j)` -/
  | freg (i : FReg) (j : Fin 9)
  /-- a reserved offset inside the FREG window, `j` in 9..15 (R67) -/
  | fregGap
  /-- word `j` of CONST slot `k` -/
  | const (k : Fin 9) (j : Fin 9)
  | reserved
  deriving DecidableEq, Repr

/-- The address map (R66), for an offset that is a multiple of 8. -/
def locate (off : Nat) : Target :=
  if off = 0x0000 then .id
  else if off = 0x0008 then .ctrl
  else if off = 0x0010 then .status
  else if off = 0x0018 then .flags
  else if off = 0x0020 then .cmd
  else if off = 0x0028 then .lastCmd
  else if 0x0800 ≤ off ∧ off < 0x1000 then
    let i := (off - 0x0800) / 0x80
    let j := (off - 0x0800) % 0x80 / 8
    if h : j < 9 then .freg (Fin.ofNat 16 i) ⟨j, h⟩ else .fregGap
  else if 0x1000 ≤ off ∧ off < 0x1480 then
    let k := (off - 0x1000) / 0x80
    let j := (off - 0x1000) % 0x80 / 8
    if h : j < 9 then .const (Fin.ofNat 9 k) ⟨j, h⟩ else .reserved
  else .reserved

/-- The value of each CONST slot (R71). -/
def constSlot (c : Cfg) : Fin 9 → Nat
  | 0 => c.p
  | 1 => c.r2
  | 2 => c.q
  | 3 => c.d
  | 4 => c.gx
  | 5 => c.gy
  | 6 => c.mconst
  | 7 => c.cof
  | 8 => c.a

/-- The reply of an access, recorded for the host. -/
def State.reply (s : State) (r : Reply) : State := { s with replies := r :: s.replies }

/-- The state after an access that the busy lockout turns away at a reserved FREG offset: OVR is set
or not as the implementation decides (Log 12). -/
def State.gapBusy (s : State) : State :=
  if s.busy && Config.gapSetsOvr then s.setOvr else s

/-- A host read of a storage word (R69, R75 (b)): 0 and OVR while busy; the word if it has been
written; else a free draw. -/
def State.readFreg (s : State) (i : FReg) (j : Fin 9) : State :=
  if s.busy then s.setOvr.reply (.data 0)
  else
    let d := (s.reg i).get j
    if d.written then s.reply (.data d.word)
    else { s with draws := s.draws + 1 }.reply (.data (Config.freeWord s.draws 0))

/-- A host read (R61, R63, R66, R75). -/
def State.readTarget (s : State) : Target → State
  | .id => s.reply (.data (idWord s.cfg))
  | .ctrl => s.reply (.data (ctrlWord s))
  | .status => s.reply (.data (statusWord s))
  | .flags => s.reply (.data (flagsWord s.flags))
  | .cmd => s.reply (.data 0)
  | .lastCmd => s.reply (.data s.lastCmd)
  | .freg i j => s.readFreg i j
  | .fregGap => s.gapBusy.reply (.data 0)
  | .const k j => s.reply (.data (digit (constSlot s.cfg k) j))
  | .reserved => s.reply (.data 0)

/-- A host write to CTRL (R44): SRST performs a soft reset and discards the written IRQ_EN. -/
def State.writeCtrl (s : State) (v : Word) : State :=
  if bits v 1 1 = 1 then s.softReset else { s with irqEn := bits v 0 1 == 1 }

/-- A host write to STATUS clears each of DONE, ILLEGAL and OVR whose bit is 1 (R42). -/
def State.writeStatus (s : State) (v : Word) : State :=
  { s with status :=
      { s.status with
        done := s.status.done && bits v 1 1 == 0
        illegal := s.status.illegal && bits v 2 1 == 0
        ovr := s.status.ovr && bits v 3 1 == 0 } }

/-- A host write of a storage word (R68, R75 (c)): dropped with OVR while busy; else all 64 bits
verbatim, the ghost bit set. -/
def State.writeFreg (s : State) (i : FReg) (j : Fin 9) (v : Word) : State :=
  if s.busy then s.setOvr else s.setReg i ((s.reg i).set j.val (slotOf v) j.isLt)

/-- The effect of a host write (R62, R63, R66, R75). -/
def State.writeTarget (s : State) (v : Word) : Target → State
  | .id => s
  | .ctrl => s.writeCtrl v
  | .status => s.writeStatus v
  | .flags => s
  | .cmd => s.issue v
  | .lastCmd => s
  | .freg i j => s.writeFreg i j v
  | .fregGap => s.gapBusy
  | .const _ _ => s
  | .reserved => s

/-- `BASE`, a multiple of `0x2000` (R65). -/
def State.base (s : State) : Nat := 0x2000 * s.basePage

/-- One access of a host (R53, R57, R58, R63): outside the window it is not MCORE's; of another
width or unaligned it gets a bus error and changes nothing; else it is performed. -/
def busAccess (a : Access) (s : State) : Host.Outcome State Fault Refusal :=
  if a.addr < s.base ∨ s.base + 0x2000 ≤ a.addr then .fault .outsideWindow
  else
    let off := a.addr - s.base
    if a.width ≠ .w64 ∨ off % 8 ≠ 0 then .next (s.reply .busError)
    else
      match a.kind with
      | .read => .next (s.readTarget (locate off))
      | .write v => .next ((s.writeTarget v (locate off)).reply .ack)

/-- Byte lane `b` of a bus word, bits `8b+7 : 8b`, at byte address `BASE + off + b` (R55). -/
def byteLane (v : Word) (b : Fin 8) : BitVec 8 := BitVec.ofNat 8 (bits v (8 * b.val) 8)

end Sys2Proof.Machine
end

