-- ==== Sys2Proof/Machine/FieldEngine.lean ====
section
/-! DEFINITION. The meanings of the Field Engine commands (spec/41_field.md). `a` and `b` are the
values of the first and second source registers. -/

namespace Sys2Proof.Machine

/-- FADD Fd, Fa, Fb: modular addition (R119). -/
def execFadd (rd rs1 rs2 : FReg) (s : State) : Host.Outcome State Fault Refusal :=
  perform (.fadd rd rs1 rs2) s fun v =>
    (s.setVal rd ((v.val rs1 + v.val rs2) % s.cfg.p)).complete .ok

/-- FSUB Fd, Fa, Fb: modular subtraction (R120). -/
def execFsub (rd rs1 rs2 : FReg) (s : State) : Host.Outcome State Fault Refusal :=
  perform (.fsub rd rs1 rs2) s fun v =>
    (s.setVal rd (subMod s.cfg.p (v.val rs1) (v.val rs2))).complete .ok

/-- FNEG Fd, Fa: modular negation (R121). -/
def execFneg (rd rs1 : FReg) (s : State) : Host.Outcome State Fault Refusal :=
  perform (.fneg rd rs1) s fun v =>
    (s.setVal rd ((s.cfg.p - v.val rs1) % s.cfg.p)).complete .ok

/-- MMUL Fd, Fa, Fb: Montgomery multiplication (R122). -/
def execMmul (rd rs1 rs2 : FReg) (s : State) : Host.Outcome State Fault Refusal :=
  perform (.mmul rd rs1 rs2) s fun v =>
    (s.setVal rd (s.cfg.montMul (v.val rs1) (v.val rs2))).complete .ok

/-- MSQR Fd, Fa: Montgomery squaring (R123). -/
def execMsqr (rd rs1 : FReg) (s : State) : Host.Outcome State Fault Refusal :=
  perform (.msqr rd rs1) s fun v =>
    (s.setVal rd (s.cfg.montMul (v.val rs1) (v.val rs1))).complete .ok

/-- TOM Fd, Fa: to Montgomery form, a Montgomery multiplication by `R2` (R124). -/
def execTom (rd rs1 : FReg) (s : State) : Host.Outcome State Fault Refusal :=
  perform (.tom rd rs1) s fun v =>
    (s.setVal rd (s.cfg.montMul (v.val rs1) s.cfg.r2)).complete .ok

/-- FROMM Fd, Fa: from Montgomery form, a Montgomery multiplication by 1 (R125). -/
def execFromm (rd rs1 : FReg) (s : State) : Host.Outcome State Fault Refusal :=
  perform (.fromm rd rs1) s fun v =>
    (s.setVal rd (s.cfg.montMul (v.val rs1) 1)).complete .ok

/-- FINV Fd, Fa: inversion by Fermat's little theorem, Montgomery form in and out; on zero the zero
sentinel and ZeroInverse (R126, R149 (a)). -/
def execFinv (rd rs1 : FReg) (s : State) : Host.Outcome State Fault Refusal :=
  perform (.finv rd rs1) s fun v =>
    let x := s.cfg.unmont (v.val rs1)
    if x = 0 then ((s.setVal rd 0).setT false).complete .zeroInverse
    else ((s.setVal rd (s.cfg.mont (s.cfg.inv x))).setT true).complete .ok

/-- FSQRT Fd, Fa: square root, Montgomery form in and out; on a non-square 0 and NoSquareRoot
(R128, R149 (b)). -/
def execFsqrt (rd rs1 : FReg) (s : State) : Host.Outcome State Fault Refusal :=
  perform (.fsqrt rd rs1) s fun v =>
    let x := s.cfg.unmont (v.val rs1)
    let r := s.cfg.rootOf x
    if r * r % s.cfg.p = x then ((s.setVal rd (s.cfg.mont r)).setT true).complete .ok
    else ((s.setVal rd 0).setT false).complete .noSquareRoot

/-- FEQ Fa, Fb: equality of the integers (R129). -/
def execFeq (rs1 rs2 : FReg) (s : State) : Host.Outcome State Fault Refusal :=
  perform (.feq rs1 rs2) s fun v => (s.setT (v.val rs1 == v.val rs2)).complete .ok

/-- FPAR Fa: parity of the normal-form representative (R130). -/
def execFpar (rs1 : FReg) (s : State) : Host.Outcome State Fault Refusal :=
  perform (.fpar rs1) s fun v => (s.setP (par (s.cfg.unmont (v.val rs1)))).complete .ok

/-- FCHK Fa: range check (R131). -/
def execFchk (rs1 : FReg) (s : State) : Host.Outcome State Fault Refusal :=
  perform (.fchk rs1) s fun v =>
    if v.val rs1 < s.cfg.p then (s.setT true).complete .ok
    else (s.setT false).complete .invalidEncoding

end Sys2Proof.Machine
end

