-- ==== Sys2Proof/Machine/PointEngine.lean ====
section
/-! DEFINITION. The meanings of the Point Engine commands (spec/42_point.md). -/

namespace Sys2Proof.Machine

/-- PADD Pd, Pa, Pb: point addition (R136). -/
def execPadd (pd ps1 ps2 : PReg) (s : State) : Host.Outcome State Fault Refusal :=
  perform (.padd pd ps1 ps2) s fun v =>
    (s.setPoint pd (s.cfg.add (v.pt s.cfg ps1) (v.pt s.cfg ps2))).complete .ok

/-- PDBL Pd, Pa: point doubling, `P + P` (R137). -/
def execPdbl (pd ps1 : PReg) (s : State) : Host.Outcome State Fault Refusal :=
  perform (.pdbl pd ps1) s fun v =>
    (s.setPoint pd (s.cfg.add (v.pt s.cfg ps1) (v.pt s.cfg ps1))).complete .ok

/-- PNEG Pd, Pa: point negation on the stored coordinates (R138). -/
def execPneg (pd ps1 : PReg) (s : State) : Host.Outcome State Fault Refusal :=
  perform (.pneg pd ps1) s fun v =>
    ((s.setVal (xReg pd) ((s.cfg.p - v.val (xReg ps1)) % s.cfg.p)).setVal (yReg pd)
      (v.val (yReg ps1))).complete .ok

/-- PMUL Pd, Pa, Fk: scalar multiplication, the scalar first reduced modulo `Q` (R139). -/
def execPmul (pd ps1 : PReg) (rs2 : FReg) (s : State) : Host.Outcome State Fault Refusal :=
  perform (.pmul pd ps1 rs2) s fun v =>
    (s.setPoint pd (s.cfg.mul (v.val rs2 % s.cfg.q) (v.pt s.cfg ps1))).complete .ok

/-- PCOF Pd, Pa: clear the cofactor, `COF * P` (R141). -/
def execPcof (pd ps1 : PReg) (s : State) : Host.Outcome State Fault Refusal :=
  perform (.pcof pd ps1) s fun v =>
    (s.setPoint pd (s.cfg.mul s.cfg.cof (v.pt s.cfg ps1))).complete .ok

/-- A check's outcome: FLAGS.T <- (e = 0), result code e (R142, R143). -/
def State.report (s : State) (e : ResultCode) : State := (s.setT (e == .ok)).complete e

/-- The codes of PONC: 1 before 2 (R142, R153 (f)). -/
def poncCode (c : Cfg) (v : Snapshot) (k : PReg) : ResultCode :=
  if c.p ≤ v.val (xReg k) ∨ c.p ≤ v.val (yReg k) then .invalidEncoding
  else if c.onCurve (v.pt c k) then .ok
  else .notOnCurve

/-- The codes of PVAL, in the order 1, 2, 3, 6 (R143, R153 (d)). -/
def pvalCode (c : Cfg) (v : Snapshot) (k : PReg) : ResultCode :=
  if c.p ≤ v.val (xReg k) ∨ c.p ≤ v.val (yReg k) then .invalidEncoding
  else if c.onCurve (v.pt c k) = false then .notOnCurve
  else if c.mul c.q (v.pt c k) ≠ .zero then .notInSubgroup
  else if v.pt c k = .zero then .identityPoint
  else .ok

/-- PONC Pa: on-curve check (R142). -/
def execPonc (ps1 : PReg) (s : State) : Host.Outcome State Fault Refusal :=
  perform (.ponc ps1) s fun v => s.report (poncCode s.cfg v ps1)

/-- PVAL Pa: validate a public point (R143). -/
def execPval (ps1 : PReg) (s : State) : Host.Outcome State Fault Refusal :=
  perform (.pval ps1) s fun v => s.report (pvalCode s.cfg v ps1)

/-- The point that `(x, s)` decompresses to, if there is one (R145). -/
def decompress (c : Cfg) (x : Nat) (s : Bool) : Option Point :=
  if c.p ≤ x then none
  else
    let u := subMod c.p 1 (x * x) * c.inv (subMod c.p 1 (c.d * (x * x))) % c.p
    let y0 := c.rootOf u
    if y0 * y0 % c.p ≠ u then none
    else if y0 = 0 ∧ s = true then none
    else some ⟨x, if par y0 = s then y0 else c.p - y0⟩

/-- PDEC Pd, Fx, #s: decompress; on a failure the sentinel `(0, 0)` and InvalidEncoding (R145,
R149 (c)). -/
def execPdec (pd : PReg) (rs1 : FReg) (sign : Bool) (s : State) :
    Host.Outcome State Fault Refusal :=
  perform (.pdec pd rs1 sign) s fun v =>
    match decompress s.cfg (v.val rs1) sign with
    | some P => ((s.setPoint pd P).setT true).complete .ok
    | none => (((s.setVal (xReg pd) 0).setVal (yReg pd) 0).setT false).complete .invalidEncoding

/-- PENC Fd, Pa: compress to the normal-form x and the parity of y (R146). -/
def execPenc (rd : FReg) (ps1 : PReg) (s : State) : Host.Outcome State Fault Refusal :=
  perform (.penc rd ps1) s fun v =>
    ((s.setVal rd (s.cfg.unmont (v.val (xReg ps1)))).setP
      (par (s.cfg.unmont (v.val (yReg ps1))))).complete .ok

end Sys2Proof.Machine
end

