-- ==== Sys2Proof/Machine/Dispatch.lean ====
section
/-! DEFINITION. One arm per command of spec/30_encoding.md R90. -/

namespace Sys2Proof.Machine

def exec (i : Instr) (s : State) : Host.Outcome State Fault Refusal :=
  match i with
  -- Digit Vector (spec/40_digit_vector.md)
  | .nop => Sys2Proof.Machine.execNop s
  | .mov rd rs1 => Sys2Proof.Machine.execMov rd rs1 s
  | .ldk rd k => Sys2Proof.Machine.execLdk rd k s
  | .csel rd rs1 rs2 => Sys2Proof.Machine.execCsel rd rs1 rs2 s
  | .dadd rd rs1 rs2 => Sys2Proof.Machine.execDadd rd rs1 rs2 s
  | .dsub rd rs1 rs2 => Sys2Proof.Machine.execDsub rd rs1 rs2 s
  | .dcmp rs1 rs2 => Sys2Proof.Machine.execDcmp rs1 rs2 s
  | .disz rs1 => Sys2Proof.Machine.execDisz rs1 s
  | .dshl rd rs1 n => Sys2Proof.Machine.execDshl rd rs1 n s
  | .dshr rd rs1 n => Sys2Proof.Machine.execDshr rd rs1 n s
  | .dnorm rd rs1 => Sys2Proof.Machine.execDnorm rd rs1 s
  -- Field Engine (spec/41_field.md)
  | .fadd rd rs1 rs2 => Sys2Proof.Machine.execFadd rd rs1 rs2 s
  | .fsub rd rs1 rs2 => Sys2Proof.Machine.execFsub rd rs1 rs2 s
  | .fneg rd rs1 => Sys2Proof.Machine.execFneg rd rs1 s
  | .mmul rd rs1 rs2 => Sys2Proof.Machine.execMmul rd rs1 rs2 s
  | .msqr rd rs1 => Sys2Proof.Machine.execMsqr rd rs1 s
  | .tom rd rs1 => Sys2Proof.Machine.execTom rd rs1 s
  | .fromm rd rs1 => Sys2Proof.Machine.execFromm rd rs1 s
  | .finv rd rs1 => Sys2Proof.Machine.execFinv rd rs1 s
  | .fsqrt rd rs1 => Sys2Proof.Machine.execFsqrt rd rs1 s
  | .feq rs1 rs2 => Sys2Proof.Machine.execFeq rs1 rs2 s
  | .fpar rs1 => Sys2Proof.Machine.execFpar rs1 s
  | .fchk rs1 => Sys2Proof.Machine.execFchk rs1 s
  -- Point Engine (spec/42_point.md)
  | .padd pd ps1 ps2 => Sys2Proof.Machine.execPadd pd ps1 ps2 s
  | .pdbl pd ps1 => Sys2Proof.Machine.execPdbl pd ps1 s
  | .pneg pd ps1 => Sys2Proof.Machine.execPneg pd ps1 s
  | .pmul pd ps1 rs2 => Sys2Proof.Machine.execPmul pd ps1 rs2 s
  | .pcof pd ps1 => Sys2Proof.Machine.execPcof pd ps1 s
  | .ponc ps1 => Sys2Proof.Machine.execPonc ps1 s
  | .pval ps1 => Sys2Proof.Machine.execPval ps1 s
  | .pdec pd rs1 sign => Sys2Proof.Machine.execPdec pd rs1 sign s
  | .penc rd ps1 => Sys2Proof.Machine.execPenc rd ps1 s

end Sys2Proof.Machine
end

