-- ==== Sys2Proof/Machine/Step.lean ====
section
/-! DEFINITION. One step of MCORE: the next event of the inbox, or the core's turn when nothing else
is to arrive (spec/20_memory.md R76, spec/70_reset_and_hazards.md R177). -/

namespace Sys2Proof.Machine

/-- The core's turn: a command in flight completes (R95); an idle core does nothing (R165, Log 8). -/
def coreStep (s : State) : Host.Outcome State Fault Refusal :=
  match s.inflight with
  | some r => exec r.instr s
  | none => .next s

/-- One step (Log 7). -/
def step (s : State) : Host.Outcome State Fault Refusal :=
  match s.inbox with
  | [] => coreStep s
  | .coreTurn :: rest => coreStep { s with inbox := rest }
  | .hardReset :: rest => .next { s with inbox := rest }.hardReset
  | .access a :: rest => busAccess a { s with inbox := rest }

/-- The state in which the host has just written the command word to CMD of an idle core (R93) and
the core's turn is next, so that the very next step completes exactly that command. A command that
was in flight is dropped for it. Log 14. -/
def State.withFetchWord (s : State) (nbits w : Nat) : State :=
  { { s with inflight := none }.issue (BitVec.ofNat 64 (w % 2 ^ nbits)) with
    inbox := .coreTurn :: s.inbox }

end Sys2Proof.Machine
end

