-- ==== Sys2Proof/Machine/Assembler.lean ====
section
/-! DEFINITION. The pseudo-instructions and the assembler's line form (spec/30_encoding.md R97, R98).
Text is a list of characters. -/

namespace Sys2Proof.Machine

/-- The pseudo-instructions (R98). -/
inductive Pseudo where
  | clr (fd : FReg)
  | ldone (fd : FReg)
  | ldmone (fd : FReg)
  | pldid (k : PReg)
  | pldg (k : PReg)
  | pmov (pd ps : PReg)
  deriving DecidableEq, Repr

/-- The expansions (R98). -/
def expand : Pseudo → List Instr
  | .clr fd => [.ldk fd 0]
  | .ldone fd => [.ldk fd 1]
  | .ldmone fd => [.ldk fd 2]
  | .pldid k => [.ldk (xReg k) 0, .ldk (yReg k) 2]
  | .pldg k => [.ldk (xReg k) 7, .ldk (yReg k) 8]
  | .pmov pd ps => [.mov (xReg pd) (xReg ps), .mov (yReg pd) (yReg ps)]

/-- An operand of an assembler line (R97). -/
inductive AsmOperand where
  | f (i : FReg)
  | p (k : PReg)
  | imm (n : Nat)
  deriving DecidableEq, Repr

/-- A digit in base 10 or 16. -/
def digitOf (base : Nat) (ch : Char) : Option Nat :=
  let n := ch.toNat
  let d := if 48 ≤ n ∧ n ≤ 57 then n - 48 else if 65 ≤ n ∧ n ≤ 70 then n - 55
    else if 97 ≤ n ∧ n ≤ 102 then n - 87 else 16
  if d < base then some d else none

/-- The digits of a number, most significant first, after the value so far. -/
def digitsOf (base : Nat) : (acc : Nat) → List Char → Option Nat
  | acc, [] => some acc
  | acc, ch :: rest =>
    match digitOf base ch with
    | some d => digitsOf base (acc * base + d) rest
    | none => none

/-- A number of at least one digit. -/
def numberOf (base : Nat) : List Char → Option Nat
  | [] => none
  | cs => digitsOf base 0 cs

/-- One operand: `F0` to `F15`, `P0` to `P7`, or `#` and a decimal or `0x` hexadecimal number; a
register number out of range is rejected (R97). Leading zeros are accepted: `F01` is `F1`, `P007` is
`P7`, `#007` is `#7`. R97 does not say; Log 28. -/
def operandOf : List Char → Option AsmOperand
  | 'F' :: cs =>
    match numberOf 10 cs with
    | some n => if h : n < 16 then some (.f ⟨n, h⟩) else none
    | none => none
  | 'P' :: cs =>
    match numberOf 10 cs with
    | some n => if h : n < 8 then some (.p ⟨n, h⟩) else none
    | none => none
  | '#' :: '0' :: 'x' :: cs => (numberOf 16 cs).map .imm
  | '#' :: cs => (numberOf 10 cs).map .imm
  | _ => none

/-- The characters before the first comment sign. -/
def beforeComment (cs : List Char) : List Char := cs.takeWhile (· != ';')

/-- A blank between the parts of a line. -/
def isBlank (ch : Char) : Bool := ch == ' ' || ch == '\t'

/-- A text without the blanks around it. -/
def trimBlanks (cs : List Char) : List Char :=
  ((cs.dropWhile isBlank).reverse.dropWhile isBlank).reverse

/-- The parts of a text between commas, `part` being what has been read of the present one, in
reverse. -/
def splitCommas : (part : List Char) → List Char → List (List Char)
  | part, [] => [part.reverse]
  | part, ch :: rest =>
    if ch = ',' then part.reverse :: splitCommas [] rest else splitCommas (ch :: part) rest

/-- The operands of a line, all of which must read. -/
def operandsOf (cs : List Char) : Option (List AsmOperand) :=
  if trimBlanks cs = [] then some []
  else ((splitCommas [] cs).map fun part => operandOf (trimBlanks part)).mapM id

/-- An upper-case letter for a lower-case one: mnemonics are case-insensitive (R97). -/
def upper (ch : Char) : Char :=
  if 97 ≤ ch.toNat ∧ ch.toNat ≤ 122 then Char.ofNat (ch.toNat - 32) else ch

/-- A command with three field registers. -/
def asmFff (mk : FReg → FReg → FReg → Instr) : List AsmOperand → Option (List Instr)
  | [.f d, .f a, .f b] => some [mk d a b]
  | _ => none

/-- A command with two field registers. -/
def asmFf (mk : FReg → FReg → Instr) : List AsmOperand → Option (List Instr)
  | [.f d, .f a] => some [mk d a]
  | _ => none

/-- A command with one field register. -/
def asmF (mk : FReg → List Instr) : List AsmOperand → Option (List Instr)
  | [.f a] => some (mk a)
  | _ => none

/-- A command with two field registers and an immediate up to 1023 (R97). -/
def asmFfi (mk : FReg → FReg → Imm → Instr) : List AsmOperand → Option (List Instr)
  | [.f d, .f a, .imm n] => if n ≤ 1023 then some [mk d a (BitVec.ofNat 10 n)] else none
  | _ => none

/-- A command with two point registers. -/
def asmPp (mk : PReg → PReg → List Instr) : List AsmOperand → Option (List Instr)
  | [.p d, .p a] => some (mk d a)
  | _ => none

/-- A command with one point register. -/
def asmP (mk : PReg → List Instr) : List AsmOperand → Option (List Instr)
  | [.p a] => some (mk a)
  | _ => none

/-- NOP takes no operand. -/
def asmNone (i : Instr) : List AsmOperand → Option (List Instr)
  | [] => some [i]
  | _ => none

/-- LDK: an index up to 9 (R97). -/
def asmLdk : List AsmOperand → Option (List Instr)
  | [.f d, .imm n] => if n ≤ 9 then some [.ldk d (BitVec.ofNat 10 n)] else none
  | _ => none

/-- PADD. -/
def asmPadd : List AsmOperand → Option (List Instr)
  | [.p d, .p a, .p b] => some [.padd d a b]
  | _ => none

/-- PMUL. -/
def asmPmul : List AsmOperand → Option (List Instr)
  | [.p d, .p a, .f k] => some [.pmul d a k]
  | _ => none

/-- PDEC: a sign of 0 or 1 (R97). -/
def asmPdec : List AsmOperand → Option (List Instr)
  | [.p d, .f x, .imm n] => if n ≤ 1 then some [.pdec d x (n == 1)] else none
  | _ => none

/-- PENC. -/
def asmPenc : List AsmOperand → Option (List Instr)
  | [.f d, .p a] => some [.penc d a]
  | _ => none

/-- The mnemonics with their operand forms: the syntax column of R90, and R98. -/
def mnemonicTable : List (List Char × (List AsmOperand → Option (List Instr))) :=
  [ (['N', 'O', 'P'], asmNone .nop),
    (['M', 'O', 'V'], asmFf .mov),
    (['L', 'D', 'K'], asmLdk),
    (['C', 'S', 'E', 'L'], asmFff .csel),
    (['D', 'A', 'D', 'D'], asmFff .dadd),
    (['D', 'S', 'U', 'B'], asmFff .dsub),
    (['D', 'C', 'M', 'P'], asmFf .dcmp),
    (['D', 'I', 'S', 'Z'], asmF fun a => [.disz a]),
    (['D', 'S', 'H', 'L'], asmFfi .dshl),
    (['D', 'S', 'H', 'R'], asmFfi .dshr),
    (['D', 'N', 'O', 'R', 'M'], asmFf .dnorm) ] ++
  [ (['F', 'A', 'D', 'D'], asmFff .fadd),
    (['F', 'S', 'U', 'B'], asmFff .fsub),
    (['F', 'N', 'E', 'G'], asmFf .fneg),
    (['M', 'M', 'U', 'L'], asmFff .mmul),
    (['M', 'S', 'Q', 'R'], asmFf .msqr),
    (['T', 'O', 'M'], asmFf .tom),
    (['F', 'R', 'O', 'M', 'M'], asmFf .fromm),
    (['F', 'I', 'N', 'V'], asmFf .finv),
    (['F', 'S', 'Q', 'R', 'T'], asmFf .fsqrt),
    (['F', 'E', 'Q'], asmFf .feq),
    (['F', 'P', 'A', 'R'], asmF fun a => [.fpar a]),
    (['F', 'C', 'H', 'K'], asmF fun a => [.fchk a]) ] ++
  [ (['P', 'A', 'D', 'D'], asmPadd),
    (['P', 'D', 'B', 'L'], asmPp fun d a => [.pdbl d a]),
    (['P', 'N', 'E', 'G'], asmPp fun d a => [.pneg d a]),
    (['P', 'M', 'U', 'L'], asmPmul),
    (['P', 'C', 'O', 'F'], asmPp fun d a => [.pcof d a]),
    (['P', 'O', 'N', 'C'], asmP fun a => [.ponc a]),
    (['P', 'V', 'A', 'L'], asmP fun a => [.pval a]),
    (['P', 'D', 'E', 'C'], asmPdec),
    (['P', 'E', 'N', 'C'], asmPenc) ] ++
  [ (['C', 'L', 'R'], asmF fun d => expand (.clr d)),
    (['L', 'D', 'O', 'N', 'E'], asmF fun d => expand (.ldone d)),
    (['L', 'D', 'M', 'O', 'N', 'E'], asmF fun d => expand (.ldmone d)),
    (['P', 'L', 'D', 'I', 'D'], asmP fun k => expand (.pldid k)),
    (['P', 'L', 'D', 'G'], asmP fun k => expand (.pldg k)),
    (['P', 'M', 'O', 'V'], asmPp fun d a => expand (.pmov d a)) ]

/-- The commands of one assembler line: none if the assembler rejects it, the empty list for a line
with a comment only (R97, R98). Log 28. -/
def assemble (line : List Char) : Option (List Instr) :=
  let text := trimBlanks (beforeComment line)
  let name := (text.takeWhile (fun ch => !isBlank ch)).map upper
  let rest := text.dropWhile (fun ch => !isBlank ch)
  if text = [] then some []
  else
    match mnemonicTable.find? (fun row => row.1 == name) with
    | none => none
    | some row =>
      match operandsOf rest with
      | none => none
      | some ops => row.2 ops

/-- The command words of one assembler line, one CMD write each (R98). -/
def assembleWords (line : List Char) : Option (List Word) := (assemble line).map (·.map encode)

end Sys2Proof.Machine
end

