-- ==== Sys2Proof/Machine/ByteString.lean ====
section
/-! DEFINITION. The host's side of a field element: its byte string and the nine writes that load a
register (spec/20_memory.md R67, R68, R70). -/

namespace Sys2Proof.Machine

/-- The 64-byte big-endian encoding: `b[i] = x[8*(63-i)+7 : 8*(63-i)]` (R70). -/
def byteString (x : Nat) : List (BitVec 8) :=
  (List.range 64).map fun i => BitVec.ofNat 8 (x / 2 ^ (8 * (63 - i)) % 2 ^ 8)

/-- `x = sum over i of b[i] * 256^(63-i)` (R70). -/
def stringValue (b : List (BitVec 8)) : Nat :=
  ((List.range 64).map fun i => (b.getD i 0).toNat * 256 ^ (63 - i)).sum

/-- Decoding a byte string: none (InvalidEncoding) unless it has 64 bytes and its value is below `p`
(R70). -/
def decodeString (c : Cfg) (b : List (BitVec 8)) : Option Nat :=
  if b.length = 64 ∧ stringValue b < c.p then some (stringValue b) else none

/-- The offset of storage word `S(i, j)` (R67). -/
def fregOffset (i : FReg) (j : Fin 9) : Nat := 0x0800 + 0x80 * i.val + 8 * j.val

/-- A 64-bit host write at an offset of the window. -/
def writeAt (base off : Nat) (v : Word) : Event := .access ⟨base + off, .w64, .write v⟩

/-- A 64-bit host read at an offset of the window. -/
def readAt (base off : Nat) : Event := .access ⟨base + off, .w64, .read⟩

/-- The nine writes that load the digits of `x` into `F[i]` (R70). -/
def loadEvents (base : Nat) (i : FReg) (x : Nat) : List Event :=
  digitIdx.map fun j => writeAt base (fregOffset i j) (digit x j)

/-- The nine reads that fetch the digits of `F[i]` (R67, R69). -/
def fetchEvents (base : Nat) (i : FReg) : List Event :=
  digitIdx.map fun j => readAt base (fregOffset i j)

end Sys2Proof.Machine
end

