-- ==== Sys2Proof/Safety.lean ====
section
/-! DEFINITION. What counts as a safe run, and the terms claims are stated in: contract-meeting
operands, what a register holds, frames, the invariant of the command in flight, the end of a run
(spec/00_scope.md R18, spec/60_exceptions.md R151, spec/70_reset_and_hazards.md R178). -/

namespace Sys2Proof.Machine

/-- No model fault has been recorded: the premise of a claim about a run (R151). -/
abbrev State.noFault (s : State) : Prop := s.faults = ModelFaults.none

/-- The end of a run: nothing is to arrive, no command is in flight, and no model fault is recorded
(R151, R178). -/
abbrev State.final (s : State) : Prop := s.inbox = [] ∧ s.busy = false ∧ s.noFault

/-- What is observed at the end of a run (R178). -/
structure Observation where
  regs : RegFile
  flags : Flags
  status : Word
  lastCmd : Word
  replies : List Reply
  deriving DecidableEq, Repr

/-- The observation of a state (R178). -/
def observe (s : State) : Observation := ⟨s.regs, s.flags, statusWord s, s.lastCmd, s.replies⟩

/-- Every storage word of `F[i]` has been written (R23 `need_raw`). -/
abbrev Snapshot.Written (v : Snapshot) (i : FReg) : Prop :=
  ∀ j : Fin 9, ((v.regs.get i).get j).written = true

/-- `F[i]` is written and canonical (R18, R23 `need_canon`). -/
abbrev Snapshot.Canonical (v : Snapshot) (i : FReg) : Prop :=
  v.Written i ∧ ∀ j : Fin 9, ((v.regs.get i).get j).word.toNat < 2 ^ 60

/-- `F[i]` is written and field-reduced (R18, R23 `need_field`). -/
abbrev Snapshot.Reduced (c : Cfg) (v : Snapshot) (i : FReg) : Prop :=
  v.Canonical i ∧ v.val i < c.p

/-- `Pk` holds a point of the curve (R23 `need_point`). -/
abbrev Snapshot.OnCurve (c : Cfg) (v : Snapshot) (k : PReg) : Prop :=
  v.Reduced c (xReg k) ∧ v.Reduced c (yReg k) ∧ c.onCurve (v.pt c k) = true

/-- `F[i]` is written, canonical, and its value is `x` (R17, R18). -/
abbrev State.Holds (s : State) (i : FReg) (x : Nat) : Prop :=
  s.snapshot.Canonical i ∧ s.snapshot.val i = x

/-- `Pk` holds the point `P` in Montgomery form: the pair `(mont(x), mont(y))` (R22). -/
abbrev State.HoldsPoint (s : State) (k : PReg) (P : Point) : Prop :=
  s.Holds (xReg k) (s.cfg.mont P.x) ∧ s.Holds (yReg k) (s.cfg.mont P.y)

/-- What a completed command leaves as it was: every register but those of `ds`, every flag but
those of `w`, ILLEGAL, OVR, IRQ_EN, LASTCMD, `CFG`, BASE, what is to arrive and what was replied
(R41, R95). -/
structure Frame (ds : List FReg) (w : FlagSet) (s t : State) : Prop where
  regs : ∀ i, i ∉ ds → t.reg i = s.reg i
  flagC : w.c = false → t.flags.c = s.flags.c
  flagB : w.b = false → t.flags.b = s.flags.b
  flagT : w.t = false → t.flags.t = s.flags.t
  flagP : w.p = false → t.flags.p = s.flags.p
  flagCmp : w.cmp = false → t.flags.cmp = s.flags.cmp
  illegal : t.status.illegal = s.status.illegal
  ovr : t.status.ovr = s.status.ovr
  irqEn : t.irqEn = s.irqEn
  lastCmd : t.lastCmd = s.lastCmd
  cfg : t.cfg = s.cfg
  basePage : t.basePage = s.basePage
  inbox : t.inbox = s.inbox
  replies : t.replies = s.replies

/-- A command completed in contract with result code `e`: its frame, `complete(e)` (R95), no model
fault recorded and no free value used. -/
structure Completed (ds : List FReg) (w : FlagSet) (e : ResultCode) (s t : State) : Prop where
  frame : Frame ds w s t
  err : t.status.err = e
  done : t.status.done = true
  idle : t.busy = false
  faults : t.faults = s.faults
  draws : t.draws = s.draws

/-- Every recorded model fault of the first is recorded in the second (R151: never cleared). -/
def ModelFaults.le (f g : ModelFaults) : Prop :=
  (f.uninit = true → g.uninit = true) ∧ (f.noncanon = true → g.noncanon = true) ∧
    (f.range = true → g.range = true) ∧ (f.offcurve = true → g.offcurve = true)

/-- The invariant of the command in flight (R48, R77, R79, R94): it is well formed and is the
command LASTCMD holds, DONE is 0, the registers and FLAGS.T are still those of its snapshot, and a
model fault of its contract has been recorded. -/
def State.inFlightOk (s : State) : Prop :=
  ∀ r, s.inflight = some r →
    r.instr.wellFormed = true ∧ decode s.lastCmd = .legal r.instr ∧ s.status.done = false ∧
    r.snap = s.snapshot ∧
    ∀ k, contractFault s.cfg r.snap (needs r.instr) = some k → s.faults.record k = s.faults

end Sys2Proof.Machine
end

