-- ==== Sys2Proof/Certificates/Slice0/Obligations.lean ====
section
/-! DEFINITION. The statements for the provers, in the order of OBLIGATIONS.json. `operands s` is what
a command reads: the snapshot of the command in flight, or the registers when none is (Log 15). -/

open Sys2Proof Sys2Proof.Machine

/-! ## Vocabulary: rules of the spec, written a second time for the statements -/

/-- Legality as R87 to R91 put it, by lists of opcodes: no definition of the decoder is used but the
bit slice. -/
def Sys2Proof.Claims.legalByRules (w : Word) : Prop :=
  let opc := bits w 0 8
  let rd := bits w 8 4
  let rs1 := bits w 12 4
  let rs2 := bits w 16 4
  let imm := bits w 20 10
  let rdField := [0x01, 0x02, 0x03, 0x04, 0x05, 0x08, 0x09, 0x0A, 0x10, 0x11, 0x12, 0x13, 0x14,
    0x15, 0x16, 0x17, 0x18, 0x28]
  let rdPoint := [0x20, 0x21, 0x22, 0x23, 0x24, 0x27]
  let rs1Field := [0x01, 0x03, 0x04, 0x05, 0x06, 0x07, 0x08, 0x09, 0x0A, 0x10, 0x11, 0x12, 0x13,
    0x14, 0x15, 0x16, 0x17, 0x18, 0x19, 0x1A, 0x1B, 0x27]
  let rs1Point := [0x20, 0x21, 0x22, 0x23, 0x24, 0x25, 0x26, 0x28]
  let rs2Field := [0x03, 0x04, 0x05, 0x06, 0x10, 0x11, 0x13, 0x19, 0x23]
  let rs2Point := [0x20]
  let immUsed := [0x02, 0x08, 0x09, 0x27]
  (opc ≤ 0x0A ∨ (0x10 ≤ opc ∧ opc ≤ 0x1B) ∨ (0x20 ≤ opc ∧ opc ≤ 0x28)) ∧
  bits w 30 34 = 0 ∧
  (opc ∉ rdField → opc ∉ rdPoint → rd = 0) ∧
  (opc ∉ rs1Field → opc ∉ rs1Point → rs1 = 0) ∧
  (opc ∉ rs2Field → opc ∉ rs2Point → rs2 = 0) ∧
  (opc ∉ immUsed → imm = 0) ∧
  (opc ∈ rdPoint → rd < 8) ∧ (opc ∈ rs1Point → rs1 < 8) ∧ (opc ∈ rs2Point → rs2 < 8) ∧
  (opc = 0x02 → imm ≤ 9) ∧ (opc = 0x27 → imm < 2)

/-- `K(k)` of R106, as its table has it. -/
def Sys2Proof.Claims.constantOf (c : Cfg) (k : Nat) : Nat :=
  [0, 1, radix % c.p, c.p, c.r2, c.q, radix * c.d % c.p, radix * c.gx % c.p, radix * c.gy % c.p,
    c.cof].getD k 0

/-- `inv(x) = x^(p-2) mod p` of R20, as a power. -/
def Sys2Proof.Claims.fermat (p x : Nat) : Nat := x ^ (p - 2) % p

/-- The group law as R134 writes it, the inverses as powers. -/
def Sys2Proof.Claims.sumByFormula (c : Cfg) (P Q : Point) : Point :=
  let t := c.d * P.x * Q.x * P.y * Q.y % c.p
  { x := (P.x * Q.y + P.y * Q.x) * Claims.fermat c.p (1 + t) % c.p
    y := (P.y * Q.y + (c.p - P.x * Q.x % c.p)) * Claims.fermat c.p ((1 + c.p - t) % c.p) % c.p }

/-- The operand contract of each command, as its rule states it (R23, R104 to R146). -/
def Sys2Proof.Claims.ContractHolds (c : Cfg) (v : Snapshot) : Instr → Prop
  | .nop | .ldk _ _ => True
  | .mov _ a | .dnorm _ a => v.Written a
  | .csel _ a b => v.Written a ∧ v.Written b
  | .dadd _ a b | .dsub _ a b | .dcmp a b | .feq a b => v.Canonical a ∧ v.Canonical b
  | .disz a | .dshl _ a _ | .dshr _ a _ | .fchk a | .pdec _ a _ => v.Canonical a
  | .fadd _ a b | .fsub _ a b | .mmul _ a b => v.Reduced c a ∧ v.Reduced c b
  | .fneg _ a | .msqr _ a | .tom _ a | .fromm _ a | .finv _ a | .fsqrt _ a | .fpar a => v.Reduced c a
  | .padd _ a b => v.OnCurve c a ∧ v.OnCurve c b
  | .pdbl _ a | .pcof _ a => v.OnCurve c a
  | .pmul _ a k => v.OnCurve c a ∧ v.Canonical k
  | .pneg _ a | .penc _ a => v.Reduced c (xReg a) ∧ v.Reduced c (yReg a)
  | .ponc a | .pval a => v.Canonical (xReg a) ∧ v.Canonical (yReg a)

/-- The first failing check of `need_raw(i)` is UNINIT (R23). -/
def Sys2Proof.Claims.RawFails (v : Snapshot) (i : FReg) (k : ModelFault) : Prop :=
  ¬ v.Written i ∧ k = .uninit

/-- The first failing check of `need_canon(i)`: UNINIT, else NONCANON (R23). -/
def Sys2Proof.Claims.CanonFails (v : Snapshot) (i : FReg) (k : ModelFault) : Prop :=
  Claims.RawFails v i k ∨ (v.Written i ∧ ¬ v.Canonical i ∧ k = .noncanon)

/-- The first failing check of `need_field(i)`: that of `need_canon(i)`, else RANGE (R23). -/
def Sys2Proof.Claims.FieldFails (c : Cfg) (v : Snapshot) (i : FReg) (k : ModelFault) : Prop :=
  Claims.CanonFails v i k ∨ (v.Canonical i ∧ c.p ≤ v.val i ∧ k = .range)

/-- The first failing check of `need_point(a)`: that of its x, else of its y, else OFFCURVE (R23). -/
def Sys2Proof.Claims.PointFails (c : Cfg) (v : Snapshot) (a : PReg) (k : ModelFault) : Prop :=
  Claims.FieldFails c v (xReg a) k ∨
  (v.Reduced c (xReg a) ∧ Claims.FieldFails c v (yReg a) k) ∨
  (v.Reduced c (xReg a) ∧ v.Reduced c (yReg a) ∧ c.onCurve (v.pt c a) = false ∧ k = .offcurve)

/-- The model fault of each command: the kind of the first check of its rule that fails (R23, R104 to
R146, R151), the checks in the order the rule writes them (Log 23). -/
def Sys2Proof.Claims.ContractFails (c : Cfg) (v : Snapshot) (i : Instr) (k : ModelFault) : Prop :=
  match i with
  | .nop | .ldk _ _ => False
  | .mov _ a | .dnorm _ a => Claims.RawFails v a k
  | .csel _ a b => Claims.RawFails v a k ∨ (v.Written a ∧ Claims.RawFails v b k)
  | .dadd _ a b | .dsub _ a b | .dcmp a b | .feq a b =>
    Claims.CanonFails v a k ∨ (v.Canonical a ∧ Claims.CanonFails v b k)
  | .disz a | .dshl _ a _ | .dshr _ a _ | .fchk a | .pdec _ a _ => Claims.CanonFails v a k
  | .fadd _ a b | .fsub _ a b | .mmul _ a b =>
    Claims.FieldFails c v a k ∨ (v.Reduced c a ∧ Claims.FieldFails c v b k)
  | .fneg _ a | .msqr _ a | .tom _ a | .fromm _ a | .finv _ a | .fsqrt _ a | .fpar a =>
    Claims.FieldFails c v a k
  | .padd _ a b => Claims.PointFails c v a k ∨ (v.OnCurve c a ∧ Claims.PointFails c v b k)
  | .pdbl _ a | .pcof _ a => Claims.PointFails c v a k
  | .pmul _ a b => Claims.PointFails c v a k ∨ (v.OnCurve c a ∧ Claims.CanonFails v b k)
  | .pneg _ a | .penc _ a =>
    Claims.FieldFails c v (xReg a) k ∨
      (v.Reduced c (xReg a) ∧ Claims.FieldFails c v (yReg a) k)
  | .ponc a | .pval a =>
    Claims.CanonFails v (xReg a) k ∨
      (v.Canonical (xReg a) ∧ Claims.CanonFails v (yReg a) k)

/-- The destination registers, by command (R95, R169): `F[rd]`; `F[2*pd]` and `F[2*pd+1]`; none. -/
def Sys2Proof.Claims.IsDestination (i : Instr) (f : FReg) : Prop :=
  match i with
  | .mov rd _ | .ldk rd _ | .csel rd _ _ | .dadd rd _ _ | .dsub rd _ _ | .dshl rd _ _
  | .dshr rd _ _ | .dnorm rd _ | .fadd rd _ _ | .fsub rd _ _ | .fneg rd _ | .mmul rd _ _
  | .msqr rd _ | .tom rd _ | .fromm rd _ | .finv rd _ | .fsqrt rd _ | .penc rd _ => f = rd
  | .padd pd _ _ | .pdbl pd _ | .pneg pd _ | .pmul pd _ _ | .pcof pd _ | .pdec pd _ _ =>
    f.val = 2 * pd.val ∨ f.val = 2 * pd.val + 1
  | .nop | .dcmp _ _ | .disz _ | .feq _ _ | .fpar _ | .fchk _ | .ponc _ | .pval _ => False

/-- The flags each command writes, by flag: C (R36), B (R37), T (R38), P (R39), CMP (R40). -/
def Sys2Proof.Claims.flagsNamed (i : Instr) : FlagSet :=
  match i with
  | .dadd _ _ _ | .dshl _ _ _ | .dshr _ _ _ | .dnorm _ _ => ⟨true, false, false, false, false⟩
  | .dsub _ _ _ => ⟨false, true, false, false, false⟩
  | .disz _ | .feq _ _ | .fchk _ | .finv _ _ | .fsqrt _ _ | .pdec _ _ _ | .ponc _ | .pval _ =>
    ⟨false, false, true, false, false⟩
  | .fpar _ | .penc _ _ => ⟨false, false, false, true, false⟩
  | .dcmp _ _ => ⟨false, false, false, false, true⟩
  | .nop | .mov _ _ | .ldk _ _ | .csel _ _ _ | .fadd _ _ _ | .fsub _ _ _ | .fneg _ _
  | .mmul _ _ _ | .msqr _ _ | .tom _ _ | .fromm _ _ | .padd _ _ _ | .pdbl _ _ | .pneg _ _
  | .pmul _ _ _ | .pcof _ _ => ⟨false, false, false, false, false⟩

/-- The flags that out-of-contract operands leave unspecified: those a Field Engine command writes
(R116); all five after another command (R133 (a), R151; Log 31). -/
def Sys2Proof.Claims.flagsLeftOpen (i : Instr) : FlagSet :=
  match i with
  | .fadd _ _ _ | .fsub _ _ _ | .fneg _ _ | .mmul _ _ _ | .msqr _ _ | .tom _ _ | .fromm _ _
  | .finv _ _ | .fsqrt _ _ | .feq _ _ | .fpar _ | .fchk _ => Claims.flagsNamed i
  | .nop | .mov _ _ | .ldk _ _ | .csel _ _ _ | .dadd _ _ _ | .dsub _ _ _ | .dcmp _ _ | .disz _
  | .dshl _ _ _ | .dshr _ _ _ | .dnorm _ _ | .padd _ _ _ | .pdbl _ _ | .pneg _ _ | .pmul _ _ _
  | .pcof _ _ | .ponc _ | .pval _ | .pdec _ _ _ | .penc _ _ => ⟨true, true, true, true, true⟩

/-- The reserved offsets outside the FREG window (R63, R66, R71). -/
def Sys2Proof.Claims.Reserved (off : Nat) : Prop :=
  off % 8 = 0 ∧
    ((0x0030 ≤ off ∧ off < 0x0800) ∨ (0x1480 ≤ off ∧ off < 0x2000) ∨
      (0x1000 ≤ off ∧ off < 0x1480 ∧ 9 ≤ off % 0x80 / 8))

/-- The reserved offsets inside the FREG window, word index 9 to 15 (R67). -/
def Sys2Proof.Claims.FregGap (off : Nat) : Prop :=
  off % 8 = 0 ∧ 0x0800 ≤ off ∧ off < 0x1000 ∧ 9 ≤ off % 0x80 / 8

/-- An event that is no access outside the window (R53). -/
def Sys2Proof.Claims.inWindow (s : State) : Event → Prop
  | .access a => s.base ≤ a.addr ∧ a.addr < s.base + 0x2000
  | .hardReset => True
  | .coreTurn => True

/-- The values of R167, as a host reads them; no command in flight, `irq` 0. -/
def Sys2Proof.Claims.AtReset (t : State) : Prop :=
  (∀ (i : FReg) (j : Fin 9), ((t.reg i).get j).written = false) ∧
  flagsWord t.flags = 0 ∧ statusWord t = 0 ∧ ctrlWord t = 0 ∧ t.lastCmd = 0 ∧
  t.inflight = none ∧ t.irq = false

/-! ## Encoding -/

/-- R90, R96: the decoder gives back every well-formed command from its word, every operand at every
value. -/
def Obligations.DecodeOfEncodeGivesTheCommand : Prop :=
  ∀ i : Instr, i.wellFormed = true → decode (encode i) = .legal i

/-- R96: a legal word is the one word of its command, so no two legal words decode to one command
and no bit of a legal word is dropped. -/
def Obligations.LegalWordIsTheWordOfItsCommand : Prop :=
  ∀ (w : Word) (i : Instr), decode w = .legal i → i.wellFormed = true ∧ encode i = w

/-- R91: a word is legal exactly when (a) to (f) hold, with R87 to R90's formats written out by
opcode. -/
def Obligations.LegalityFollowsTheFormatTable : Prop :=
  ∀ w : Word, legal w = true ↔ Claims.legalByRules w

/-- R99: the encoding examples of the spec decode to the commands they stand for, and its two
illegal words are illegal. -/
def Obligations.SpecExampleWordsDecode : Prop :=
  decode 0x0000000000021313 = .legal (.mmul 3 1 2) ∧
  decode 0x0000000000200002 = .legal (.ldk 0 2) ∧
  decode 0x0000000000020120 = .legal (.padd 1 0 2) ∧
  decode 0x0000000000040123 = .legal (.pmul 1 0 4) ∧
  decode 0x0000000000105227 = .legal (.pdec 2 5 true) ∧
  decode 0x0000000000502108 = .legal (.dshl 1 2 5) ∧
  decode 0x0000000000000800 = .illegal .unusedField ∧
  decode 0x0000000000000820 = .illegal .pointField

/-! ## Issue, acceptance and completion -/

/-- R93 to R95: a step runs the decoded command: with the word of a legal command stored where the step
takes its next command, the step is `exec` of that command; and whatever command is in flight, the
core's turn is `exec` of it. What `withFetchWord` sets (it puts the core's turn first and drops a
command in flight) is the model's choice, Log 14; that the core has its turn when nothing is to arrive
is the model's choice, Log 7. -/
def Obligations.StepRunsTheDecodedCommand : Prop :=
  (∀ (s : State) (w : Word) (i : Instr), decode w = .legal i →
    step (s.withFetchWord 64 w.toNat) = exec i { s.withFetchWord 64 w.toNat with inbox := s.inbox } ∧
    (s.withFetchWord 64 w.toNat).regs = s.regs ∧ (s.withFetchWord 64 w.toNat).lastCmd = w) ∧
  (∀ (s : State) (r : InFlight), s.inflight = some r →
    (s.inbox = [] → step s = exec r.instr s) ∧
    ∀ rest, s.inbox = .coreTurn :: rest → step s = exec r.instr { s with inbox := rest })

/-- R93, R94: a host write of a legal word to CMD of an idle core is accepted: BUSY 1, DONE 0, the
record holds the command and the operands of now, LASTCMD holds the word, a model fault of the
contract, the first that fails, is recorded, and nothing else changes. -/
def Obligations.LegalCommandIsAccepted : Prop :=
  ∀ (s : State) (w : Word) (i : Instr) (rest : List Event), s.busy = false →
    s.inbox = writeAt s.base 0x20 w :: rest → decode w = .legal i →
    ∃ t, step s = .next t ∧ t.busy = true ∧
      t.inflight = some ⟨i, ⟨s.regs, s.flags.t⟩⟩ ∧
      t.status = { s.status with done := false } ∧ t.lastCmd = w ∧
      t.regs = s.regs ∧ t.flags = s.flags ∧ t.irqEn = s.irqEn ∧ t.cfg = s.cfg ∧
      t.inbox = rest ∧ t.replies = .ack :: s.replies ∧ t.draws = s.draws ∧
      (Claims.ContractHolds s.cfg s.snapshot i → t.faults = s.faults) ∧
      (¬ Claims.ContractHolds s.cfg s.snapshot i →
        ∃ k, Claims.ContractFails s.cfg s.snapshot i k ∧ t.faults = s.faults.record k)

/-- R92: an illegal word accepted from a CMD write completes at once; no register, no flag and no
other state changes. -/
def Obligations.IllegalCommandCompletesAtOnce : Prop :=
  ∀ (s : State) (w : Word) (rest : List Event), s.busy = false →
    s.inbox = writeAt s.base 0x20 w :: rest → ¬ Claims.legalByRules w →
    ∃ t, step s = .next t ∧
      t.status.illegal = true ∧ t.status.err = .illegalCommand ∧ t.status.done = true ∧
      t.busy = false ∧ t.lastCmd = w ∧ t.status.ovr = s.status.ovr ∧
      t.regs = s.regs ∧ t.flags = s.flags ∧ t.irqEn = s.irqEn ∧ t.cfg = s.cfg ∧
      t.basePage = s.basePage ∧ t.faults = s.faults ∧ t.draws = s.draws ∧ t.inbox = rest ∧
      t.replies = .ack :: s.replies

/-- R75 (a) to (c): while BUSY a CMD write is dropped, a read of a storage word returns 0 and a write
of one is dropped; each sets OVR and changes nothing else. -/
def Obligations.BusyLockoutTurnsAccessesAway : Prop :=
  ∀ (s : State) (rest : List Event), s.busy = true →
    (∀ w, s.inbox = writeAt s.base 0x20 w :: rest →
      step s = .next { s with
        status := { s.status with ovr := true }, inbox := rest, replies := .ack :: s.replies }) ∧
    (∀ i j, s.inbox = readAt s.base (fregOffset i j) :: rest →
      step s = .next { s with
        status := { s.status with ovr := true }, inbox := rest, replies := .data 0 :: s.replies }) ∧
    (∀ i j w, s.inbox = writeAt s.base (fregOffset i j) w :: rest →
      step s = .next { s with
        status := { s.status with ovr := true }, inbox := rest, replies := .ack :: s.replies })

/-- R41, R95: on every state every well-formed command answers a next state with its completion: BUSY
0, DONE 1, and only its own destination registers changed, which R95 and R169 name by command. In
contract only the flags R36 to R40 name changed; out of contract only those that R116, R133 (a) and
R151 leave open, as Log 31 reads them. -/
def Obligations.EveryCommandCompletesWithItsFrame : Prop :=
  ∀ (i : Instr) (s : State), i.wellFormed = true →
    ∃ t, exec i s = .next t ∧ t.status.done = true ∧ t.busy = false ∧
      (∀ f, ¬ Claims.IsDestination i f → t.reg f = s.reg f) ∧
      (Claims.ContractHolds s.cfg (operands s) i →
        Frame (dests i) (Claims.flagsNamed i) s t) ∧
      (¬ Claims.ContractHolds s.cfg (operands s) i →
        Frame (dests i) (Claims.flagsLeftOpen i) s t)

/-- R116, R133 (a), R151: a command whose operand contract fails still completes; a model fault is
recorded, and each destination register, the flags left open and the result code are parts of one
free draw, the next. With the contract met, no fault is recorded and no free value is used. The form
of the record, of the draw and of its limits is the model's own (Log 4, Log 5, Log 6, Log 31). -/
def Obligations.OutOfContractCommandRecordsAModelFault : Prop :=
  ∀ (i : Instr) (s : State), i.wellFormed = true →
    ∃ t, exec i s = .next t ∧
      (Claims.ContractHolds s.cfg (operands s) i → t.faults = s.faults ∧ t.draws = s.draws) ∧
      (¬ Claims.ContractHolds s.cfg (operands s) i →
        t.draws = s.draws + 1 ∧
        (∃ k, Claims.ContractFails s.cfg (operands s) i k ∧ t.faults = s.faults.record k) ∧
        (∀ (n : Nat) (h : n < (dests i).length),
          t.reg (dests i)[n] = freeReg (copiesRaw i) s.draws n) ∧
        t.flags = freeFlags (Claims.flagsLeftOpen i) s.draws s.flags ∧
        t.status.err = codeOfWord (Config.freeWord s.draws 23))

/-- R23, R151: which kind of model fault every command records: that of the first check of its rule
that fails, UNINIT, NONCANON, RANGE, OFFCURVE in this order for one operand; the first operand before
the second and x before y, as the rules write the checks (Log 23). And one kind only fails first. -/
def Obligations.ModelFaultKindsFollowTheContract : Prop :=
  (∀ (i : Instr) (s : State) (k : ModelFault), i.wellFormed = true →
    Claims.ContractFails s.cfg (operands s) i k →
    ∃ t, exec i s = .next t ∧ t.faults = s.faults.record k) ∧
  (∀ (i : Instr) (c : Cfg) (v : Snapshot) (k l : ModelFault),
    Claims.ContractFails c v i k → Claims.ContractFails c v i l → k = l)

/-- R33, R151: no step changes `CFG` or BASE, and no step, a reset among them, clears a recorded model
fault. -/
def Obligations.ConfigurationAndRecordedFaultsPersist : Prop :=
  ∀ s t : State, step s = .next t →
    t.cfg = s.cfg ∧ t.basePage = s.basePage ∧ s.faults.le t.faults

/-! ## Digit Vector -/

/-- R104: NOP only completes; STATUS then reads 2 if ILLEGAL and OVR were 0. -/
def Obligations.NopOnlyCompletes : Prop :=
  ∀ s : State, ∃ t, exec .nop s = .next t ∧ Completed [] {} .ok s t ∧
    (s.status.illegal = false → s.status.ovr = false → statusWord t = 2)

/-- R105: MOV copies the nine storage words verbatim. -/
def Obligations.MovCopiesTheWordsVerbatim : Prop :=
  ∀ (s : State) (rd a : FReg), (operands s).Written a →
    ∃ t, exec (.mov rd a) s = .next t ∧ t.reg rd = (operands s).regs.get a ∧
      Completed [rd] {} .ok s t

/-- R106: LDK loads `K(k)`, canonical; every `K(k)` of a valid `CFG` is below `2^540`, `K(5) = Q`
among them. -/
def Obligations.LdkLoadsTheConstant : Prop :=
  ∀ (s : State) (rd : FReg) (k : Imm), s.cfg.Valid → k.toNat ≤ 9 →
    ∃ t, exec (.ldk rd k) s = .next t ∧ t.Holds rd (Claims.constantOf s.cfg k.toNat) ∧
      Completed [rd] {} .ok s t

/-- R107: CSEL copies the words of its first source when T was 1 at acceptance, else of its second. -/
def Obligations.CselSelectsOnT : Prop :=
  ∀ (s : State) (rd a b : FReg), (operands s).Written a → (operands s).Written b →
    ∃ t, exec (.csel rd a b) s = .next t ∧
      ((operands s).t = true → t.reg rd = (operands s).regs.get a) ∧
      ((operands s).t = false → t.reg rd = (operands s).regs.get b) ∧
      Completed [rd] {} .ok s t

/-- R108: DADD adds modulo `2^540`, the lost bit in C. -/
def Obligations.DaddAddsWithCarryOut : Prop :=
  ∀ (s : State) (rd a b : FReg), (operands s).Canonical a → (operands s).Canonical b →
    ∃ t, exec (.dadd rd a b) s = .next t ∧
      t.Holds rd (((operands s).val a + (operands s).val b) % radix) ∧
      t.flags.c = decide (radix ≤ (operands s).val a + (operands s).val b) ∧
      Completed [rd] { c := true } .ok s t

/-- R109: DSUB subtracts modulo `2^540`, `a < b` in B. -/
def Obligations.DsubSubtractsWithBorrowOut : Prop :=
  ∀ (s : State) (rd a b : FReg), (operands s).Canonical a → (operands s).Canonical b →
    ∃ t, exec (.dsub rd a b) s = .next t ∧
      t.Holds rd (if (operands s).val a < (operands s).val b
        then (operands s).val a + radix - (operands s).val b
        else (operands s).val a - (operands s).val b) ∧
      t.flags.b = decide ((operands s).val a < (operands s).val b) ∧
      Completed [rd] { b := true } .ok s t

/-- R110, R111: DCMP writes CMP, 00 equal, 01 less, 10 greater; DISZ writes T. -/
def Obligations.DcmpAndDiszTestTheIntegers : Prop :=
  (∀ (s : State) (a b : FReg), (operands s).Canonical a → (operands s).Canonical b →
    ∃ t, exec (.dcmp a b) s = .next t ∧ Completed [] { cmp := true } .ok s t ∧
      ((operands s).val a = (operands s).val b → cmpBits t.flags.cmp = 0) ∧
      ((operands s).val a < (operands s).val b → cmpBits t.flags.cmp = 1) ∧
      ((operands s).val b < (operands s).val a → cmpBits t.flags.cmp = 2)) ∧
  (∀ (s : State) (a : FReg), (operands s).Canonical a →
    ∃ t, exec (.disz a) s = .next t ∧ Completed [] { t := true } .ok s t ∧
      t.flags.t = decide ((operands s).val a = 0))

/-- R112: DSHL shifts left modulo `2^540`; C when a 1 bit was shifted out. -/
def Obligations.DshlShiftsLeft : Prop :=
  ∀ (s : State) (rd a : FReg) (n : Imm), (operands s).Canonical a →
    ∃ t, exec (.dshl rd a n) s = .next t ∧
      t.Holds rd ((operands s).val a * 2 ^ n.toNat % radix) ∧
      t.flags.c = decide (radix ≤ (operands s).val a * 2 ^ n.toNat) ∧
      Completed [rd] { c := true } .ok s t

/-- R113: DSHR shifts right, zeros entering at the top; C when a 1 bit was shifted out. -/
def Obligations.DshrShiftsRight : Prop :=
  ∀ (s : State) (rd a : FReg) (n : Imm), (operands s).Canonical a →
    ∃ t, exec (.dshr rd a n) s = .next t ∧
      t.Holds rd ((operands s).val a / 2 ^ n.toNat) ∧
      t.flags.c = decide ((operands s).val a % 2 ^ n.toNat ≠ 0) ∧
      Completed [rd] { c := true } .ok s t

/-- R114: DNORM takes all 64 bits of each word, `v = sum of S(i, j) * 2^(60*j)`, and writes
`v mod 2^540`, canonical, with C on overflow; a canonical register is copied. -/
def Obligations.DnormNormalizesTheDigits : Prop :=
  ∀ (s : State) (rd a : FReg), (operands s).Written a →
    ∃ t, exec (.dnorm rd a) s = .next t ∧
      t.Holds rd ((∑ j : Fin 9, (((operands s).regs.get a).get j).word.toNat * 2 ^ (60 * j.val))
        % radix) ∧
      t.flags.c = decide (radix ≤
        ∑ j : Fin 9, (((operands s).regs.get a).get j).word.toNat * 2 ^ (60 * j.val)) ∧
      ((operands s).Canonical a → t.reg rd = (operands s).regs.get a ∧ t.flags.c = false) ∧
      Completed [rd] { c := true } .ok s t

/-! ## Field Engine -/

/-- R119: FADD. -/
def Obligations.FaddAddsModuloP : Prop :=
  ∀ (s : State) (rd a b : FReg), s.cfg.Valid →
    (operands s).Reduced s.cfg a → (operands s).Reduced s.cfg b →
    ∃ t, exec (.fadd rd a b) s = .next t ∧
      t.Holds rd (if (operands s).val a + (operands s).val b < s.cfg.p
        then (operands s).val a + (operands s).val b
        else (operands s).val a + (operands s).val b - s.cfg.p) ∧
      Completed [rd] {} .ok s t

/-- R120: FSUB; B is not written. -/
def Obligations.FsubSubtractsModuloP : Prop :=
  ∀ (s : State) (rd a b : FReg), s.cfg.Valid →
    (operands s).Reduced s.cfg a → (operands s).Reduced s.cfg b →
    ∃ t, exec (.fsub rd a b) s = .next t ∧
      t.Holds rd (if (operands s).val a < (operands s).val b
        then (operands s).val a + s.cfg.p - (operands s).val b
        else (operands s).val a - (operands s).val b) ∧
      Completed [rd] {} .ok s t

/-- R121: FNEG; 0 stays 0. -/
def Obligations.FnegNegatesModuloP : Prop :=
  ∀ (s : State) (rd a : FReg), s.cfg.Valid → (operands s).Reduced s.cfg a →
    ∃ t, exec (.fneg rd a) s = .next t ∧
      t.Holds rd (if (operands s).val a = 0 then 0 else s.cfg.p - (operands s).val a) ∧
      Completed [rd] {} .ok s t

/-- R118, R122, R123: MMUL writes the one residue whose product with `R = 2^540` is `a b`; MSQR does
so for `a a`, and always answers as MMUL with equal operands. Out of contract the two answer alike
because a free draw depends on its number alone, the model's choice (Log 5). -/
def Obligations.MmulAndMsqrGiveTheMontgomeryProduct : Prop :=
  (∀ (s : State) (rd a b : FReg), s.cfg.Valid →
    (operands s).Reduced s.cfg a → (operands s).Reduced s.cfg b →
    ∃ t r, exec (.mmul rd a b) s = .next t ∧ r < s.cfg.p ∧
      radix * r % s.cfg.p = (operands s).val a * (operands s).val b % s.cfg.p ∧
      t.Holds rd r ∧ Completed [rd] {} .ok s t) ∧
  (∀ (s : State) (rd a : FReg), s.cfg.Valid → (operands s).Reduced s.cfg a →
    ∃ t r, exec (.msqr rd a) s = .next t ∧ r < s.cfg.p ∧
      radix * r % s.cfg.p = (operands s).val a * (operands s).val a % s.cfg.p ∧
      t.Holds rd r ∧ Completed [rd] {} .ok s t) ∧
  (∀ (s : State) (rd a : FReg), exec (.msqr rd a) s = exec (.mmul rd a a) s)

/-- R124, R125: TOM writes `a R mod p`; FROMM writes the one residue whose product with `R` is `a`. -/
def Obligations.TomAndFrommConvertTheForm : Prop :=
  ∀ (s : State) (rd a : FReg), s.cfg.Valid → (operands s).Reduced s.cfg a →
    (∃ t, exec (.tom rd a) s = .next t ∧ t.Holds rd (radix * (operands s).val a % s.cfg.p) ∧
      Completed [rd] {} .ok s t) ∧
    (∃ t r, exec (.fromm rd a) s = .next t ∧ r < s.cfg.p ∧
      radix * r % s.cfg.p = (operands s).val a ∧ t.Holds rd r ∧ Completed [rd] {} .ok s t)

/-- R126, R149 (a): FINV of a nonzero `a` writes the residue `r` with `r a = R^2`, T 1, code 0; of 0
it writes 0, T 0, code 4. -/
def Obligations.FinvInvertsInMontgomeryForm : Prop :=
  ∀ (s : State) (rd a : FReg), s.cfg.Valid → (operands s).Reduced s.cfg a →
    ((operands s).val a ≠ 0 →
      ∃ t r, exec (.finv rd a) s = .next t ∧ r < s.cfg.p ∧
        r * (operands s).val a % s.cfg.p = radix * radix % s.cfg.p ∧
        t.Holds rd r ∧ t.flags.t = true ∧ Completed [rd] { t := true } .ok s t) ∧
    ((operands s).val a = 0 →
      ∃ t, exec (.finv rd a) s = .next t ∧ t.Holds rd 0 ∧ t.flags.t = false ∧
        Completed [rd] { t := true } .zeroInverse s t)

/-- R128, R149 (b): with `a = mont(x)`, FSQRT writes `mont(x^((p+1)/4))`, T 1, code 0, if `x` is a
square modulo `p`; else it writes 0, T 0, code 5. -/
def Obligations.FsqrtGivesTheRootOrNoSquareRoot : Prop :=
  ∀ (s : State) (rd a : FReg) (x : Nat), s.cfg.Valid → (operands s).Reduced s.cfg a →
    x < s.cfg.p → radix * x % s.cfg.p = (operands s).val a →
    ((∃ y, y * y % s.cfg.p = x) →
      ∃ t, exec (.fsqrt rd a) s = .next t ∧
        t.Holds rd (radix * (x ^ ((s.cfg.p + 1) / 4) % s.cfg.p) % s.cfg.p) ∧
        (x ^ ((s.cfg.p + 1) / 4)) * (x ^ ((s.cfg.p + 1) / 4)) % s.cfg.p = x ∧
        t.flags.t = true ∧ Completed [rd] { t := true } .ok s t) ∧
    ((¬ ∃ y, y * y % s.cfg.p = x) →
      ∃ t, exec (.fsqrt rd a) s = .next t ∧ t.Holds rd 0 ∧ t.flags.t = false ∧
        Completed [rd] { t := true } .noSquareRoot s t)

/-- R129: FEQ compares the integers of two canonical registers. -/
def Obligations.FeqComparesTheIntegers : Prop :=
  ∀ (s : State) (a b : FReg), (operands s).Canonical a → (operands s).Canonical b →
    ∃ t, exec (.feq a b) s = .next t ∧
      t.flags.t = decide ((operands s).val a = (operands s).val b) ∧
      Completed [] { t := true } .ok s t

/-- R130: with `a = mont(x)`, FPAR writes the parity of `x`. -/
def Obligations.FparGivesTheParityOfTheNormalForm : Prop :=
  ∀ (s : State) (a : FReg) (x : Nat), s.cfg.Valid → (operands s).Reduced s.cfg a →
    x < s.cfg.p → radix * x % s.cfg.p = (operands s).val a →
    ∃ t, exec (.fpar a) s = .next t ∧ t.flags.p = decide (x % 2 = 1) ∧
      Completed [] { p := true } .ok s t

/-- R131: FCHK passes below `p`, and reports code 1 at or above it without a model fault. -/
def Obligations.FchkChecksTheRange : Prop :=
  ∀ (s : State) (a : FReg), (operands s).Canonical a →
    ∃ t, exec (.fchk a) s = .next t ∧
      t.flags.t = decide ((operands s).val a < s.cfg.p) ∧
      Completed [] { t := true }
        (if (operands s).val a < s.cfg.p then .ok else .invalidEncoding) s t

/-! ## Point Engine -/

/-- R134, R136: PADD writes the sum by the affine formula, both coordinates in Montgomery form. -/
def Obligations.PaddAddsByTheGroupLaw : Prop :=
  ∀ (s : State) (pd a b : PReg), s.cfg.Valid →
    (operands s).OnCurve s.cfg a → (operands s).OnCurve s.cfg b →
    ∃ t, exec (.padd pd a b) s = .next t ∧
      t.HoldsPoint pd (Claims.sumByFormula s.cfg ((operands s).pt s.cfg a)
        ((operands s).pt s.cfg b)) ∧
      Completed [xReg pd, yReg pd] {} .ok s t

/-- R137: PDBL writes `P + P`, and always answers as PADD of a point with itself. Out of contract the
two answer alike because a free draw depends on its number alone, the model's choice (Log 5). -/
def Obligations.PdblIsPaddOfAPointWithItself : Prop :=
  (∀ (s : State) (pd a : PReg), exec (.pdbl pd a) s = exec (.padd pd a a) s) ∧
  (∀ (s : State) (pd a : PReg), s.cfg.Valid → (operands s).OnCurve s.cfg a →
    ∃ t, exec (.pdbl pd a) s = .next t ∧
      t.HoldsPoint pd (Claims.sumByFormula s.cfg ((operands s).pt s.cfg a)
        ((operands s).pt s.cfg a)) ∧
      Completed [xReg pd, yReg pd] {} .ok s t)

/-- R138: PNEG negates the stored x coordinate and keeps y; on a point of `E` the result is on `E`
and its sum with the point is `O`. -/
def Obligations.PnegNegatesTheXCoordinate : Prop :=
  ∀ (s : State) (pd a : PReg), s.cfg.Valid →
    (operands s).Reduced s.cfg (xReg a) → (operands s).Reduced s.cfg (yReg a) →
    ∃ t, exec (.pneg pd a) s = .next t ∧
      t.Holds (xReg pd) (if (operands s).val (xReg a) = 0 then 0
        else s.cfg.p - (operands s).val (xReg a)) ∧
      t.Holds (yReg pd) ((operands s).val (yReg a)) ∧
      Completed [xReg pd, yReg pd] {} .ok s t ∧
      (s.cfg.onCurve ((operands s).pt s.cfg a) = true →
        s.cfg.onCurve (t.snapshot.pt s.cfg pd) = true ∧
        Claims.sumByFormula s.cfg ((operands s).pt s.cfg a) (t.snapshot.pt s.cfg pd) = .zero)

/-- R139: PMUL writes `k' * P` with `k' = k mod Q`, by the model's ladder (Log 16); `k' = 0` gives `O`
and `k' = 1` gives `P`. -/
def Obligations.PmulMultipliesByTheReducedScalar : Prop :=
  ∀ (s : State) (pd a : PReg) (k : FReg), s.cfg.Valid →
    (operands s).OnCurve s.cfg a → (operands s).Canonical k →
    ∃ t, exec (.pmul pd a k) s = .next t ∧
      t.HoldsPoint pd (s.cfg.mul ((operands s).val k % s.cfg.q) ((operands s).pt s.cfg a)) ∧
      ((operands s).val k % s.cfg.q = 0 → t.HoldsPoint pd .zero) ∧
      ((operands s).val k % s.cfg.q = 1 → t.HoldsPoint pd ((operands s).pt s.cfg a)) ∧
      Completed [xReg pd, yReg pd] {} .ok s t

/-- R21, R140: the double-and-add ladder gives the k-fold sum of every point of the curve. -/
def Obligations.LadderGivesTheKFoldSum : Prop :=
  ∀ (c : Cfg) (P : Point) (k : Nat), c.Valid → c.onCurve P = true → c.mul k P = c.sum k P

/-- R141: PCOF writes the result of two doublings. -/
def Obligations.PcofIsTwoDoublings : Prop :=
  ∀ (s : State) (pd a : PReg), s.cfg.Valid → (operands s).OnCurve s.cfg a →
    ∃ t, exec (.pcof pd a) s = .next t ∧
      t.HoldsPoint pd
        (Claims.sumByFormula s.cfg
          (Claims.sumByFormula s.cfg ((operands s).pt s.cfg a) ((operands s).pt s.cfg a))
          (Claims.sumByFormula s.cfg ((operands s).pt s.cfg a) ((operands s).pt s.cfg a))) ∧
      Completed [xReg pd, yReg pd] {} .ok s t

/-- R142: PONC: T and code 0 on the curve, 1 for a coordinate at or above `p`, 2 off the curve. -/
def Obligations.PoncReportsTheFirstFailure : Prop :=
  ∀ (s : State) (a : PReg),
    (operands s).Canonical (xReg a) → (operands s).Canonical (yReg a) →
    ∃ t e, exec (.ponc a) s = .next t ∧ Completed [] { t := true } e s t ∧
      t.flags.t = decide (e = .ok) ∧
      ((s.cfg.p ≤ (operands s).val (xReg a) ∨ s.cfg.p ≤ (operands s).val (yReg a)) →
        e = .invalidEncoding) ∧
      ((operands s).val (xReg a) < s.cfg.p → (operands s).val (yReg a) < s.cfg.p →
        e = if s.cfg.onCurve ((operands s).pt s.cfg a) then .ok else .notOnCurve)

/-- R143, R153 (d): PVAL reports the first failing condition of range, curve, `Q * P = O` with the
unreduced `Q`, and `P != O`, in this order. `Q * P` is the model's ladder (Log 16). -/
def Obligations.PvalReportsTheFirstFailure : Prop :=
  ∀ (s : State) (a : PReg),
    (operands s).Canonical (xReg a) → (operands s).Canonical (yReg a) →
    ∃ t e, exec (.pval a) s = .next t ∧ Completed [] { t := true } e s t ∧
      t.flags.t = decide (e = .ok) ∧
      ((s.cfg.p ≤ (operands s).val (xReg a) ∨ s.cfg.p ≤ (operands s).val (yReg a)) →
        e = .invalidEncoding) ∧
      ((operands s).val (xReg a) < s.cfg.p → (operands s).val (yReg a) < s.cfg.p →
        (s.cfg.onCurve ((operands s).pt s.cfg a) = false → e = .notOnCurve) ∧
        (s.cfg.onCurve ((operands s).pt s.cfg a) = true →
          (s.cfg.mul s.cfg.q ((operands s).pt s.cfg a) ≠ .zero → e = .notInSubgroup) ∧
          (s.cfg.mul s.cfg.q ((operands s).pt s.cfg a) = .zero →
            e = if (operands s).pt s.cfg a = .zero then .identityPoint else .ok)))

/-- R145, R149 (c): PDEC of `(x, s)` writes the one point of `E` with this x and this parity of y, T 1,
code 0; if there is none, the sentinel `(0, 0)`, T 0, code 1. -/
def Obligations.PdecFindsThePointOrReportsInvalidEncoding : Prop :=
  ∀ (s : State) (pd : PReg) (a : FReg) (sign : Bool), s.cfg.Valid → (operands s).Canonical a →
    (∀ y, s.cfg.onCurve ⟨(operands s).val a, y⟩ = true → decide (y % 2 = 1) = sign →
      ∃ t, exec (.pdec pd a sign) s = .next t ∧ t.HoldsPoint pd ⟨(operands s).val a, y⟩ ∧
        t.flags.t = true ∧ Completed [xReg pd, yReg pd] { t := true } .ok s t) ∧
    ((¬ ∃ y, s.cfg.onCurve ⟨(operands s).val a, y⟩ = true ∧ decide (y % 2 = 1) = sign) →
      ∃ t, exec (.pdec pd a sign) s = .next t ∧ t.Holds (xReg pd) 0 ∧ t.Holds (yReg pd) 0 ∧
        t.flags.t = false ∧ Completed [xReg pd, yReg pd] { t := true } .invalidEncoding s t)

/-- R146: PENC writes the normal-form x and the parity of the normal-form y. -/
def Obligations.PencCompresses : Prop :=
  ∀ (s : State) (rd : FReg) (a : PReg) (x y : Nat), s.cfg.Valid →
    (operands s).Reduced s.cfg (xReg a) → (operands s).Reduced s.cfg (yReg a) →
    x < s.cfg.p → radix * x % s.cfg.p = (operands s).val (xReg a) →
    y < s.cfg.p → radix * y % s.cfg.p = (operands s).val (yReg a) →
    ∃ t, exec (.penc rd a) s = .next t ∧ t.Holds rd x ∧ t.flags.p = decide (y % 2 = 1) ∧
      Completed [rd] { p := true } .ok s t

/-- R146: PENC of what a successful PDEC left gives back the x and the sign PDEC was given. -/
def Obligations.PencAfterPdecGivesBackTheEncoding : Prop :=
  ∀ (s t u : State) (pd : PReg) (a rd : FReg) (sign : Bool), s.cfg.Valid →
    (operands s).Canonical a → exec (.pdec pd a sign) s = .next t → t.status.err = .ok →
    exec (.penc rd pd) t = .next u →
    u.Holds rd ((operands s).val a) ∧ u.flags.p = sign

/-- R134: the addition law has no exceptional case on `E`: with `t = D x1 x2 y1 y2`, neither `1 + t`
nor `1 - t` is 0 modulo `p`. -/
def Obligations.AdditionLawHasNoExceptionalCase : Prop :=
  ∀ (c : Cfg) (P Q : Point), c.Valid → c.onCurve P = true → c.onCurve Q = true →
    (1 + c.d * P.x * Q.x * P.y * Q.y) % c.p ≠ 0 ∧
    c.d * P.x * Q.x * P.y * Q.y % c.p ≠ 1

/-- R118: the word-serial reduction with `MCONST` gives the same Montgomery product as the meaning of
MMUL, for all field-reduced operands. -/
def Obligations.WordSerialReductionGivesTheSameProduct : Prop :=
  ∀ (c : Cfg) (a b : Nat), c.Valid → a < c.p → b < c.p → c.montMulSerial a b = c.montMul a b

/-! ## Reset, bus, interrupt -/

/-- R166, R167: a hardware reset, which is the reset input in any state and power-up, puts everything
in its reset value at once: every ghost bit, so that no storage word has a defined value (the word
under a clear ghost bit is the model's placeholder, Log 3, and is not stated), FLAGS, STATUS, CTRL and
LASTCMD, and nothing in flight; `CFG` is not affected, nor are the recorded model faults (R151). -/
def Obligations.HardwareResetFromAnyState : Prop :=
  Claims.AtReset State.reset ∧
  ∀ (s : State) (rest : List Event), s.inbox = .hardReset :: rest →
    ∃ t, step s = .next t ∧ Claims.AtReset t ∧ t.cfg = s.cfg ∧ t.faults = s.faults

/-- R168, R169: a CTRL write with SRST, busy or not, is a soft reset: FLAGS, STATUS, CTRL and LASTCMD
take their reset values and a command in flight is discarded; its destination registers become
unspecified and every other register is unchanged; with none in flight every register is. -/
def Obligations.SoftResetAbortsTheCommand : Prop :=
  ∀ (s : State) (v : Word) (rest : List Event), v.getLsbD 1 = true →
    s.inbox = writeAt s.base 0x08 v :: rest →
    ∃ t, step s = .next t ∧
      flagsWord t.flags = 0 ∧ statusWord t = 0 ∧ ctrlWord t = 0 ∧ t.lastCmd = 0 ∧
      t.inflight = none ∧ t.cfg = s.cfg ∧ t.faults = s.faults ∧ t.inbox = rest ∧
      (s.inflight = none → t.regs = s.regs) ∧
      (∀ r, s.inflight = some r →
        (∀ i, ¬ Claims.IsDestination r.instr i → t.reg i = s.reg i) ∧
        (∀ i, Claims.IsDestination r.instr i →
          ∀ j : Fin 9, ((t.reg i).get j).written = false))

/-- R42, R44: a STATUS write clears each of DONE, ILLEGAL and OVR whose bit is 1 and changes no other
bit, and a CTRL write without SRST sets IRQ_EN to its bit 0; both busy or not. -/
def Obligations.StatusAndCtrlWrites : Prop :=
  ∀ (s : State) (v : Word) (rest : List Event),
    (s.inbox = writeAt s.base 0x10 v :: rest →
      step s = .next { s with
        status := { done := s.status.done && !v.getLsbD 1
                    illegal := s.status.illegal && !v.getLsbD 2
                    ovr := s.status.ovr && !v.getLsbD 3
                    err := s.status.err }
        inbox := rest, replies := .ack :: s.replies }) ∧
    (s.inbox = writeAt s.base 0x08 v :: rest → v.getLsbD 1 = false →
      step s = .next { s with
        irqEn := v.getLsbD 0, inbox := rest, replies := .ack :: s.replies })

/-- R155, R156: `irq` rises with the completion that sets DONE if IRQ_EN is 1, an illegal command's
completion included; it falls at the acceptance of a legal command, at a STATUS write with bit 1
set, at a hardware or soft reset, and at a CTRL write of IRQ_EN 0; a CTRL write of IRQ_EN 1 with DONE
1 raises it at once. -/
def Obligations.IrqFollowsDoneAndEnable : Prop :=
  (∀ (i : Instr) (s t : State), exec i s = .next t → t.irq = s.irqEn) ∧
  (∀ (s t : State) (w : Word) (rest : List Event), s.busy = false →
    s.inbox = writeAt s.base 0x20 w :: rest → step s = .next t →
    t.irq = (s.irqEn && !legal w)) ∧
  (∀ (s t : State) (v : Word) (rest : List Event), v.getLsbD 1 = true → step s = .next t →
    (s.inbox = writeAt s.base 0x10 v :: rest ∨ s.inbox = writeAt s.base 0x08 v :: rest ∨
      s.inbox = .hardReset :: rest) → t.irq = false) ∧
  (∀ (s t : State) (v : Word) (rest : List Event), v.getLsbD 1 = false →
    s.inbox = writeAt s.base 0x08 v :: rest → step s = .next t →
    t.irq = (s.status.done && v.getLsbD 0))

/-- R68, R69: on an idle core a write of a storage word stores all 64 bits and sets its ghost bit, and
a read gives a written word back and changes nothing; a read of an unwritten word gives a free draw
(the draw's form is the model's own, Log 5). -/
def Obligations.IdleStorageWordAccess : Prop :=
  ∀ (s : State) (i : FReg) (j : Fin 9) (v : Word) (rest : List Event), s.busy = false →
    (s.inbox = writeAt s.base (fregOffset i j) v :: rest →
      ∃ t, step s = .next t ∧ ((t.reg i).get j) = ⟨v, true⟩ ∧
        (∀ k, k ≠ j → (t.reg i).get k = (s.reg i).get k) ∧ (∀ k, k ≠ i → t.reg k = s.reg k) ∧
        t = { s with regs := t.regs, inbox := rest, replies := .ack :: s.replies }) ∧
    (s.inbox = readAt s.base (fregOffset i j) :: rest →
      (((s.reg i).get j).written = true →
        step s = .next { s with
          inbox := rest, replies := .data ((s.reg i).get j).word :: s.replies }) ∧
      (((s.reg i).get j).written = false →
        ∃ x, step s = .next { s with
          draws := s.draws + 1, inbox := rest, replies := .data x :: s.replies }))

/-- R57, R58: an access of another width, or at an offset that is not a multiple of 8, gets a bus
error and changes no state. -/
def Obligations.IllegalAccessGetsABusError : Prop :=
  ∀ (s : State) (off : Nat) (w : Width) (k : AccessKind) (rest : List Event), off < 0x2000 →
    (w ≠ .w64 ∨ off % 8 ≠ 0) → s.inbox = .access ⟨s.base + off, w, k⟩ :: rest →
    step s = .next { s with inbox := rest, replies := .busError :: s.replies }

/-- R35, R42, R44 to R47, R63, R71: what the host reads, busy or not: ID, CTRL, STATUS, FLAGS and
LASTCMD by their bits, 0 from CMD and the reserved offsets, and word `j` of CONST slot `k`; such a
read changes nothing, but that one of a reserved offset inside the FREG window while busy may set OVR
(Log 12). -/
def Obligations.ReadsGiveTheRegistersBits : Prop :=
  ∀ (s : State) (rest : List Event),
    (s.inbox = readAt s.base 0x00 :: rest → ∃ x,
      step s = .next { s with inbox := rest, replies := .data x :: s.replies } ∧
      bits x 0 16 = 0x0100 ∧ bits x 16 8 = 9 ∧ bits x 24 8 = 60 ∧ bits x 48 8 = 16 ∧
      bits x 56 8 = 0 ∧
      (s.cfg.Valid → 2 ^ (bits x 32 16 - 1) ≤ s.cfg.p ∧ s.cfg.p < 2 ^ bits x 32 16)) ∧
    (s.inbox = readAt s.base 0x08 :: rest → ∃ x,
      step s = .next { s with inbox := rest, replies := .data x :: s.replies } ∧
      x.getLsbD 0 = s.irqEn ∧ bits x 1 63 = 0) ∧
    (∀ off, off = 0x20 ∨ Claims.Reserved off → s.inbox = readAt s.base off :: rest →
      step s = .next { s with inbox := rest, replies := .data 0 :: s.replies }) ∧
    (∀ off, Claims.FregGap off → s.inbox = readAt s.base off :: rest →
      ∃ b, step s = .next { s with
        status := { s.status with ovr := s.status.ovr || (s.busy && b) }
        inbox := rest, replies := .data 0 :: s.replies }) ∧
    (s.inbox = readAt s.base 0x10 :: rest → ∃ x,
      step s = .next { s with inbox := rest, replies := .data x :: s.replies } ∧
      x.getLsbD 0 = s.busy ∧ x.getLsbD 1 = s.status.done ∧ x.getLsbD 2 = s.status.illegal ∧
      x.getLsbD 3 = s.status.ovr ∧ bits x 4 4 = 0 ∧ bits x 8 4 = codeNum s.status.err ∧
      bits x 12 52 = 0) ∧
    (s.inbox = readAt s.base 0x18 :: rest → ∃ x,
      step s = .next { s with inbox := rest, replies := .data x :: s.replies } ∧
      x.getLsbD 0 = s.flags.c ∧ x.getLsbD 1 = s.flags.b ∧ x.getLsbD 2 = s.flags.t ∧
      x.getLsbD 3 = s.flags.p ∧ bits x 4 2 = cmpBits s.flags.cmp ∧ bits x 6 58 = 0) ∧
    (s.inbox = readAt s.base 0x28 :: rest →
      step s = .next { s with inbox := rest, replies := .data s.lastCmd :: s.replies }) ∧
    (∀ (k j : Fin 9), s.inbox = readAt s.base (0x1000 + 0x80 * k.val + 8 * j.val) :: rest → ∃ x,
      step s = .next { s with inbox := rest, replies := .data x :: s.replies } ∧
      x.toNat = [s.cfg.p, s.cfg.r2, s.cfg.q, s.cfg.d, s.cfg.gx, s.cfg.gy, s.cfg.mconst, s.cfg.cof,
        s.cfg.a].getD k.val 0 / 2 ^ (60 * j.val) % 2 ^ 60)

/-- R67, R68, R70: the nine writes of the digits of `x` on an idle core leave `F[i]` holding `x`, and
every other register, FLAGS and STATUS as they were. -/
def Obligations.NineWritesLoadARegister : Prop :=
  ∀ (s : State) (i : FReg) (x : Nat), s.busy = false → x < radix →
    s.inbox = loadEvents s.base i x →
    ∃ t, core.run 9 s = .next t ∧ t.Holds i x ∧ (∀ k, k ≠ i → t.reg k = s.reg k) ∧
      t.flags = s.flags ∧ t.status = s.status ∧ t.lastCmd = s.lastCmd ∧ t.inbox = []

/-- R70: a field element comes back from its 64-byte big-endian string, and a string of value `p` or
more does not decode. -/
def Obligations.ByteStringRoundTrip : Prop :=
  (∀ (c : Cfg) (x : Nat), c.Valid → x < c.p → decodeString c (byteString x) = some x) ∧
  (∀ (c : Cfg) (x : Nat), c.p ≤ x → x < 256 ^ 64 → decodeString c (byteString x) = none)

/-- R31, R98: the two commands of `PLDID Pk` leave the identity `O` in `Pk`, and those of `PLDG Pk` the
generator: each is two completions, the second after the first. -/
def Obligations.PseudoInstructionsLoadTheirPoints : Prop :=
  ∀ (s : State) (k : PReg), s.cfg.Valid → s.busy = false →
    (∃ i j t u, expand (.pldid k) = [i, j] ∧ exec i s = .next t ∧ exec j t = .next u ∧
      u.HoldsPoint k .zero ∧ Frame [xReg k, yReg k] {} s u) ∧
    (∃ i j t u, expand (.pldg k) = [i, j] ∧ exec i s = .next t ∧ exec j t = .next u ∧
      u.HoldsPoint k ⟨s.cfg.gx, s.cfg.gy⟩ ∧ Frame [xReg k, yReg k] {} s u)

/-! ## Invariants and whole-machine rules -/

/-- R48, R77, R79, R94: every step, whatever arrives, keeps the invariant of the command in flight. -/
def Obligations.EveryStepKeepsTheInFlightInvariant : Prop :=
  ∀ s t : State, s.inFlightOk → step s = .next t → t.inFlightOk

/-- The invariant of the command in flight holds after reset. -/
def Obligations.ResetMeetsTheInFlightInvariant : Prop := State.reset.inFlightOk

/-- R75, R77, R175: while a command is in flight, no host access changes a register, a flag, the result
code, LASTCMD or the command in flight, unless it is the CTRL write with SRST. -/
def Obligations.OnlySoftResetDisturbsACommandInFlight : Prop :=
  ∀ (s t : State) (a : Access) (rest : List Event), s.busy = true →
    s.inbox = .access a :: rest → step s = .next t →
    (t.regs = s.regs ∧ t.flags = s.flags ∧ t.status.err = s.status.err ∧ t.lastCmd = s.lastCmd ∧
      t.inflight = s.inflight) ∨
    (a.addr = s.base + 0x08 ∧ a.width = .w64 ∧ ∃ v, a.kind = .write v ∧ v.getLsbD 1 = true)

/-- R177: no command stays in flight for ever: if no access to arrive is outside the window, the machine
comes to rest with BUSY 0 and nothing to arrive, after at most one step more than there are events.
The bound is the model's: what is to arrive is a finite list (Log 30), and the core has its turn when
the list is used up (Log 7). -/
def Obligations.TheMachineComesToRest : Prop :=
  ∀ s : State, (∀ e ∈ s.inbox, Claims.inWindow s e) →
    ∃ n t, n ≤ s.inbox.length + 1 ∧ core.run n s = .next t ∧ t.busy = false ∧ t.inbox = []

/-- R63: a write to ID, FLAGS, LASTCMD, the CONST window or a reserved offset is accepted and ignored,
busy or not; one to a reserved offset inside the FREG window while busy may set OVR (Log 12). -/
def Obligations.WritesToReadOnlyOffsetsAreIgnored : Prop :=
  ∀ (s : State) (off : Nat) (v : Word) (rest : List Event),
    s.inbox = writeAt s.base off v :: rest →
    ((off = 0x00 ∨ off = 0x18 ∨ off = 0x28 ∨ (off % 8 = 0 ∧ 0x1000 ≤ off ∧ off < 0x1480) ∨
        Claims.Reserved off) →
      step s = .next { s with inbox := rest, replies := .ack :: s.replies }) ∧
    (Claims.FregGap off →
      ∃ b, step s = .next { s with
        status := { s.status with ovr := s.status.ovr || (s.busy && b) }
        inbox := rest, replies := .ack :: s.replies })
end

