-- ==== Sys2Proof/Laws/Arith.lean ====
section
/-! SUPPORT. The ladders compute powers, and the residues stay below the modulus
(spec/00_scope.md R20, spec/41_field.md R127). -/

namespace Sys2Proof

theorem powModAux_eq (m : Nat) : ∀ (fuel b e acc : Nat), e < 2 ^ fuel →
    powModAux m fuel b e acc % m = acc * b ^ e % m
  | 0, b, e, acc, h => by
    have : e = 0 := by omega
    simp [powModAux, this]
  | fuel + 1, b, e, acc, h => by
    have he : e / 2 < 2 ^ fuel := by
      rw [Nat.pow_succ] at h
      omega
    have hb : (b * b % m) ^ (e / 2) % m = b ^ (2 * (e / 2)) % m := by
      rw [← Nat.pow_mod, ← Nat.pow_two, ← Nat.pow_mul]
    rw [powModAux, powModAux_eq m fuel _ _ _ he]
    by_cases ho : e % 2 = 1
    · rw [if_pos ho, Nat.mul_mod, hb, Nat.mod_mod, ← Nat.mul_mod, Nat.mul_assoc, ← Nat.pow_succ']
      congr 3
      omega
    · rw [if_neg ho, Nat.mul_mod, hb, ← Nat.mul_mod]
      congr 3
      omega

theorem powModAux_lt {m : Nat} (hm : 0 < m) : ∀ (fuel b e acc : Nat), acc < m →
    powModAux m fuel b e acc < m
  | 0, _, _, _, h => h
  | fuel + 1, b, e, acc, h => by
    rw [powModAux]
    apply powModAux_lt hm
    split
    · exact Nat.mod_lt _ hm
    · exact h

/-- The ladder of `powMod` computes the power (R127). -/
theorem powMod_eq (m b e : Nat) : powMod m b e = b ^ e % m := by
  have h := powModAux_eq m (Nat.log2 e + 1) (b % m) e (1 % m) Nat.lt_log2_self
  rw [powMod]
  rcases Nat.eq_zero_or_pos m with hm | hm
  · subst hm
    simpa using h
  · rw [Nat.mod_eq_of_lt (powModAux_lt hm _ _ _ _ (Nat.mod_lt _ hm))] at h
    rw [h, Nat.mul_mod, ← Nat.pow_mod, Nat.mod_mod, ← Nat.mul_mod, Nat.one_mul]

theorem subMod_lt {p : Nat} (hp : 0 < p) (a b : Nat) : subMod p a b < p := Nat.mod_lt _ hp

/-- Subtraction modulo `p` undoes addition (R120). -/
theorem subMod_add {p : Nat} (hp : 0 < p) (a b : Nat) : (subMod p a b + b) % p = a % p := by
  have hlt := Nat.mod_lt b hp
  have hdiv := Nat.mod_add_div b p
  have e : a + (p - b % p) + b = a + p * (b / p + 1) := by
    rw [Nat.mul_add]
    omega
  rw [subMod, Nat.mod_add_mod, e, Nat.add_mul_mod_self_left]

theorem mont_lt {c : Cfg} (hp : 0 < c.p) (x : Nat) : c.mont x < c.p := Nat.mod_lt _ hp
theorem unmont_lt {c : Cfg} (hp : 0 < c.p) (x : Nat) : c.unmont x < c.p := Nat.mod_lt _ hp
theorem montMul_lt {c : Cfg} (hp : 0 < c.p) (a b : Nat) : c.montMul a b < c.p := Nat.mod_lt _ hp

/-- Every configured modulus is below `2^540` (R9, R12 (a)). -/
theorem p_lt_radix {c : Cfg} (h : c.Valid) : c.p < radix :=
  Nat.lt_of_lt_of_le h.fits (by decide +kernel)

end Sys2Proof
end

