-- ==== Sys2Proof/Laws/State.lean ====
section
/-! SUPPORT. What each update of the state does to each field: true by `rfl`, for `simp`. -/

namespace Sys2Proof.Machine

variable (s : State)

/-! ### setReg -/

@[simp] theorem setReg_cfg (i : FReg) (r : FieldReg) : (s.setReg i r).cfg = s.cfg := rfl
@[simp] theorem setReg_basePage (i : FReg) (r : FieldReg) :
    (s.setReg i r).basePage = s.basePage := rfl
@[simp] theorem setReg_regs (i : FReg) (r : FieldReg) :
    (s.setReg i r).regs = s.regs.set i.val r i.isLt := rfl
@[simp] theorem setReg_flags (i : FReg) (r : FieldReg) : (s.setReg i r).flags = s.flags := rfl
@[simp] theorem setReg_status (i : FReg) (r : FieldReg) : (s.setReg i r).status = s.status := rfl
@[simp] theorem setReg_irqEn (i : FReg) (r : FieldReg) : (s.setReg i r).irqEn = s.irqEn := rfl
@[simp] theorem setReg_lastCmd (i : FReg) (r : FieldReg) : (s.setReg i r).lastCmd = s.lastCmd := rfl
@[simp] theorem setReg_inflight (i : FReg) (r : FieldReg) :
    (s.setReg i r).inflight = s.inflight := rfl
@[simp] theorem setReg_faults (i : FReg) (r : FieldReg) : (s.setReg i r).faults = s.faults := rfl
@[simp] theorem setReg_draws (i : FReg) (r : FieldReg) : (s.setReg i r).draws = s.draws := rfl
@[simp] theorem setReg_inbox (i : FReg) (r : FieldReg) : (s.setReg i r).inbox = s.inbox := rfl
@[simp] theorem setReg_replies (i : FReg) (r : FieldReg) : (s.setReg i r).replies = s.replies := rfl

/-! ### setVal -/

@[simp] theorem setVal_cfg (i : FReg) (v : Nat) : (s.setVal i v).cfg = s.cfg := rfl
@[simp] theorem setVal_basePage (i : FReg) (v : Nat) : (s.setVal i v).basePage = s.basePage := rfl
@[simp] theorem setVal_regs (i : FReg) (v : Nat) :
    (s.setVal i v).regs = s.regs.set i.val (regOf v) i.isLt := rfl
@[simp] theorem setVal_flags (i : FReg) (v : Nat) : (s.setVal i v).flags = s.flags := rfl
@[simp] theorem setVal_status (i : FReg) (v : Nat) : (s.setVal i v).status = s.status := rfl
@[simp] theorem setVal_irqEn (i : FReg) (v : Nat) : (s.setVal i v).irqEn = s.irqEn := rfl
@[simp] theorem setVal_lastCmd (i : FReg) (v : Nat) : (s.setVal i v).lastCmd = s.lastCmd := rfl
@[simp] theorem setVal_inflight (i : FReg) (v : Nat) : (s.setVal i v).inflight = s.inflight := rfl
@[simp] theorem setVal_faults (i : FReg) (v : Nat) : (s.setVal i v).faults = s.faults := rfl
@[simp] theorem setVal_draws (i : FReg) (v : Nat) : (s.setVal i v).draws = s.draws := rfl
@[simp] theorem setVal_inbox (i : FReg) (v : Nat) : (s.setVal i v).inbox = s.inbox := rfl
@[simp] theorem setVal_replies (i : FReg) (v : Nat) : (s.setVal i v).replies = s.replies := rfl

/-! ### setPoint -/

@[simp] theorem setPoint_cfg (k : PReg) (P : Point) : (s.setPoint k P).cfg = s.cfg := rfl
@[simp] theorem setPoint_basePage (k : PReg) (P : Point) :
    (s.setPoint k P).basePage = s.basePage := rfl
@[simp] theorem setPoint_flags (k : PReg) (P : Point) : (s.setPoint k P).flags = s.flags := rfl
@[simp] theorem setPoint_status (k : PReg) (P : Point) : (s.setPoint k P).status = s.status := rfl
@[simp] theorem setPoint_irqEn (k : PReg) (P : Point) : (s.setPoint k P).irqEn = s.irqEn := rfl
@[simp] theorem setPoint_lastCmd (k : PReg) (P : Point) :
    (s.setPoint k P).lastCmd = s.lastCmd := rfl
@[simp] theorem setPoint_inflight (k : PReg) (P : Point) :
    (s.setPoint k P).inflight = s.inflight := rfl
@[simp] theorem setPoint_faults (k : PReg) (P : Point) : (s.setPoint k P).faults = s.faults := rfl
@[simp] theorem setPoint_draws (k : PReg) (P : Point) : (s.setPoint k P).draws = s.draws := rfl
@[simp] theorem setPoint_inbox (k : PReg) (P : Point) : (s.setPoint k P).inbox = s.inbox := rfl
@[simp] theorem setPoint_replies (k : PReg) (P : Point) :
    (s.setPoint k P).replies = s.replies := rfl

/-! ### complete -/

@[simp] theorem complete_cfg (e : ResultCode) : (s.complete e).cfg = s.cfg := rfl
@[simp] theorem complete_basePage (e : ResultCode) : (s.complete e).basePage = s.basePage := rfl
@[simp] theorem complete_regs (e : ResultCode) : (s.complete e).regs = s.regs := rfl
@[simp] theorem complete_flags (e : ResultCode) : (s.complete e).flags = s.flags := rfl
@[simp] theorem complete_status (e : ResultCode) :
    (s.complete e).status = { s.status with done := true, err := e } := rfl
@[simp] theorem complete_irqEn (e : ResultCode) : (s.complete e).irqEn = s.irqEn := rfl
@[simp] theorem complete_lastCmd (e : ResultCode) : (s.complete e).lastCmd = s.lastCmd := rfl
@[simp] theorem complete_inflight (e : ResultCode) : (s.complete e).inflight = none := rfl
@[simp] theorem complete_faults (e : ResultCode) : (s.complete e).faults = s.faults := rfl
@[simp] theorem complete_draws (e : ResultCode) : (s.complete e).draws = s.draws := rfl
@[simp] theorem complete_inbox (e : ResultCode) : (s.complete e).inbox = s.inbox := rfl
@[simp] theorem complete_replies (e : ResultCode) : (s.complete e).replies = s.replies := rfl

/-! ### illegalCompletion -/

@[simp] theorem illegalCompletion_cfg : s.illegalCompletion.cfg = s.cfg := rfl
@[simp] theorem illegalCompletion_basePage : s.illegalCompletion.basePage = s.basePage := rfl
@[simp] theorem illegalCompletion_regs : s.illegalCompletion.regs = s.regs := rfl
@[simp] theorem illegalCompletion_flags : s.illegalCompletion.flags = s.flags := rfl
@[simp] theorem illegalCompletion_status :
    s.illegalCompletion.status = { s.status with done := true, illegal := true, err := .illegalCommand } := rfl
@[simp] theorem illegalCompletion_irqEn : s.illegalCompletion.irqEn = s.irqEn := rfl
@[simp] theorem illegalCompletion_lastCmd : s.illegalCompletion.lastCmd = s.lastCmd := rfl
@[simp] theorem illegalCompletion_inflight : s.illegalCompletion.inflight = none := rfl
@[simp] theorem illegalCompletion_faults : s.illegalCompletion.faults = s.faults := rfl
@[simp] theorem illegalCompletion_draws : s.illegalCompletion.draws = s.draws := rfl
@[simp] theorem illegalCompletion_inbox : s.illegalCompletion.inbox = s.inbox := rfl
@[simp] theorem illegalCompletion_replies : s.illegalCompletion.replies = s.replies := rfl

/-! ### setC -/

@[simp] theorem setC_cfg (v : Bool) : (s.setC v).cfg = s.cfg := rfl
@[simp] theorem setC_basePage (v : Bool) : (s.setC v).basePage = s.basePage := rfl
@[simp] theorem setC_regs (v : Bool) : (s.setC v).regs = s.regs := rfl
@[simp] theorem setC_flags (v : Bool) : (s.setC v).flags = { s.flags with c := v } := rfl
@[simp] theorem setC_status (v : Bool) : (s.setC v).status = s.status := rfl
@[simp] theorem setC_irqEn (v : Bool) : (s.setC v).irqEn = s.irqEn := rfl
@[simp] theorem setC_lastCmd (v : Bool) : (s.setC v).lastCmd = s.lastCmd := rfl
@[simp] theorem setC_inflight (v : Bool) : (s.setC v).inflight = s.inflight := rfl
@[simp] theorem setC_faults (v : Bool) : (s.setC v).faults = s.faults := rfl
@[simp] theorem setC_draws (v : Bool) : (s.setC v).draws = s.draws := rfl
@[simp] theorem setC_inbox (v : Bool) : (s.setC v).inbox = s.inbox := rfl
@[simp] theorem setC_replies (v : Bool) : (s.setC v).replies = s.replies := rfl

/-! ### setB -/

@[simp] theorem setB_cfg (v : Bool) : (s.setB v).cfg = s.cfg := rfl
@[simp] theorem setB_basePage (v : Bool) : (s.setB v).basePage = s.basePage := rfl
@[simp] theorem setB_regs (v : Bool) : (s.setB v).regs = s.regs := rfl
@[simp] theorem setB_flags (v : Bool) : (s.setB v).flags = { s.flags with b := v } := rfl
@[simp] theorem setB_status (v : Bool) : (s.setB v).status = s.status := rfl
@[simp] theorem setB_irqEn (v : Bool) : (s.setB v).irqEn = s.irqEn := rfl
@[simp] theorem setB_lastCmd (v : Bool) : (s.setB v).lastCmd = s.lastCmd := rfl
@[simp] theorem setB_inflight (v : Bool) : (s.setB v).inflight = s.inflight := rfl
@[simp] theorem setB_faults (v : Bool) : (s.setB v).faults = s.faults := rfl
@[simp] theorem setB_draws (v : Bool) : (s.setB v).draws = s.draws := rfl
@[simp] theorem setB_inbox (v : Bool) : (s.setB v).inbox = s.inbox := rfl
@[simp] theorem setB_replies (v : Bool) : (s.setB v).replies = s.replies := rfl

/-! ### setT -/

@[simp] theorem setT_cfg (v : Bool) : (s.setT v).cfg = s.cfg := rfl
@[simp] theorem setT_basePage (v : Bool) : (s.setT v).basePage = s.basePage := rfl
@[simp] theorem setT_regs (v : Bool) : (s.setT v).regs = s.regs := rfl
@[simp] theorem setT_flags (v : Bool) : (s.setT v).flags = { s.flags with t := v } := rfl
@[simp] theorem setT_status (v : Bool) : (s.setT v).status = s.status := rfl
@[simp] theorem setT_irqEn (v : Bool) : (s.setT v).irqEn = s.irqEn := rfl
@[simp] theorem setT_lastCmd (v : Bool) : (s.setT v).lastCmd = s.lastCmd := rfl
@[simp] theorem setT_inflight (v : Bool) : (s.setT v).inflight = s.inflight := rfl
@[simp] theorem setT_faults (v : Bool) : (s.setT v).faults = s.faults := rfl
@[simp] theorem setT_draws (v : Bool) : (s.setT v).draws = s.draws := rfl
@[simp] theorem setT_inbox (v : Bool) : (s.setT v).inbox = s.inbox := rfl
@[simp] theorem setT_replies (v : Bool) : (s.setT v).replies = s.replies := rfl

/-! ### setP -/

@[simp] theorem setP_cfg (v : Bool) : (s.setP v).cfg = s.cfg := rfl
@[simp] theorem setP_basePage (v : Bool) : (s.setP v).basePage = s.basePage := rfl
@[simp] theorem setP_regs (v : Bool) : (s.setP v).regs = s.regs := rfl
@[simp] theorem setP_flags (v : Bool) : (s.setP v).flags = { s.flags with p := v } := rfl
@[simp] theorem setP_status (v : Bool) : (s.setP v).status = s.status := rfl
@[simp] theorem setP_irqEn (v : Bool) : (s.setP v).irqEn = s.irqEn := rfl
@[simp] theorem setP_lastCmd (v : Bool) : (s.setP v).lastCmd = s.lastCmd := rfl
@[simp] theorem setP_inflight (v : Bool) : (s.setP v).inflight = s.inflight := rfl
@[simp] theorem setP_faults (v : Bool) : (s.setP v).faults = s.faults := rfl
@[simp] theorem setP_draws (v : Bool) : (s.setP v).draws = s.draws := rfl
@[simp] theorem setP_inbox (v : Bool) : (s.setP v).inbox = s.inbox := rfl
@[simp] theorem setP_replies (v : Bool) : (s.setP v).replies = s.replies := rfl

/-! ### setCmp -/

@[simp] theorem setCmp_cfg (v : Cmp) : (s.setCmp v).cfg = s.cfg := rfl
@[simp] theorem setCmp_basePage (v : Cmp) : (s.setCmp v).basePage = s.basePage := rfl
@[simp] theorem setCmp_regs (v : Cmp) : (s.setCmp v).regs = s.regs := rfl
@[simp] theorem setCmp_flags (v : Cmp) : (s.setCmp v).flags = { s.flags with cmp := v } := rfl
@[simp] theorem setCmp_status (v : Cmp) : (s.setCmp v).status = s.status := rfl
@[simp] theorem setCmp_irqEn (v : Cmp) : (s.setCmp v).irqEn = s.irqEn := rfl
@[simp] theorem setCmp_lastCmd (v : Cmp) : (s.setCmp v).lastCmd = s.lastCmd := rfl
@[simp] theorem setCmp_inflight (v : Cmp) : (s.setCmp v).inflight = s.inflight := rfl
@[simp] theorem setCmp_faults (v : Cmp) : (s.setCmp v).faults = s.faults := rfl
@[simp] theorem setCmp_draws (v : Cmp) : (s.setCmp v).draws = s.draws := rfl
@[simp] theorem setCmp_inbox (v : Cmp) : (s.setCmp v).inbox = s.inbox := rfl
@[simp] theorem setCmp_replies (v : Cmp) : (s.setCmp v).replies = s.replies := rfl

/-! ### setOvr -/

@[simp] theorem setOvr_cfg : s.setOvr.cfg = s.cfg := rfl
@[simp] theorem setOvr_basePage : s.setOvr.basePage = s.basePage := rfl
@[simp] theorem setOvr_regs : s.setOvr.regs = s.regs := rfl
@[simp] theorem setOvr_flags : s.setOvr.flags = s.flags := rfl
@[simp] theorem setOvr_status : s.setOvr.status = { s.status with ovr := true } := rfl
@[simp] theorem setOvr_irqEn : s.setOvr.irqEn = s.irqEn := rfl
@[simp] theorem setOvr_lastCmd : s.setOvr.lastCmd = s.lastCmd := rfl
@[simp] theorem setOvr_inflight : s.setOvr.inflight = s.inflight := rfl
@[simp] theorem setOvr_faults : s.setOvr.faults = s.faults := rfl
@[simp] theorem setOvr_draws : s.setOvr.draws = s.draws := rfl
@[simp] theorem setOvr_inbox : s.setOvr.inbox = s.inbox := rfl
@[simp] theorem setOvr_replies : s.setOvr.replies = s.replies := rfl

/-! ### reply -/

@[simp] theorem reply_cfg (r : Reply) : (s.reply r).cfg = s.cfg := rfl
@[simp] theorem reply_basePage (r : Reply) : (s.reply r).basePage = s.basePage := rfl
@[simp] theorem reply_regs (r : Reply) : (s.reply r).regs = s.regs := rfl
@[simp] theorem reply_flags (r : Reply) : (s.reply r).flags = s.flags := rfl
@[simp] theorem reply_status (r : Reply) : (s.reply r).status = s.status := rfl
@[simp] theorem reply_irqEn (r : Reply) : (s.reply r).irqEn = s.irqEn := rfl
@[simp] theorem reply_lastCmd (r : Reply) : (s.reply r).lastCmd = s.lastCmd := rfl
@[simp] theorem reply_inflight (r : Reply) : (s.reply r).inflight = s.inflight := rfl
@[simp] theorem reply_faults (r : Reply) : (s.reply r).faults = s.faults := rfl
@[simp] theorem reply_draws (r : Reply) : (s.reply r).draws = s.draws := rfl
@[simp] theorem reply_inbox (r : Reply) : (s.reply r).inbox = s.inbox := rfl
@[simp] theorem reply_replies (r : Reply) : (s.reply r).replies = r :: s.replies := rfl

/-! ### report -/

@[simp] theorem report_cfg (e : ResultCode) : (s.report e).cfg = s.cfg := rfl
@[simp] theorem report_basePage (e : ResultCode) : (s.report e).basePage = s.basePage := rfl
@[simp] theorem report_regs (e : ResultCode) : (s.report e).regs = s.regs := rfl
@[simp] theorem report_flags (e : ResultCode) :
    (s.report e).flags = { s.flags with t := e == .ok } := rfl
@[simp] theorem report_status (e : ResultCode) :
    (s.report e).status = { s.status with done := true, err := e } := rfl
@[simp] theorem report_irqEn (e : ResultCode) : (s.report e).irqEn = s.irqEn := rfl
@[simp] theorem report_lastCmd (e : ResultCode) : (s.report e).lastCmd = s.lastCmd := rfl
@[simp] theorem report_inflight (e : ResultCode) : (s.report e).inflight = none := rfl
@[simp] theorem report_faults (e : ResultCode) : (s.report e).faults = s.faults := rfl
@[simp] theorem report_draws (e : ResultCode) : (s.report e).draws = s.draws := rfl
@[simp] theorem report_inbox (e : ResultCode) : (s.report e).inbox = s.inbox := rfl
@[simp] theorem report_replies (e : ResultCode) : (s.report e).replies = s.replies := rfl

/-! ### recordFault -/

@[simp] theorem recordFault_cfg (k : Option ModelFault) : (s.recordFault k).cfg = s.cfg := by
  cases k <;> rfl
@[simp] theorem recordFault_basePage (k : Option ModelFault) : (s.recordFault k).basePage = s.basePage := by
  cases k <;> rfl
@[simp] theorem recordFault_regs (k : Option ModelFault) : (s.recordFault k).regs = s.regs := by
  cases k <;> rfl
@[simp] theorem recordFault_flags (k : Option ModelFault) : (s.recordFault k).flags = s.flags := by
  cases k <;> rfl
@[simp] theorem recordFault_status (k : Option ModelFault) : (s.recordFault k).status = s.status := by
  cases k <;> rfl
@[simp] theorem recordFault_irqEn (k : Option ModelFault) : (s.recordFault k).irqEn = s.irqEn := by
  cases k <;> rfl
@[simp] theorem recordFault_lastCmd (k : Option ModelFault) : (s.recordFault k).lastCmd = s.lastCmd := by
  cases k <;> rfl
@[simp] theorem recordFault_inflight (k : Option ModelFault) : (s.recordFault k).inflight = s.inflight := by
  cases k <;> rfl
@[simp] theorem recordFault_draws (k : Option ModelFault) : (s.recordFault k).draws = s.draws := by
  cases k <;> rfl
@[simp] theorem recordFault_inbox (k : Option ModelFault) : (s.recordFault k).inbox = s.inbox := by
  cases k <;> rfl
@[simp] theorem recordFault_replies (k : Option ModelFault) : (s.recordFault k).replies = s.replies := by
  cases k <;> rfl
@[simp] theorem recordFault_none : s.recordFault none = s := rfl
@[simp] theorem recordFault_some (k : ModelFault) :
    (s.recordFault (some k)).faults = s.faults.record k := rfl

/-! ### The views -/

@[simp] theorem busy_complete (e : ResultCode) : (s.complete e).busy = false := rfl
@[simp] theorem busy_illegalCompletion : s.illegalCompletion.busy = false := rfl
@[simp] theorem busy_report (e : ResultCode) : (s.report e).busy = false := rfl
@[simp] theorem busy_setOvr : s.setOvr.busy = s.busy := rfl
@[simp] theorem busy_reply (r : Reply) : (s.reply r).busy = s.busy := rfl
@[simp] theorem busy_setReg (i : FReg) (r : FieldReg) : (s.setReg i r).busy = s.busy := rfl
theorem busy_eq_false_iff : s.busy = false ↔ s.inflight = none := by
  simp [State.busy]
@[simp] theorem snapshot_regs : s.snapshot.regs = s.regs := rfl
@[simp] theorem snapshot_t : s.snapshot.t = s.flags.t := rfl
theorem operands_of_idle (h : s.inflight = none) : operands s = s.snapshot := by
  simp [operands, h]
theorem operands_of_inflight {r : InFlight} (h : s.inflight = some r) : operands s = r.snap := by
  simp [operands, h]

end Sys2Proof.Machine
end

