-- ==== Sys2Proof/Laws/Registers.lean ====
section
/-! SUPPORT. The register file: read after write, the digits of an integer, canonical registers
(spec/00_scope.md R17, R18, R22). -/

namespace Sys2Proof.Machine

/-! ### Read after write -/

@[simp] theorem reg_setReg_self (s : State) (i : FReg) (r : FieldReg) :
    (s.setReg i r).reg i = r := by
  simp only [State.reg, State.setReg, Vector.get_eq_getElem, Vector.getElem_set_self]

theorem reg_setReg_of_ne (s : State) {i j : FReg} (r : FieldReg) (h : j ≠ i) :
    (s.setReg i r).reg j = s.reg j := by
  have hv : i.val ≠ j.val := fun e => h (Fin.ext e.symm)
  simp only [State.reg, State.setReg, Vector.get_eq_getElem]
  exact Vector.getElem_set_ne i.isLt j.isLt hv

theorem reg_setReg (s : State) (i j : FReg) (r : FieldReg) :
    (s.setReg i r).reg j = if j = i then r else s.reg j := by
  split
  · subst_vars; simp
  · exact reg_setReg_of_ne s r ‹_›

@[simp] theorem reg_setVal_self (s : State) (i : FReg) (v : Nat) :
    (s.setVal i v).reg i = regOf v := reg_setReg_self s i _

theorem reg_setVal (s : State) (i j : FReg) (v : Nat) :
    (s.setVal i v).reg j = if j = i then regOf v else s.reg j := reg_setReg s i j _

theorem reg_congr {s t : State} (h : t.regs = s.regs) (i : FReg) : t.reg i = s.reg i := by
  simp [State.reg, h]

@[simp] theorem reg_complete (s : State) (e : ResultCode) (i : FReg) :
    (s.complete e).reg i = s.reg i := rfl
@[simp] theorem reg_report (s : State) (e : ResultCode) (i : FReg) :
    (s.report e).reg i = s.reg i := rfl
@[simp] theorem reg_setC (s : State) (v : Bool) (i : FReg) : (s.setC v).reg i = s.reg i := rfl
@[simp] theorem reg_setB (s : State) (v : Bool) (i : FReg) : (s.setB v).reg i = s.reg i := rfl
@[simp] theorem reg_setT (s : State) (v : Bool) (i : FReg) : (s.setT v).reg i = s.reg i := rfl
@[simp] theorem reg_setP (s : State) (v : Bool) (i : FReg) : (s.setP v).reg i = s.reg i := rfl
@[simp] theorem reg_setCmp (s : State) (v : Cmp) (i : FReg) : (s.setCmp v).reg i = s.reg i := rfl
@[simp] theorem reg_setOvr (s : State) (i : FReg) : s.setOvr.reg i = s.reg i := rfl
@[simp] theorem reg_reply (s : State) (r : Reply) (i : FReg) : (s.reply r).reg i = s.reg i := rfl

theorem snapshot_get (s : State) (i : FReg) : s.snapshot.regs.get i = s.reg i := rfl

/-! ### The two registers of a point register -/

@[simp] theorem xReg_ne_yReg (k l : PReg) : xReg k ≠ yReg l := by
  intro h
  have := congrArg Fin.val h
  simp [xReg, yReg] at this
  omega

@[simp] theorem yReg_ne_xReg (k l : PReg) : yReg k ≠ xReg l := fun h => xReg_ne_yReg l k h.symm

theorem reg_setPoint (s : State) (k : PReg) (P : Point) (j : FReg) :
    (s.setPoint k P).reg j =
      if j = yReg k then regOf (s.cfg.mont P.y)
      else if j = xReg k then regOf (s.cfg.mont P.x) else s.reg j := by
  rw [State.setPoint, reg_setVal, reg_setVal]

/-! ### Digits -/

theorem digit_toNat (v j : Nat) : (digit v j).toNat = v / 2 ^ (60 * j) % 2 ^ 60 := by
  simp only [digit, BitVec.toNat_ofNat]
  exact Nat.mod_eq_of_lt (Nat.lt_of_lt_of_le (Nat.mod_lt _ (by decide)) (by decide))

/-- The nine digit indexes are all of `Fin 9`. -/
theorem mem_digitIdx (j : Fin 9) : j ∈ digitIdx := by revert j; decide

theorem regWritten_iff (r : FieldReg) :
    regWritten r = true ↔ ∀ j : Fin 9, (r.get j).written = true := by
  simp only [regWritten, List.all_eq_true]
  exact ⟨fun h j => h j (mem_digitIdx j), fun h j _ => h j⟩

theorem regCanon_iff (r : FieldReg) :
    regCanon r = true ↔ ∀ j : Fin 9, (r.get j).word.toNat < 2 ^ 60 := by
  simp only [regCanon, List.all_eq_true, decide_eq_true_eq]
  exact ⟨fun h j => h j (mem_digitIdx j), fun h j _ => h j⟩

theorem regOf_get (v : Nat) (j : Fin 9) : (regOf v).get j = slotOf (digit v j) := by
  match j with
  | 0 | 1 | 2 | 3 | 4 | 5 | 6 | 7 | 8 => rfl

theorem mapReg_get (f : Slot → Slot) (r : FieldReg) (j : Fin 9) :
    (mapReg f r).get j = f (r.get j) := by
  match j with
  | 0 | 1 | 2 | 3 | 4 | 5 | 6 | 7 | 8 => rfl

/-- The sum over the digit indexes, written out. -/
theorem sum_digitIdx (w : Fin 9 → Nat) (B : Nat) :
    (digitIdx.map fun j => w j * B ^ j.val).sum = w 0 + w 1 * B + w 2 * B ^ 2 + w 3 * B ^ 3
      + w 4 * B ^ 4 + w 5 * B ^ 5 + w 6 * B ^ 6 + w 7 * B ^ 7 + w 8 * B ^ 8 := by
  simp [digitIdx]
  ring

/-- The value of a register, written out as the sum of R17 in the digit base. -/
theorem regVal_eq (r : FieldReg) :
    regVal r = (r.get 0).word.toNat + (r.get 1).word.toNat * 2 ^ 60
      + (r.get 2).word.toNat * (2 ^ 60) ^ 2 + (r.get 3).word.toNat * (2 ^ 60) ^ 3
      + (r.get 4).word.toNat * (2 ^ 60) ^ 4 + (r.get 5).word.toNat * (2 ^ 60) ^ 5
      + (r.get 6).word.toNat * (2 ^ 60) ^ 6 + (r.get 7).word.toNat * (2 ^ 60) ^ 7
      + (r.get 8).word.toNat * (2 ^ 60) ^ 8 := by
  refine Eq.trans ?_ (sum_digitIdx (fun j => (r.get j).word.toNat) (2 ^ 60))
  unfold regVal
  exact congrArg List.sum (List.map_congr_left fun j _ => by rw [Nat.pow_mul, Nat.mul_comm])

/-- A sum over the nine digit indexes. -/
theorem sum_fin_nine (f : Fin 9 → Nat) : ∑ j, f j = (digitIdx.map f).sum := by
  rw [← List.sum_ofFn]
  rfl

/-- The value of a register as the sum of R17. -/
theorem regVal_eq_sum (r : FieldReg) :
    regVal r = ∑ j : Fin 9, (r.get j).word.toNat * 2 ^ (60 * j.val) := by
  rw [sum_fin_nine]
  unfold regVal
  exact congrArg List.sum (List.map_congr_left fun j _ => Nat.mul_comm _ _)

/-- One more digit on top of a bounded value. -/
theorem digit_add_lt {B a x n : Nat} (ha : a < B) (hx : x < n) : a + B * x < B * n :=
  calc a + B * x < B + B * x := by omega
    _ = B * (x + 1) := by ring
    _ ≤ B * n := Nat.mul_le_mul_left B hx

/-- A canonical register holds a value below `2^540` (R18). -/
theorem regVal_lt (r : FieldReg) (h : ∀ j : Fin 9, (r.get j).word.toNat < 2 ^ 60) :
    regVal r < radix := by
  rw [regVal_eq, radix]
  generalize 2 ^ 60 = B at *
  have hB := digit_add_lt (h 0) (digit_add_lt (h 1) (digit_add_lt (h 2) (digit_add_lt (h 3)
    (digit_add_lt (h 4) (digit_add_lt (h 5) (digit_add_lt (h 6) (digit_add_lt (h 7) (h 8))))))))
  refine lt_of_eq_of_lt ?_ (lt_of_lt_of_eq hB ?_) <;> ring

/-- A number below `B^9` is the sum of its nine digits in base `B`. -/
theorem digits_sum {B v q1 q2 q3 q4 q5 q6 q7 q8 : Nat} (h1 : v / B = q1) (h2 : q1 / B = q2)
    (h3 : q2 / B = q3) (h4 : q3 / B = q4) (h5 : q4 / B = q5) (h6 : q5 / B = q6)
    (h7 : q6 / B = q7) (h8 : q7 / B = q8) (h9 : q8 / B = 0) :
    v % B + q1 % B * B + q2 % B * B ^ 2 + q3 % B * B ^ 3 + q4 % B * B ^ 4 + q5 % B * B ^ 5
      + q6 % B * B ^ 6 + q7 % B * B ^ 7 + q8 % B * B ^ 8 = v := by
  have e (x : Nat) := Nat.mod_add_div x B
  have a0 := e v; have a1 := e q1; have a2 := e q2; have a3 := e q3; have a4 := e q4
  have a5 := e q5; have a6 := e q6; have a7 := e q7; have a8 := e q8
  rw [h1] at a0; rw [h2] at a1; rw [h3] at a2; rw [h4] at a3; rw [h5] at a4; rw [h6] at a5
  rw [h7] at a6; rw [h8] at a7; rw [h9] at a8
  generalize v % B = r0 at *
  generalize q1 % B = r1 at *
  generalize q2 % B = r2 at *
  generalize q3 % B = r3 at *
  generalize q4 % B = r4 at *
  generalize q5 % B = r5 at *
  generalize q6 % B = r6 at *
  generalize q7 % B = r7 at *
  generalize q8 % B = r8 at *
  subst a8; subst a7; subst a6; subst a5; subst a4; subst a3; subst a2; subst a1; subst a0
  ring

/-- `F[i] <- v` makes `F[i]` hold `v` (R17, R18). -/
theorem regVal_regOf (v : Nat) (h : v < radix) : regVal (regOf v) = v := by
  rw [regVal_eq]
  simp only [regOf_get, slotOf, digit_toNat, Nat.pow_mul]
  rw [radix] at h
  generalize 2 ^ 60 = B at *
  have d (n : Nat) : v / B ^ n / B = v / B ^ (n + 1) := by
    rw [Nat.div_div_eq_div_mul, Nat.pow_succ]
  have h9 : v / B ^ 8 / B = 0 := by rw [d 8]; exact Nat.div_eq_of_lt h
  have := digits_sum (d 0) (d 1) (d 2) (d 3) (d 4) (d 5) (d 6) (d 7) h9
  simpa using this

theorem regOf_written (v : Nat) (j : Fin 9) : ((regOf v).get j).written = true := by
  rw [regOf_get]; rfl

theorem regOf_canon (v : Nat) (j : Fin 9) : ((regOf v).get j).word.toNat < 2 ^ 60 := by
  rw [regOf_get]
  simp only [slotOf, digit_toNat]
  exact Nat.mod_lt _ (by decide)

/-- A register with the contents `regOf v` holds `v`. -/
theorem holds_of_reg {s : State} {i : FReg} {v : Nat} (h : s.reg i = regOf v) (hv : v < radix) :
    s.Holds i v := by
  simp only [State.Holds, Snapshot.Canonical, Snapshot.Written, Snapshot.val, snapshot_get, h]
  exact ⟨⟨regOf_written v, regOf_canon v⟩, regVal_regOf v hv⟩

end Sys2Proof.Machine
end

