-- ==== Sys2Proof/Laws/Contracts.lean ====
section
/-! SUPPORT. The operand contracts say what spec/00_scope.md R23 says, and what a command from its
operands to its completion can do (spec/30_encoding.md R94, R95, spec/60_exceptions.md R151). -/

namespace Sys2Proof.Machine

/-! ### The `need_*` checks -/

theorem rawFault_eq_none (v : Snapshot) (i : FReg) : rawFault v i = none ↔ v.Written i := by
  simp only [rawFault, Snapshot.Written, ← regWritten_iff]
  split <;> simp_all

theorem canonFault_eq_none (v : Snapshot) (i : FReg) : canonFault v i = none ↔ v.Canonical i := by
  simp only [Snapshot.Canonical, ← regCanon_iff, ← rawFault_eq_none, canonFault]
  split
  · simp [*]
  · split <;> simp [*]

theorem fieldFaultOf_eq_none (c : Cfg) (v : Snapshot) (i : FReg) :
    fieldFaultOf c v i = none ↔ v.Reduced c i := by
  simp only [Snapshot.Reduced, ← canonFault_eq_none, fieldFaultOf]
  split
  · simp [*]
  · split <;> simp [*]

theorem pointFault_eq_none (c : Cfg) (v : Snapshot) (k : PReg) :
    pointFault c v k = none ↔ v.OnCurve c k := by
  simp only [Snapshot.OnCurve, ← fieldFaultOf_eq_none, pointFault]
  split
  · simp [*]
  · split
    · simp [*]
    · split <;> simp [*]

@[simp] theorem contractFault_nil (c : Cfg) (v : Snapshot) : contractFault c v [] = none := rfl

theorem contractFault_cons (c : Cfg) (v : Snapshot) (n : Need) (ns : List Need) :
    contractFault c v (n :: ns) = none ↔ needFault c v n = none ∧ contractFault c v ns = none := by
  simp only [contractFault]
  split <;> simp [*]

/-- A contract is met (R23). -/
def Need.Met (c : Cfg) (v : Snapshot) : Need → Prop
  | .raw i => v.Written i
  | .canon i => v.Canonical i
  | .field i => v.Reduced c i
  | .point k => v.OnCurve c k

theorem needFault_eq_none (c : Cfg) (v : Snapshot) (n : Need) :
    needFault c v n = none ↔ n.Met c v := by
  cases n with
  | raw i => exact rawFault_eq_none v i
  | canon i => exact canonFault_eq_none v i
  | field i => exact fieldFaultOf_eq_none c v i
  | point k => exact pointFault_eq_none c v k

/-- The contract of a command with one check. -/
theorem contract_one {c : Cfg} {v : Snapshot} {n : Need} (h : n.Met c v) :
    contractFault c v [n] = none := by
  rw [contractFault_cons, needFault_eq_none]
  exact ⟨h, rfl⟩

/-- The contract of a command with two checks. -/
theorem contract_two {c : Cfg} {v : Snapshot} {n m : Need} (h : n.Met c v) (k : m.Met c v) :
    contractFault c v [n, m] = none := by
  rw [contractFault_cons, needFault_eq_none]
  exact ⟨h, contract_one k⟩

/-- UNINIT is what the first unwritten operand raises (R23, R151). -/
theorem rawFault_of_unwritten {v : Snapshot} {i : FReg} (h : ¬ v.Written i) :
    rawFault v i = some .uninit := by
  rw [← rawFault_eq_none] at h
  simp only [rawFault] at *
  split at h <;> simp_all

/-! ### `perform` -/

variable {i : Instr} {s t : State} {effect : Snapshot → State}

theorem perform_of_contract (h : contractFault s.cfg (operands s) (needs i) = none) :
    perform i s effect = .next (effect (operands s)) := by
  simp [perform, h]

theorem perform_of_fault {k : ModelFault}
    (h : contractFault s.cfg (operands s) (needs i) = some k) :
    perform i s effect = .next ((s.recordFault (some k)).completeUnspecified i) := by
  simp [perform, h]

/-- Everything `perform` can answer. -/
theorem perform_cases (h : perform i s effect = .next t) :
    (contractFault s.cfg (operands s) (needs i) = none ∧ t = effect (operands s)) ∨
      ∃ k, contractFault s.cfg (operands s) (needs i) = some k ∧
        t = (s.recordFault (some k)).completeUnspecified i := by
  simp only [perform] at h
  split at h <;> rename_i hc <;> injection h with h
  · exact .inl ⟨hc, h.symm⟩
  · exact .inr ⟨_, hc, h.symm⟩

/-- `perform` always answers a next state. -/
theorem perform_next (i : Instr) (s : State) (effect : Snapshot → State) :
    ∃ t, perform i s effect = .next t := by
  simp only [perform]
  split <;> exact ⟨_, rfl⟩

/-- Recording a model fault twice is recording it once. -/
@[simp] theorem record_record (f : ModelFaults) (k : ModelFault) :
    (f.record k).record k = f.record k := by
  cases k <;> rfl

/-! ### Unspecified results -/

theorem setFree_fields (raw : Bool) (draw : Nat) (is : List FReg) :
    ∀ (n : Nat) (s : State), setFree raw draw n is s = { s with regs := (setFree raw draw n is s).regs } := by
  induction is with
  | nil => intro n s; rfl
  | cons i is ih =>
    intro n s
    rw [setFree, ih]
    rfl

theorem setFree_reg_of_not_mem (raw : Bool) (draw : Nat) {i : FReg} (is : List FReg)
    (h : i ∉ is) : ∀ (n : Nat) (s : State), (setFree raw draw n is s).reg i = s.reg i := by
  induction is with
  | nil => intro n s; rfl
  | cons j is ih =>
    simp only [List.mem_cons, not_or] at h
    intro n s
    rw [setFree, ih h.2, reg_setReg_of_ne _ _ h.1]

/-- What a list of destinations holds after the free draw: register `m` of the list has the places from
`9 * (n + m)`. -/
theorem setFree_reg_of_mem (raw : Bool) (draw : Nat) (is : List FReg) (hd : is.Nodup) :
    ∀ (n : Nat) (s : State) (m : Nat) (h : m < is.length),
      (setFree raw draw n is s).reg is[m] = freeReg raw draw (n + m) := by
  induction is with
  | nil =>
    intro n s m h
    cases h
  | cons i is ih =>
    intro n s m h
    rw [List.nodup_cons] at hd
    cases m with
    | zero =>
      simp only [List.getElem_cons_zero, setFree]
      rw [setFree_reg_of_not_mem raw draw is hd.1]
      exact reg_setReg_self s i _
    | succ m =>
      simp only [List.getElem_cons_succ, setFree]
      rw [ih hd.2, Nat.add_assoc, Nat.add_comm 1 m]

/-- The two coordinate registers of a point register differ. -/
theorem dests_nodup (i : Instr) : (dests i).Nodup := by
  cases i <;> simp [dests]

@[simp] theorem completeUnspecified_flags (s : State) (i : Instr) :
    (s.completeUnspecified i).flags = freeFlags (unspecifiedFlags i) s.draws s.flags := rfl
@[simp] theorem completeUnspecified_draws (s : State) (i : Instr) :
    (s.completeUnspecified i).draws = s.draws + 1 := rfl
@[simp] theorem completeUnspecified_err (s : State) (i : Instr) :
    (s.completeUnspecified i).status.err = codeOfWord (Config.freeWord s.draws 23) := rfl
@[simp] theorem completeUnspecified_done (s : State) (i : Instr) :
    (s.completeUnspecified i).status.done = true := rfl
@[simp] theorem completeUnspecified_inflight (s : State) (i : Instr) :
    (s.completeUnspecified i).inflight = none := rfl
@[simp] theorem completeUnspecified_faults (s : State) (i : Instr) :
    (s.completeUnspecified i).faults = s.faults := by
  simp only [State.completeUnspecified]
  rw [setFree_fields]
  rfl

/-- Each destination register of an unspecified completion holds its part of the free draw (R151). -/
theorem reg_completeUnspecified (s : State) (i : Instr) (m : Nat) (h : m < (dests i).length) :
    (s.completeUnspecified i).reg (dests i)[m] = freeReg (copiesRaw i) s.draws m := by
  have r := setFree_reg_of_mem (copiesRaw i) s.draws (dests i) (dests_nodup i) 0 s m h
  rw [Nat.zero_add] at r
  exact r

/-- The frame of a command whose results are unspecified (R116, R133, R151). -/
theorem frame_completeUnspecified (s : State) (i : Instr) :
    Frame (dests i) (unspecifiedFlags i) s (s.completeUnspecified i) := by
  have hf := setFree_fields (copiesRaw i) s.draws (dests i) 0 s
  have hr := fun j hj => setFree_reg_of_not_mem (i := j) (copiesRaw i) s.draws (dests i) hj 0 s
  constructor
  · exact hr
  all_goals first
    | (intro h; simp [State.completeUnspecified, freeFlags, h])
    | (simp only [State.completeUnspecified]; rw [hf]; rfl)

end Sys2Proof.Machine
end

