-- ==== Sys2Proof/Laws/ClaimTables.lean ====
section
/-! SUPPORT. The rules as the statements write them out by command agree with the model's checks,
destinations and flags (spec/00_scope.md R23, spec/10_state.md R36 to R41,
spec/60_exceptions.md R151, spec/70_reset_and_hazards.md R169). -/

namespace Sys2Proof.Machine

/-! ### The first check that fails -/

theorem rawFault_eq_some (v : Snapshot) (i : FReg) (k : ModelFault) :
    rawFault v i = some k ↔ Claims.RawFails v i k := by
  have h := rawFault_eq_none v i
  simp only [Claims.RawFails]
  by_cases hw : v.Written i
  · simp [h.mpr hw, hw]
  · simp [rawFault_of_unwritten hw, hw, eq_comm]

theorem canonFault_eq_some (v : Snapshot) (i : FReg) (k : ModelFault) :
    canonFault v i = some k ↔ Claims.CanonFails v i k := by
  simp only [Claims.CanonFails, ← rawFault_eq_some]
  rw [← rawFault_eq_none, ← canonFault_eq_none]
  simp only [canonFault]
  cases rawFault v i with
  | some x => simp
  | none => cases regCanon (v.regs.get i) <;> simp [eq_comm]

theorem fieldFaultOf_eq_some (c : Cfg) (v : Snapshot) (i : FReg) (k : ModelFault) :
    fieldFaultOf c v i = some k ↔ Claims.FieldFails c v i k := by
  simp only [Claims.FieldFails, ← canonFault_eq_some]
  rw [← canonFault_eq_none]
  simp only [fieldFaultOf]
  cases canonFault v i with
  | some x => simp
  | none => by_cases hp : v.val i < c.p <;> simp [hp, Nat.not_le.mpr, Nat.not_lt.mp, eq_comm]

theorem pointFault_eq_some (c : Cfg) (v : Snapshot) (a : PReg) (k : ModelFault) :
    pointFault c v a = some k ↔ Claims.PointFails c v a k := by
  simp only [Claims.PointFails, ← fieldFaultOf_eq_some, ← fieldFaultOf_eq_none, pointFault]
  cases fieldFaultOf c v (xReg a) <;> cases fieldFaultOf c v (yReg a) <;>
    cases c.onCurve (v.pt c a) <;> simp [eq_comm]

theorem contractFault_one_eq_some (c : Cfg) (v : Snapshot) (n : Need) (k : ModelFault) :
    contractFault c v [n] = some k ↔ needFault c v n = some k := by
  simp only [contractFault]
  cases needFault c v n <;> simp

theorem contractFault_two_eq_some (c : Cfg) (v : Snapshot) (n m : Need) (k : ModelFault) :
    contractFault c v [n, m] = some k ↔
      needFault c v n = some k ∨ (n.Met c v ∧ needFault c v m = some k) := by
  rw [← needFault_eq_none]
  simp only [contractFault]
  cases needFault c v n <;> cases needFault c v m <;> simp

/-- The model fault of a command is that of its rule's first failing check. -/
theorem contractFault_eq_some (c : Cfg) (v : Snapshot) (i : Instr) (k : ModelFault) :
    contractFault c v (needs i) = some k ↔ Claims.ContractFails c v i k := by
  cases i <;> simp only [needs, Claims.ContractFails, contractFault_nil, contractFault_one_eq_some,
    contractFault_two_eq_some, needFault, Need.Met, rawFault_eq_some, canonFault_eq_some,
    fieldFaultOf_eq_some, pointFault_eq_some, reduceCtorEq]

/-- No model fault is raised exactly when the operand contract holds. -/
theorem contractFault_eq_none (c : Cfg) (v : Snapshot) (i : Instr) :
    contractFault c v (needs i) = none ↔ Claims.ContractHolds c v i := by
  cases i <;>
    simp [needs, Claims.ContractHolds, contractFault_cons, needFault_eq_none, Need.Met]

/-! ### Destinations and flags -/

theorem mem_dests (i : Instr) (f : FReg) : f ∈ dests i ↔ Claims.IsDestination i f := by
  cases i <;> simp [dests, Claims.IsDestination, xReg, yReg, Fin.ext_iff]

theorem flagsWritten_eq (i : Instr) : flagsWritten i = Claims.flagsNamed i := by
  cases i <;> rfl

/-- A command that has a contract leaves these flags open when it fails. -/
theorem unspecifiedFlags_eq (i : Instr) (h : needs i ≠ []) :
    unspecifiedFlags i = Claims.flagsLeftOpen i := by
  cases i <;> first | rfl | exact absurd rfl h

end Sys2Proof.Machine
end

