-- ==== Sys2Proof/Laws/Frames.lean ====
section
/-! SUPPORT. The frame of a command, built one write at a time (spec/10_state.md R41,
spec/30_encoding.md R95). -/

namespace Sys2Proof.Machine

variable {ds : List FReg} {w : FlagSet} {s u : State}

/-- Nothing written yet. -/
theorem Frame.refl (ds : List FReg) (w : FlagSet) (s : State) : Frame ds w s s := by
  constructor <;> intros <;> rfl

theorem Frame.setReg (h : Frame ds w s u) {i : FReg} (hi : i ∈ ds) (r : FieldReg) :
    Frame ds w s (u.setReg i r) := by
  refine ⟨fun j hj => ?_, h.flagC, h.flagB, h.flagT, h.flagP, h.flagCmp, h.illegal, h.ovr, h.irqEn,
    h.lastCmd, h.cfg, h.basePage, h.inbox, h.replies⟩
  have hne : j ≠ i := by
    rintro rfl
    exact hj hi
  rw [reg_setReg_of_ne u r hne]
  exact h.regs j hj

theorem Frame.setVal (h : Frame ds w s u) {i : FReg} (hi : i ∈ ds) (v : Nat) :
    Frame ds w s (u.setVal i v) := h.setReg hi _

theorem Frame.setPoint (h : Frame ds w s u) {k : PReg} (hx : xReg k ∈ ds) (hy : yReg k ∈ ds)
    (P : Point) : Frame ds w s (u.setPoint k P) := (h.setVal hx _).setVal hy _

theorem Frame.setC (h : Frame ds w s u) (hw : w.c = true) (v : Bool) : Frame ds w s (u.setC v) :=
  ⟨h.regs, fun e => by simp [hw] at e, h.flagB, h.flagT, h.flagP, h.flagCmp, h.illegal, h.ovr,
    h.irqEn, h.lastCmd, h.cfg, h.basePage, h.inbox, h.replies⟩

theorem Frame.setB (h : Frame ds w s u) (hw : w.b = true) (v : Bool) : Frame ds w s (u.setB v) :=
  ⟨h.regs, h.flagC, fun e => by simp [hw] at e, h.flagT, h.flagP, h.flagCmp, h.illegal, h.ovr,
    h.irqEn, h.lastCmd, h.cfg, h.basePage, h.inbox, h.replies⟩

theorem Frame.setT (h : Frame ds w s u) (hw : w.t = true) (v : Bool) : Frame ds w s (u.setT v) :=
  ⟨h.regs, h.flagC, h.flagB, fun e => by simp [hw] at e, h.flagP, h.flagCmp, h.illegal, h.ovr,
    h.irqEn, h.lastCmd, h.cfg, h.basePage, h.inbox, h.replies⟩

theorem Frame.setP (h : Frame ds w s u) (hw : w.p = true) (v : Bool) : Frame ds w s (u.setP v) :=
  ⟨h.regs, h.flagC, h.flagB, h.flagT, fun e => by simp [hw] at e, h.flagCmp, h.illegal, h.ovr,
    h.irqEn, h.lastCmd, h.cfg, h.basePage, h.inbox, h.replies⟩

theorem Frame.setCmp (h : Frame ds w s u) (hw : w.cmp = true) (v : Cmp) :
    Frame ds w s (u.setCmp v) :=
  ⟨h.regs, h.flagC, h.flagB, h.flagT, h.flagP, fun e => by simp [hw] at e, h.illegal, h.ovr,
    h.irqEn, h.lastCmd, h.cfg, h.basePage, h.inbox, h.replies⟩

/-- `complete(e)` on top of the command's writes (R95). -/
theorem Frame.completed (h : Frame ds w s u) (hf : u.faults = s.faults) (hd : u.draws = s.draws)
    (e : ResultCode) : Completed ds w e s (u.complete e) :=
  ⟨⟨h.regs, h.flagC, h.flagB, h.flagT, h.flagP, h.flagCmp, h.illegal, h.ovr, h.irqEn, h.lastCmd,
    h.cfg, h.basePage, h.inbox, h.replies⟩, rfl, rfl, rfl, hf, hd⟩

/-- One frame after another: what neither changes. -/
theorem Frame.trans {t : State} (h : Frame ds w s t) (k : Frame ds w t u) : Frame ds w s u :=
  ⟨fun i hi => (k.regs i hi).trans (h.regs i hi), fun e => (k.flagC e).trans (h.flagC e),
    fun e => (k.flagB e).trans (h.flagB e), fun e => (k.flagT e).trans (h.flagT e),
    fun e => (k.flagP e).trans (h.flagP e), fun e => (k.flagCmp e).trans (h.flagCmp e),
    k.illegal.trans h.illegal, k.ovr.trans h.ovr, k.irqEn.trans h.irqEn,
    k.lastCmd.trans h.lastCmd, k.cfg.trans h.cfg, k.basePage.trans h.basePage,
    k.inbox.trans h.inbox, k.replies.trans h.replies⟩

end Sys2Proof.Machine
end

