-- ==== Sys2Proof/Laws/Meanings.lean ====
section
/-! SUPPORT. What each command answers when its operand contract holds (R23, R95): one lemma a
command, cited in place of its definition. -/

namespace Sys2Proof.Machine

variable {s : State}

/-- NOP (R104). -/
theorem exec_nop : exec .nop s = .next (s.complete .ok) := rfl

/-- LDK (R106). -/
theorem exec_ldk {rd : FReg} {k : Imm} (h : k.toNat ≤ 9) :
    exec (.ldk rd k) s = .next ((s.setVal rd (constK s.cfg k.toNat)).complete .ok) := by
  simp only [exec, execLdk, h, if_true]
  exact perform_of_contract rfl

/-- An LDK with an index above 9 is an illegal word's completion (R91 (e), R92). -/
theorem exec_ldk_illegal {rd : FReg} {k : Imm} (h : 9 < k.toNat) :
    exec (.ldk rd k) s = .next s.illegalCompletion := by
  simp only [exec, execLdk, Nat.not_le.mpr h, if_false]

/-- MOV (R105). -/
theorem exec_mov {rd a : FReg} (h0 : (operands s).Written a) :
    exec (.mov rd a) s = .next ((s.setReg rd ((operands s).regs.get a)).complete .ok) := by
  change execMov rd a s = _
  unfold execMov
  exact perform_of_contract (contract_one h0)

/-- CSEL (R107). -/
theorem exec_csel {rd a b : FReg} (h0 : (operands s).Written a) (h1 : (operands s).Written b) :
    exec (.csel rd a b) s = .next ((s.setReg rd (if (operands s).t then (operands s).regs.get
      a else (operands s).regs.get b)).complete .ok) := by
  change execCsel rd a b s = _
  unfold execCsel
  exact perform_of_contract (contract_two h0 h1)

/-- DADD (R108). -/
theorem exec_dadd {rd a b : FReg} (h0 : (operands s).Canonical a) (h1 : (operands s).Canonical b) :
    exec (.dadd rd a b) s = .next (((s.setVal rd (((operands s).val a + (operands s).val b) %
      radix)).setC (carryOut ((operands s).val a) ((operands s).val b))).complete .ok) := by
  change execDadd rd a b s = _
  unfold execDadd
  exact perform_of_contract (contract_two h0 h1)

/-- DSUB (R109). -/
theorem exec_dsub {rd a b : FReg} (h0 : (operands s).Canonical a) (h1 : (operands s).Canonical b) :
    exec (.dsub rd a b) s = .next (((s.setVal rd (subMod radix ((operands s).val a) ((operands
      s).val b))).setB (borrowOut ((operands s).val a) ((operands s).val b))).complete .ok) := by
  change execDsub rd a b s = _
  unfold execDsub
  exact perform_of_contract (contract_two h0 h1)

/-- DCMP (R110). -/
theorem exec_dcmp {a b : FReg} (h0 : (operands s).Canonical a) (h1 : (operands s).Canonical b) :
    exec (.dcmp a b) s = .next ((s.setCmp (compare ((operands s).val a) ((operands s).val
      b))).complete .ok) := by
  change execDcmp a b s = _
  unfold execDcmp
  exact perform_of_contract (contract_two h0 h1)

/-- DISZ (R111). -/
theorem exec_disz {a : FReg} (h0 : (operands s).Canonical a) :
    exec (.disz a) s = .next ((s.setT ((operands s).val a == 0)).complete .ok) := by
  change execDisz a s = _
  unfold execDisz
  exact perform_of_contract (contract_one h0)

/-- DSHL (R112). -/
theorem exec_dshl {rd a : FReg} {n : Imm} (h0 : (operands s).Canonical a) :
    exec (.dshl rd a n) s = .next (((s.setVal rd ((operands s).val a * 2 ^ n.toNat %
      radix)).setC (shlLost ((operands s).val a) n.toNat)).complete .ok) := by
  change execDshl rd a n s = _
  unfold execDshl
  exact perform_of_contract (contract_one h0)

/-- DSHR (R113). -/
theorem exec_dshr {rd a : FReg} {n : Imm} (h0 : (operands s).Canonical a) :
    exec (.dshr rd a n) s = .next (((s.setVal rd ((operands s).val a / 2 ^ n.toNat)).setC
      (shrLost ((operands s).val a) n.toNat)).complete .ok) := by
  change execDshr rd a n s = _
  unfold execDshr
  exact perform_of_contract (contract_one h0)

/-- DNORM (R114). -/
theorem exec_dnorm {rd a : FReg} (h0 : (operands s).Written a) :
    exec (.dnorm rd a) s = .next (((s.setVal rd ((operands s).val a % radix)).setC (normLost
      ((operands s).val a))).complete .ok) := by
  change execDnorm rd a s = _
  unfold execDnorm
  exact perform_of_contract (contract_one h0)

/-- FADD (R119). -/
theorem exec_fadd {rd a b : FReg} (h0 : (operands s).Reduced s.cfg a) (h1 : (operands s).Reduced
    s.cfg b) :
    exec (.fadd rd a b) s = .next ((s.setVal rd (((operands s).val a + (operands s).val b) %
      s.cfg.p)).complete .ok) := by
  change execFadd rd a b s = _
  unfold execFadd
  exact perform_of_contract (contract_two h0 h1)

/-- FSUB (R120). -/
theorem exec_fsub {rd a b : FReg} (h0 : (operands s).Reduced s.cfg a) (h1 : (operands s).Reduced
    s.cfg b) :
    exec (.fsub rd a b) s = .next ((s.setVal rd (subMod s.cfg.p ((operands s).val a)
      ((operands s).val b))).complete .ok) := by
  change execFsub rd a b s = _
  unfold execFsub
  exact perform_of_contract (contract_two h0 h1)

/-- FNEG (R121). -/
theorem exec_fneg {rd a : FReg} (h0 : (operands s).Reduced s.cfg a) :
    exec (.fneg rd a) s = .next ((s.setVal rd ((s.cfg.p - (operands s).val a) %
      s.cfg.p)).complete .ok) := by
  change execFneg rd a s = _
  unfold execFneg
  exact perform_of_contract (contract_one h0)

/-- MMUL (R122). -/
theorem exec_mmul {rd a b : FReg} (h0 : (operands s).Reduced s.cfg a) (h1 : (operands s).Reduced
    s.cfg b) :
    exec (.mmul rd a b) s = .next ((s.setVal rd (s.cfg.montMul ((operands s).val a) ((operands
      s).val b))).complete .ok) := by
  change execMmul rd a b s = _
  unfold execMmul
  exact perform_of_contract (contract_two h0 h1)

/-- MSQR (R123). -/
theorem exec_msqr {rd a : FReg} (h0 : (operands s).Reduced s.cfg a) :
    exec (.msqr rd a) s = .next ((s.setVal rd (s.cfg.montMul ((operands s).val a) ((operands
      s).val a))).complete .ok) := by
  change execMsqr rd a s = _
  unfold execMsqr
  exact perform_of_contract (contract_one h0)

/-- TOM (R124). -/
theorem exec_tom {rd a : FReg} (h0 : (operands s).Reduced s.cfg a) :
    exec (.tom rd a) s = .next ((s.setVal rd (s.cfg.montMul ((operands s).val a)
      s.cfg.r2)).complete .ok) := by
  change execTom rd a s = _
  unfold execTom
  exact perform_of_contract (contract_one h0)

/-- FROMM (R125). -/
theorem exec_fromm {rd a : FReg} (h0 : (operands s).Reduced s.cfg a) :
    exec (.fromm rd a) s = .next ((s.setVal rd (s.cfg.montMul ((operands s).val a)
      1)).complete .ok) := by
  change execFromm rd a s = _
  unfold execFromm
  exact perform_of_contract (contract_one h0)

/-- FINV (R126). -/
theorem exec_finv {rd a : FReg} (h0 : (operands s).Reduced s.cfg a) :
    exec (.finv rd a) s = .next (if s.cfg.unmont ((operands s).val a) = 0 then ((s.setVal rd
      0).setT false).complete .zeroInverse else ((s.setVal rd (s.cfg.mont (s.cfg.inv
      (s.cfg.unmont ((operands s).val a))))).setT true).complete .ok) := by
  change execFinv rd a s = _
  unfold execFinv
  exact perform_of_contract (contract_one h0)

/-- FSQRT (R128). -/
theorem exec_fsqrt {rd a : FReg} (h0 : (operands s).Reduced s.cfg a) :
    exec (.fsqrt rd a) s = .next (if s.cfg.rootOf (s.cfg.unmont ((operands s).val a)) *
      s.cfg.rootOf (s.cfg.unmont ((operands s).val a)) % s.cfg.p = s.cfg.unmont ((operands
      s).val a) then ((s.setVal rd (s.cfg.mont (s.cfg.rootOf (s.cfg.unmont ((operands s).val
      a))))).setT true).complete .ok else ((s.setVal rd 0).setT false).complete .noSquareRoot) := by
  change execFsqrt rd a s = _
  unfold execFsqrt
  exact perform_of_contract (contract_one h0)

/-- FEQ (R129). -/
theorem exec_feq {a b : FReg} (h0 : (operands s).Canonical a) (h1 : (operands s).Canonical b) :
    exec (.feq a b) s = .next ((s.setT ((operands s).val a == (operands s).val b)).complete
      .ok) := by
  change execFeq a b s = _
  unfold execFeq
  exact perform_of_contract (contract_two h0 h1)

/-- FPAR (R130). -/
theorem exec_fpar {a : FReg} (h0 : (operands s).Reduced s.cfg a) :
    exec (.fpar a) s = .next ((s.setP (par (s.cfg.unmont ((operands s).val a)))).complete .ok) := by
  change execFpar a s = _
  unfold execFpar
  exact perform_of_contract (contract_one h0)

/-- FCHK (R131). -/
theorem exec_fchk {a : FReg} (h0 : (operands s).Canonical a) :
    exec (.fchk a) s = .next (if (operands s).val a < s.cfg.p then (s.setT true).complete .ok
      else (s.setT false).complete .invalidEncoding) := by
  change execFchk a s = _
  unfold execFchk
  exact perform_of_contract (contract_one h0)

/-- PADD (R136). -/
theorem exec_padd {pd a b : PReg} (h0 : (operands s).OnCurve s.cfg a) (h1 : (operands s).OnCurve
    s.cfg b) :
    exec (.padd pd a b) s = .next ((s.setPoint pd (s.cfg.add ((operands s).pt s.cfg a)
      ((operands s).pt s.cfg b))).complete .ok) := by
  change execPadd pd a b s = _
  unfold execPadd
  exact perform_of_contract (contract_two h0 h1)

/-- PDBL (R137). -/
theorem exec_pdbl {pd a : PReg} (h0 : (operands s).OnCurve s.cfg a) :
    exec (.pdbl pd a) s = .next ((s.setPoint pd (s.cfg.add ((operands s).pt s.cfg a)
      ((operands s).pt s.cfg a))).complete .ok) := by
  change execPdbl pd a s = _
  unfold execPdbl
  exact perform_of_contract (contract_one h0)

/-- PNEG (R138). -/
theorem exec_pneg {pd a : PReg} (h0 : (operands s).Reduced s.cfg (xReg a)) (h1 : (operands
    s).Reduced s.cfg (yReg a)) :
    exec (.pneg pd a) s = .next (((s.setVal (xReg pd) ((s.cfg.p - (operands s).val (xReg a)) %
      s.cfg.p)).setVal (yReg pd) ((operands s).val (yReg a))).complete .ok) := by
  change execPneg pd a s = _
  unfold execPneg
  exact perform_of_contract (contract_two h0 h1)

/-- PMUL (R139). -/
theorem exec_pmul {k : FReg} {pd a : PReg} (h0 : (operands s).OnCurve s.cfg a) (h1 : (operands
    s).Canonical k) :
    exec (.pmul pd a k) s = .next ((s.setPoint pd (s.cfg.mul ((operands s).val k % s.cfg.q)
      ((operands s).pt s.cfg a))).complete .ok) := by
  change execPmul pd a k s = _
  unfold execPmul
  exact perform_of_contract (contract_two h0 h1)

/-- PCOF (R141). -/
theorem exec_pcof {pd a : PReg} (h0 : (operands s).OnCurve s.cfg a) :
    exec (.pcof pd a) s = .next ((s.setPoint pd (s.cfg.mul s.cfg.cof ((operands s).pt s.cfg
      a))).complete .ok) := by
  change execPcof pd a s = _
  unfold execPcof
  exact perform_of_contract (contract_one h0)

/-- PONC (R142). -/
theorem exec_ponc {a : PReg} (h0 : (operands s).Canonical (xReg a)) (h1 : (operands s).Canonical
    (yReg a)) :
    exec (.ponc a) s = .next (s.report (poncCode s.cfg (operands s) a)) := by
  change execPonc a s = _
  unfold execPonc
  exact perform_of_contract (contract_two h0 h1)

/-- PVAL (R143). -/
theorem exec_pval {a : PReg} (h0 : (operands s).Canonical (xReg a)) (h1 : (operands s).Canonical
    (yReg a)) :
    exec (.pval a) s = .next (s.report (pvalCode s.cfg (operands s) a)) := by
  change execPval a s = _
  unfold execPval
  exact perform_of_contract (contract_two h0 h1)

/-- PDEC (R145). -/
theorem exec_pdec {a : FReg} {pd : PReg} {sign : Bool} (h0 : (operands s).Canonical a) :
    exec (.pdec pd a sign) s =
      .next (match decompress s.cfg ((operands s).val a) sign with
        | some P => ((s.setPoint pd P).setT true).complete .ok
        | none =>
          (((s.setVal (xReg pd) 0).setVal (yReg pd) 0).setT false).complete .invalidEncoding) := by
  change execPdec pd a sign s = _
  unfold execPdec
  exact perform_of_contract (contract_one h0)

/-- PENC (R146). -/
theorem exec_penc {rd : FReg} {a : PReg} (h0 : (operands s).Reduced s.cfg (xReg a)) (h1 :
    (operands s).Reduced s.cfg (yReg a)) :
    exec (.penc rd a) s = .next (((s.setVal rd (s.cfg.unmont ((operands s).val (xReg
      a)))).setP (par (s.cfg.unmont ((operands s).val (yReg a))))).complete .ok) := by
  change execPenc rd a s = _
  unfold execPenc
  exact perform_of_contract (contract_two h0 h1)

end Sys2Proof.Machine
end

