-- ==== Sys2Proof/Laws/Completion.lean ====
section
/-! SUPPORT. What every command can do, said once: a well-formed command is `perform` of an effect
that completes, changes only its own destinations and flags, records no model fault and takes no
free value (R41, R95). -/

set_option Elab.async false

namespace Sys2Proof.Machine

/-- A state that a command's effect leaves in contract: its frame and its completion (R95). -/
structure Finished (i : Instr) (s t : State) : Prop where
  frame : Frame (dests i) (flagsWritten i) s t
  done : t.status.done = true
  idle : t.inflight = none
  faults : t.faults = s.faults
  draws : t.draws = s.draws

variable {i : Instr} {s u : State}

/-- A state changed within the frame of a command, then completed. -/
theorem Finished.of_frame {e : ResultCode} (h : Frame (dests i) (flagsWritten i) s u)
    (hf : u.faults = s.faults := by rfl) (hd : u.draws = s.draws := by rfl) :
    Finished i s (u.complete e) :=
  have c := h.completed hf hd e
  ⟨c.frame, c.done, rfl, c.faults, c.draws⟩

/-- `perform` of an effect that finishes. -/
theorem of_perform {i : Instr} {s : State} {effect : Snapshot → State}
    {o : Host.Outcome State Fault Refusal} (h : o = perform i s effect)
    (hf : ∀ v, Finished i s (effect v)) :
    ∃ effect, o = perform i s effect ∧ ∀ v, Finished i s (effect v) := ⟨effect, h, hf⟩

/-- Every well-formed command is `perform` of a finishing effect. -/
theorem exec_perform (s : State) (h : i.wellFormed = true) :
    ∃ effect, exec i s = perform i s effect ∧ ∀ v, Finished i s (effect v) := by
  have r : ∀ ds w, Frame ds w s s := fun ds w => Frame.refl ds w s
  cases i
  case ldk rd k =>
    have hk : k.toNat ≤ 9 := by simpa [Instr.wellFormed] using h
    refine ⟨fun _ => (s.setVal rd (constK s.cfg k.toNat)).complete .ok, ?_, fun v => ?_⟩
    · simp only [exec, execLdk, hk, if_true]
    · exact .of_frame ((r _ _).setVal (by simp [dests]) _)
  case nop =>
    simp only [exec, execNop]
    exact of_perform rfl fun v => .of_frame (r _ _)
  case mov =>
    simp only [exec, execMov]
    exact of_perform rfl fun v => .of_frame ((r _ _).setReg (by simp [dests]) _)
  case csel =>
    simp only [exec, execCsel]
    exact of_perform rfl fun v => .of_frame ((r _ _).setReg (by simp [dests]) _)
  case dadd =>
    simp only [exec, execDadd]
    exact of_perform rfl fun v => .of_frame (((r _ _).setVal (by simp [dests]) _).setC rfl _)
  case dsub =>
    simp only [exec, execDsub]
    exact of_perform rfl fun v => .of_frame (((r _ _).setVal (by simp [dests]) _).setB rfl _)
  case dcmp =>
    simp only [exec, execDcmp]
    exact of_perform rfl fun v => .of_frame ((r _ _).setCmp rfl _)
  case disz =>
    simp only [exec, execDisz]
    exact of_perform rfl fun v => .of_frame ((r _ _).setT rfl _)
  case dshl =>
    simp only [exec, execDshl]
    exact of_perform rfl fun v => .of_frame (((r _ _).setVal (by simp [dests]) _).setC rfl _)
  case dshr =>
    simp only [exec, execDshr]
    exact of_perform rfl fun v => .of_frame (((r _ _).setVal (by simp [dests]) _).setC rfl _)
  case dnorm =>
    simp only [exec, execDnorm]
    exact of_perform rfl fun v => .of_frame (((r _ _).setVal (by simp [dests]) _).setC rfl _)
  case fadd =>
    simp only [exec, execFadd]
    exact of_perform rfl fun v => .of_frame ((r _ _).setVal (by simp [dests]) _)
  case fsub =>
    simp only [exec, execFsub]
    exact of_perform rfl fun v => .of_frame ((r _ _).setVal (by simp [dests]) _)
  case fneg =>
    simp only [exec, execFneg]
    exact of_perform rfl fun v => .of_frame ((r _ _).setVal (by simp [dests]) _)
  case mmul =>
    simp only [exec, execMmul]
    exact of_perform rfl fun v => .of_frame ((r _ _).setVal (by simp [dests]) _)
  case msqr =>
    simp only [exec, execMsqr]
    exact of_perform rfl fun v => .of_frame ((r _ _).setVal (by simp [dests]) _)
  case tom =>
    simp only [exec, execTom]
    exact of_perform rfl fun v => .of_frame ((r _ _).setVal (by simp [dests]) _)
  case fromm =>
    simp only [exec, execFromm]
    exact of_perform rfl fun v => .of_frame ((r _ _).setVal (by simp [dests]) _)
  case finv =>
    simp only [exec, execFinv]
    refine of_perform rfl fun v => ?_
    split <;> exact .of_frame (((r _ _).setVal (by simp [dests]) _).setT rfl _)
  case fsqrt =>
    simp only [exec, execFsqrt]
    refine of_perform rfl fun v => ?_
    split <;> exact .of_frame (((r _ _).setVal (by simp [dests]) _).setT rfl _)
  case feq =>
    simp only [exec, execFeq]
    exact of_perform rfl fun v => .of_frame ((r _ _).setT rfl _)
  case fpar =>
    simp only [exec, execFpar]
    exact of_perform rfl fun v => .of_frame ((r _ _).setP rfl _)
  case fchk =>
    simp only [exec, execFchk]
    refine of_perform rfl fun v => ?_
    split <;> exact .of_frame ((r _ _).setT rfl _)
  case padd =>
    simp only [exec, execPadd]
    exact of_perform rfl fun v => .of_frame
      ((r _ _).setPoint (by simp [dests]) (by simp [dests]) _)
  case pdbl =>
    simp only [exec, execPdbl]
    exact of_perform rfl fun v => .of_frame
      ((r _ _).setPoint (by simp [dests]) (by simp [dests]) _)
  case pneg =>
    simp only [exec, execPneg]
    exact of_perform rfl fun v => .of_frame
      (((r _ _).setVal (by simp [dests]) _).setVal (by simp [dests]) _)
  case pmul =>
    simp only [exec, execPmul]
    exact of_perform rfl fun v => .of_frame
      ((r _ _).setPoint (by simp [dests]) (by simp [dests]) _)
  case pcof =>
    simp only [exec, execPcof]
    exact of_perform rfl fun v => .of_frame
      ((r _ _).setPoint (by simp [dests]) (by simp [dests]) _)
  case ponc =>
    simp only [exec, execPonc, State.report]
    exact of_perform rfl fun v => .of_frame ((r _ _).setT rfl _)
  case pval =>
    simp only [exec, execPval, State.report]
    exact of_perform rfl fun v => .of_frame ((r _ _).setT rfl _)
  case pdec =>
    simp only [exec, execPdec]
    refine of_perform rfl fun v => ?_
    split
    · exact .of_frame (((r _ _).setPoint (by simp [dests]) (by simp [dests]) _).setT rfl _)
    · exact .of_frame
        ((((r _ _).setVal (by simp [dests]) _).setVal (by simp [dests]) _).setT rfl _)
  case penc =>
    simp only [exec, execPenc]
    exact of_perform rfl fun v => .of_frame (((r _ _).setVal (by simp [dests]) _).setP rfl _)

end Sys2Proof.Machine

set_option Elab.async true
end

