-- ==== Sys2Proof/Laws/Edwards.lean ====
section
/-! SUPPORT. The addition law of the curve `x^2 + y^2 = 1 + d x^2 y^2` over any field in which `d` is
not a square: it is complete, closed, associative, with identity `(0, 1)` and negative `(-x, y)`
(spec/42_point.md R134). -/

namespace Sys2Proof.Edwards

variable {K : Type*} [Field K] {d : K}

/-- Membership in the curve. -/
def On (d : K) (P : K × K) : Prop := P.1 * P.1 + P.2 * P.2 = 1 + d * (P.1 * P.1) * (P.2 * P.2)

/-- The addition law. -/
def add (d : K) (P Q : K × K) : K × K :=
  ((P.1 * Q.2 + P.2 * Q.1) * (1 + d * P.1 * Q.1 * P.2 * Q.2)⁻¹,
    (P.2 * Q.2 - P.1 * Q.1) * (1 - d * P.1 * Q.1 * P.2 * Q.2)⁻¹)

/-- No exceptional case: the product `d x1 x2 y1 y2` is neither 1 nor -1. -/
theorem complete (h2ne : (2 : K) ≠ 0) (hd : ∀ z : K, z * z ≠ d) {P Q : K × K} (h1 : On d P) (h2 : On d Q) {e : K}
    (he : e * e = 1) : d * P.1 * Q.1 * P.2 * Q.2 ≠ e := by
  obtain ⟨x1, y1⟩ := P
  obtain ⟨x2, y2⟩ := Q
  simp only [On] at *
  intro ht
  have he0 : e ≠ 0 := by
    rintro rfl
    simp at he
  have hx1 : x1 ≠ 0 := by rintro rfl; exact he0 (by rw [← ht]; ring)
  have hy1 : y1 ≠ 0 := by rintro rfl; exact he0 (by rw [← ht]; ring)
  have hp : (x1 + e * y1) * (x1 + e * y1) = d * ((x1 * y1) * (x2 + y2)) * ((x1 * y1) * (x2 + y2)) := by
    linear_combination h1 + y1 ^ 2 * he - d * x1 ^ 2 * y1 ^ 2 * h2
      - (d * x1 * x2 * y1 * y2 + e) * ht - he - 2 * x1 * y1 * ht
  have hm : (x1 - e * y1) * (x1 - e * y1) = d * ((x1 * y1) * (x2 - y2)) * ((x1 * y1) * (x2 - y2)) := by
    linear_combination h1 + y1 ^ 2 * he - d * x1 ^ 2 * y1 ^ 2 * h2
      - (d * x1 * x2 * y1 * y2 + e) * ht - he + 2 * x1 * y1 * ht
  have hsq (u v : K) (h : u * u = d * v * v) (hv : v ≠ 0) : False := by
    refine hd (u * v⁻¹) ?_
    field_simp
    linear_combination h
  by_cases hs : x2 + y2 = 0
  · by_cases hn : x2 - y2 = 0
    · have hx2 : x2 = 0 := by
        refine (mul_eq_zero.mp (?_ : (2 : K) * x2 = 0)).resolve_left h2ne
        linear_combination hs + hn
      subst hx2
      exact he0 (by rw [← ht]; ring)
    · exact hsq _ _ hm (mul_ne_zero (mul_ne_zero hx1 hy1) hn)
  · exact hsq _ _ hp (mul_ne_zero (mul_ne_zero hx1 hy1) hs)


/-- The sum of two points of the curve is on the curve. -/
theorem on_add (h2ne : (2 : K) ≠ 0) (hd : ∀ z : K, z * z ≠ d) {P Q : K × K} (h1 : On d P) (h2 : On d Q) :
    On d (add d P Q) := by
  have hp := complete h2ne hd h1 h2 (e := -1) (by ring)
  have hq := complete h2ne hd h1 h2 (e := 1) (by ring)
  obtain ⟨x1, y1⟩ := P
  obtain ⟨x2, y2⟩ := Q
  simp only [On, add] at *
  have hp' : 1 + d * x1 * x2 * y1 * y2 ≠ 0 := fun h => hp (by linear_combination h)
  have hq' : 1 - d * x1 * x2 * y1 * y2 ≠ 0 := fun h => hq (by linear_combination -h)
  have eX := mul_inv_cancel₀ hp'
  have eY := mul_inv_cancel₀ hq'
  replace eX : (x1 * y2 + y1 * x2) * (1 + d * x1 * x2 * y1 * y2)⁻¹ * (1 + d * x1 * x2 * y1 * y2)
      = x1 * y2 + y1 * x2 := by linear_combination (x1 * y2 + y1 * x2) * eX
  replace eY : (y1 * y2 - x1 * x2) * (1 - d * x1 * x2 * y1 * y2)⁻¹ * (1 - d * x1 * x2 * y1 * y2)
      = y1 * y2 - x1 * x2 := by linear_combination (y1 * y2 - x1 * x2) * eY
  generalize (x1 * y2 + y1 * x2) * (1 + d * x1 * x2 * y1 * y2)⁻¹ = X at *
  generalize (y1 * y2 - x1 * x2) * (1 - d * x1 * x2 * y1 * y2)⁻¹ = Y at *
  refine mul_right_cancel₀ (pow_ne_zero 2 (mul_ne_zero hp' hq')) ?_
  have e1 : (X * X + Y * Y) * ((1 + d * x1 * x2 * y1 * y2) * (1 - d * x1 * x2 * y1 * y2)) ^ 2
      = (X * (1 + d * x1 * x2 * y1 * y2)) ^ 2 * (1 - d * x1 * x2 * y1 * y2) ^ 2
        + (Y * (1 - d * x1 * x2 * y1 * y2)) ^ 2 * (1 + d * x1 * x2 * y1 * y2) ^ 2 := by ring
  have e2 : (1 + d * (X * X) * (Y * Y))
        * ((1 + d * x1 * x2 * y1 * y2) * (1 - d * x1 * x2 * y1 * y2)) ^ 2
      = ((1 + d * x1 * x2 * y1 * y2) * (1 - d * x1 * x2 * y1 * y2)) ^ 2
        + d * (X * (1 + d * x1 * x2 * y1 * y2)) ^ 2 * (Y * (1 - d * x1 * x2 * y1 * y2)) ^ 2 := by
    ring
  rw [e1, e2, eX, eY]
  linear_combination (
      y2^4 + 4*x2^2*y2^2 - 2*x2^2*y2^2*d - 2*x2^2*y2^4 + x2^4 - 2*x2^4*y2^2 + 2*x2^4*y2^4*d -
      x2^4*y2^4*d^2 - y1^2*x2^2*y2^4*d - y1^2*x2^4*y2^2*d + y1^2*x2^4*y2^4*d^2 -
      x1^2*x2^2*y2^4*d - x1^2*x2^4*y2^2*d + x1^2*x2^4*y2^4*d^2 + x1^2*y1^2*x2^4*y2^4*d^3) * h1
    + (
      1 + y2^2 + x2^2 - 2*x2^2*y2^2 + x2^2*y2^2*d - y1^2*y2^2 - y1^2*x2^2 + 2*y1^2*x2^2*y2^2 -
      2*y1^2*x2^2*y2^2*d + y1^4*x2^2*y2^2*d - x1^2*y2^2 - x1^2*x2^2 + 2*x1^2*x2^2*y2^2 -
      2*x1^2*x2^2*y2^2*d + x1^4*x2^2*y2^2*d) * h2

/-- Two fractions are equal if their products with a common denominator are. -/
theorem cross {a b c e z1 z2 A B C D : K} (hz : z1 * z2 ≠ 0) (eA : a * z1 = A) (eB : b * z1 = B)
    (eC : c * z2 = C) (eD : e * z2 = D) (h : A * D = C * B) : a * e = c * b := by
  refine mul_right_cancel₀ hz ?_
  rw [mul_mul_mul_comm, eA, eD, h, ← eC, ← eB]
  ring

/-- The sum is associative on the curve. -/
theorem add_assoc (h2ne : (2 : K) ≠ 0) (hd : ∀ z : K, z * z ≠ d) {P Q R : K × K} (h1 : On d P) (h2 : On d Q)
    (h3 : On d R) : add d (add d P Q) R = add d P (add d Q R) := by
  have hp := complete h2ne hd h1 h2 (e := -1) (by ring)
  have hq := complete h2ne hd h1 h2 (e := 1) (by ring)
  have hp2 := complete h2ne hd h2 h3 (e := -1) (by ring)
  have hq2 := complete h2ne hd h2 h3 (e := 1) (by ring)
  have hp3 := complete h2ne hd (on_add h2ne hd h1 h2) h3 (e := -1) (by ring)
  have hq3 := complete h2ne hd (on_add h2ne hd h1 h2) h3 (e := 1) (by ring)
  have hp4 := complete h2ne hd h1 (on_add h2ne hd h2 h3) (e := -1) (by ring)
  have hq4 := complete h2ne hd h1 (on_add h2ne hd h2 h3) (e := 1) (by ring)
  obtain ⟨x1, y1⟩ := P
  obtain ⟨x2, y2⟩ := Q
  obtain ⟨x3, y3⟩ := R
  simp only [On, add] at *
  replace hp : 1 + d * x1 * x2 * y1 * y2 ≠ 0 := fun h => hp (by linear_combination h)
  replace hq : 1 - d * x1 * x2 * y1 * y2 ≠ 0 := fun h => hq (by linear_combination -h)
  replace hp2 : 1 + d * x2 * x3 * y2 * y3 ≠ 0 := fun h => hp2 (by linear_combination h)
  replace hq2 : 1 - d * x2 * x3 * y2 * y3 ≠ 0 := fun h => hq2 (by linear_combination -h)
  have eX := mul_inv_cancel₀ hp
  have eY := mul_inv_cancel₀ hq
  have eU := mul_inv_cancel₀ hp2
  have eW := mul_inv_cancel₀ hq2
  replace eX : (x1 * y2 + y1 * x2) * (1 + d * x1 * x2 * y1 * y2)⁻¹ * (1 + d * x1 * x2 * y1 * y2)
      = x1 * y2 + y1 * x2 := by linear_combination (x1 * y2 + y1 * x2) * eX
  replace eY : (y1 * y2 - x1 * x2) * (1 - d * x1 * x2 * y1 * y2)⁻¹ * (1 - d * x1 * x2 * y1 * y2)
      = y1 * y2 - x1 * x2 := by linear_combination (y1 * y2 - x1 * x2) * eY
  replace eU : (x2 * y3 + y2 * x3) * (1 + d * x2 * x3 * y2 * y3)⁻¹ * (1 + d * x2 * x3 * y2 * y3)
      = x2 * y3 + y2 * x3 := by linear_combination (x2 * y3 + y2 * x3) * eU
  replace eW : (y2 * y3 - x2 * x3) * (1 - d * x2 * x3 * y2 * y3)⁻¹ * (1 - d * x2 * x3 * y2 * y3)
      = y2 * y3 - x2 * x3 := by linear_combination (y2 * y3 - x2 * x3) * eW
  generalize (x1 * y2 + y1 * x2) * (1 + d * x1 * x2 * y1 * y2)⁻¹ = X at *
  generalize (y1 * y2 - x1 * x2) * (1 - d * x1 * x2 * y1 * y2)⁻¹ = Y at *
  generalize (x2 * y3 + y2 * x3) * (1 + d * x2 * x3 * y2 * y3)⁻¹ = U at *
  generalize (y2 * y3 - x2 * x3) * (1 - d * x2 * x3 * y2 * y3)⁻¹ = W at *
  replace hp3 : 1 + d * X * x3 * Y * y3 ≠ 0 := fun h => hp3 (by linear_combination h)
  replace hq3 : 1 - d * X * x3 * Y * y3 ≠ 0 := fun h => hq3 (by linear_combination -h)
  replace hp4 : 1 + d * x1 * U * y1 * W ≠ 0 := fun h => hp4 (by linear_combination h)
  replace hq4 : 1 - d * x1 * U * y1 * W ≠ 0 := fun h => hq4 (by linear_combination -h)
  have hz : (1 + d * x1 * x2 * y1 * y2) * (1 - d * x1 * x2 * y1 * y2)
      * ((1 + d * x2 * x3 * y2 * y3) * (1 - d * x2 * x3 * y2 * y3)) ≠ 0 :=
    mul_ne_zero (mul_ne_zero hp hq) (mul_ne_zero hp2 hq2)
  have eXY : X * Y * ((1 + d * x1 * x2 * y1 * y2) * (1 - d * x1 * x2 * y1 * y2))
      = (x1 * y2 + y1 * x2) * (y1 * y2 - x1 * x2) := by rw [← eX, ← eY]; ring
  have eUW : U * W * ((1 + d * x2 * x3 * y2 * y3) * (1 - d * x2 * x3 * y2 * y3))
      = (x2 * y3 + y2 * x3) * (y2 * y3 - x2 * x3) := by rw [← eU, ← eW]; ring
  have eA : (X * y3 + Y * x3) * ((1 + d * x1 * x2 * y1 * y2) * (1 - d * x1 * x2 * y1 * y2))
      = (x1 * y2 + y1 * x2) * (1 - d * x1 * x2 * y1 * y2) * y3
        + (y1 * y2 - x1 * x2) * (1 + d * x1 * x2 * y1 * y2) * x3 := by rw [← eX, ← eY]; ring
  have eA' : (Y * y3 - X * x3) * ((1 + d * x1 * x2 * y1 * y2) * (1 - d * x1 * x2 * y1 * y2))
      = (y1 * y2 - x1 * x2) * (1 + d * x1 * x2 * y1 * y2) * y3
        - (x1 * y2 + y1 * x2) * (1 - d * x1 * x2 * y1 * y2) * x3 := by rw [← eX, ← eY]; ring
  have eC : (x1 * W + y1 * U) * ((1 + d * x2 * x3 * y2 * y3) * (1 - d * x2 * x3 * y2 * y3))
      = x1 * (y2 * y3 - x2 * x3) * (1 + d * x2 * x3 * y2 * y3)
        + y1 * (x2 * y3 + y2 * x3) * (1 - d * x2 * x3 * y2 * y3) := by rw [← eU, ← eW]; ring
  have eC' : (y1 * W - x1 * U) * ((1 + d * x2 * x3 * y2 * y3) * (1 - d * x2 * x3 * y2 * y3))
      = y1 * (y2 * y3 - x2 * x3) * (1 + d * x2 * x3 * y2 * y3)
        - x1 * (x2 * y3 + y2 * x3) * (1 - d * x2 * x3 * y2 * y3) := by rw [← eU, ← eW]; ring
  have eB : (1 + d * X * x3 * Y * y3) * ((1 + d * x1 * x2 * y1 * y2) * (1 - d * x1 * x2 * y1 * y2))
      = (1 + d * x1 * x2 * y1 * y2) * (1 - d * x1 * x2 * y1 * y2)
        + d * ((x1 * y2 + y1 * x2) * (y1 * y2 - x1 * x2)) * x3 * y3 := by rw [← eXY]; ring
  have eB' : (1 - d * X * x3 * Y * y3) * ((1 + d * x1 * x2 * y1 * y2) * (1 - d * x1 * x2 * y1 * y2))
      = (1 + d * x1 * x2 * y1 * y2) * (1 - d * x1 * x2 * y1 * y2)
        - d * ((x1 * y2 + y1 * x2) * (y1 * y2 - x1 * x2)) * x3 * y3 := by rw [← eXY]; ring
  have eD : (1 + d * x1 * U * y1 * W) * ((1 + d * x2 * x3 * y2 * y3) * (1 - d * x2 * x3 * y2 * y3))
      = (1 + d * x2 * x3 * y2 * y3) * (1 - d * x2 * x3 * y2 * y3)
        + d * ((x2 * y3 + y2 * x3) * (y2 * y3 - x2 * x3)) * x1 * y1 := by rw [← eUW]; ring
  have eD' : (1 - d * x1 * U * y1 * W) * ((1 + d * x2 * x3 * y2 * y3) * (1 - d * x2 * x3 * y2 * y3))
      = (1 + d * x2 * x3 * y2 * y3) * (1 - d * x2 * x3 * y2 * y3)
        - d * ((x2 * y3 + y2 * x3) * (y2 * y3 - x2 * x3)) * x1 * y1 := by rw [← eUW]; ring
  refine Prod.ext ?_ ?_
  · change (X * y3 + Y * x3) * (1 + d * X * x3 * Y * y3)⁻¹
      = (x1 * W + y1 * U) * (1 + d * x1 * U * y1 * W)⁻¹
    rw [← div_eq_mul_inv, ← div_eq_mul_inv, div_eq_div_iff hp3 hp4]
    refine cross hz eA eB eC eD ?_
    linear_combination (
        - y1*x2*y2^4*x3^2*y3*d - y1*x2^2*y2^3*x3*d + y1*x2^2*y2^3*x3^3*d - y1*x2^3*y2^2*y3*d +
        y1*x2^3*y2^2*y3^3*d + y1*x2^3*y2^4*x3^2*y3*d^2 - y1*x2^4*y2*x3*y3^2*d +
        y1*x2^4*y2^3*x3*y3^2*d^2 + x1*x2*y2^4*x3*y3^2*d - x1*x2^2*y2^3*y3*d +
        x1*x2^2*y2^3*y3^3*d + x1*x2^3*y2^2*x3*d - x1*x2^3*y2^2*x3^3*d - x1*x2^3*y2^4*x3*y3^2*d^2
        - x1*x2^4*y2*x3^2*y3*d + x1*x2^4*y2^3*x3^2*y3*d^2) * h1
      + (
        - y1*x2*y2^2*x3^2*y3*d - y1*x2^2*y2*x3*y3^2*d + y1^3*x2*y2^2*x3^2*y3*d +
        y1^3*x2^2*y2*x3*y3^2*d + x1*x2*y2^2*x3*y3^2*d - x1*x2^2*y2*x3^2*y3*d -
        x1*y1^2*x2*y2^2*x3*d + x1*y1^2*x2*y2^2*x3^3*d + x1*y1^2*x2^2*y2*y3*d -
        x1*y1^2*x2^2*y2*y3^3*d + x1^2*y1*x2*y2^2*y3*d - x1^2*y1*x2*y2^2*y3^3*d +
        x1^2*y1*x2^2*y2*x3*d - x1^2*y1*x2^2*y2*x3^3*d - x1^3*x2*y2^2*x3*y3^2*d +
        x1^3*x2^2*y2*x3^2*y3*d) * h2
      + (
        y1*x2^2*y2^3*x3*d + y1*x2^3*y2^2*y3*d - y1^3*x2^2*y2^3*x3*d - y1^3*x2^3*y2^2*y3*d +
        x1*x2^2*y2^3*y3*d - x1*x2^3*y2^2*x3*d - x1*y1^2*x2*y2^4*x3*d + x1*y1^2*x2^3*y2^4*x3*d^2
        + x1*y1^2*x2^4*y2*y3*d - x1*y1^2*x2^4*y2^3*y3*d^2 + x1^2*y1*x2*y2^4*y3*d -
        x1^2*y1*x2^3*y2^4*y3*d^2 + x1^2*y1*x2^4*y2*x3*d - x1^2*y1*x2^4*y2^3*x3*d^2 -
        x1^3*x2^2*y2^3*y3*d + x1^3*x2^3*y2^2*x3*d) * h3
  · change (Y * y3 - X * x3) * (1 - d * X * x3 * Y * y3)⁻¹
      = (y1 * W - x1 * U) * (1 - d * x1 * U * y1 * W)⁻¹
    rw [← div_eq_mul_inv, ← div_eq_mul_inv, div_eq_div_iff hq3 hq4]
    refine cross hz eA' eB' eC' eD' ?_
    linear_combination (
        y1*x2*y2^4*x3*y3^2*d - y1*x2^2*y2^3*y3*d + y1*x2^2*y2^3*y3^3*d + y1*x2^3*y2^2*x3*d -
        y1*x2^3*y2^2*x3^3*d - y1*x2^3*y2^4*x3*y3^2*d^2 - y1*x2^4*y2*x3^2*y3*d +
        y1*x2^4*y2^3*x3^2*y3*d^2 + x1*x2*y2^4*x3^2*y3*d + x1*x2^2*y2^3*x3*d -
        x1*x2^2*y2^3*x3^3*d + x1*x2^3*y2^2*y3*d - x1*x2^3*y2^2*y3^3*d - x1*x2^3*y2^4*x3^2*y3*d^2
        + x1*x2^4*y2*x3*y3^2*d - x1*x2^4*y2^3*x3*y3^2*d^2) * h1
      + (
        y1*x2*y2^2*x3*y3^2*d - y1*x2^2*y2*x3^2*y3*d - y1^3*x2*y2^2*x3*y3^2*d +
        y1^3*x2^2*y2*x3^2*y3*d + x1*x2*y2^2*x3^2*y3*d + x1*x2^2*y2*x3*y3^2*d -
        x1*y1^2*x2*y2^2*y3*d + x1*y1^2*x2*y2^2*y3^3*d - x1*y1^2*x2^2*y2*x3*d +
        x1*y1^2*x2^2*y2*x3^3*d - x1^2*y1*x2*y2^2*x3*d + x1^2*y1*x2*y2^2*x3^3*d +
        x1^2*y1*x2^2*y2*y3*d - x1^2*y1*x2^2*y2*y3^3*d - x1^3*x2*y2^2*x3^2*y3*d -
        x1^3*x2^2*y2*x3*y3^2*d) * h2
      + (
        y1*x2^2*y2^3*y3*d - y1*x2^3*y2^2*x3*d - y1^3*x2^2*y2^3*y3*d + y1^3*x2^3*y2^2*x3*d -
        x1*x2^2*y2^3*x3*d - x1*x2^3*y2^2*y3*d - x1*y1^2*x2*y2^4*y3*d + x1*y1^2*x2^3*y2^4*y3*d^2
        - x1*y1^2*x2^4*y2*x3*d + x1*y1^2*x2^4*y2^3*x3*d^2 - x1^2*y1*x2*y2^4*x3*d +
        x1^2*y1*x2^3*y2^4*x3*d^2 + x1^2*y1*x2^4*y2*y3*d - x1^2*y1*x2^4*y2^3*y3*d^2 +
        x1^3*x2^2*y2^3*x3*d + x1^3*x2^3*y2^2*y3*d) * h3

theorem add_comm (P Q : K × K) : add d P Q = add d Q P := by
  refine Prod.ext ?_ ?_
  · change (_ * _ + _ * _) * (1 + _)⁻¹ = (_ * _ + _ * _) * (1 + _)⁻¹
    congr 1
    · ring
    · congr 1
      ring
  · change (_ * _ - _ * _) * (1 - _)⁻¹ = (_ * _ - _ * _) * (1 - _)⁻¹
    congr 1
    · ring
    · congr 1
      ring

/-- `(0, 1)` is on the curve. -/
theorem on_zero : On d (0, 1) := by simp [On]

/-- `(0, 1)` is the identity. -/
theorem zero_add (P : K × K) : add d (0, 1) P = P := by simp [add]

/-- `(0, 1)` is the identity. -/
theorem add_zero (P : K × K) : add d P (0, 1) = P := by simp [add]

/-- `(-x, y)` is on the curve with `(x, y)`. -/
theorem on_neg {P : K × K} (h : On d P) : On d (-P.1, P.2) := by
  simpa [On] using h

/-- `(-x, y)` is the negative of `(x, y)`. -/
theorem add_neg (h2ne : (2 : K) ≠ 0) (hd : ∀ z : K, z * z ≠ d) {P : K × K} (h : On d P) :
    add d P (-P.1, P.2) = (0, 1) := by
  have hq := complete h2ne hd h (on_neg h) (e := 1) (by ring)
  obtain ⟨x, y⟩ := P
  simp only [On, add] at *
  refine Prod.ext (by simp [mul_comm]) ?_
  change _ * _⁻¹ = 1
  rw [← div_eq_mul_inv, div_eq_one_iff_eq (fun h0 => hq (by linear_combination -h0))]
  linear_combination h

end Sys2Proof.Edwards
end

