-- ==== Sys2Proof/Laws/Encoding.lean ====
section
/-! SUPPORT. The fields of a word and the word of its fields, and when a word decodes
(spec/30_encoding.md R86 to R91). -/

namespace Sys2Proof

theorem bits_lt (w : Word) (lo len : Nat) : bits w lo len < 2 ^ len :=
  Nat.mod_lt _ (Nat.two_pow_pos _)

/-- The fields of an encoded word are the fields it was built from (R86). -/
theorem fieldsOf_wordOf {opc rd rs1 rs2 imm : Nat} (h0 : opc < 256) (h1 : rd < 16) (h2 : rs1 < 16)
    (h3 : rs2 < 16) (h4 : imm < 1024) :
    fieldsOf (wordOf opc rd rs1 rs2 imm) = ⟨opc, rd, rs1, rs2, imm, 0⟩ := by
  have hw : (wordOf opc rd rs1 rs2 imm).toNat
      = opc + rd * 256 + rs1 * 4096 + rs2 * 65536 + imm * 1048576 := by
    simp only [wordOf, BitVec.toNat_ofNat]
    omega
  simp only [fieldsOf, bits, hw, Fields.mk.injEq, Nat.reducePow]
  omega

/-- A word whose reserved bits are 0 is the word of its fields. -/
theorem wordOf_fieldsOf {w : Word} (h : (fieldsOf w).rsv = 0) :
    wordOf (fieldsOf w).opc (fieldsOf w).rd (fieldsOf w).rs1 (fieldsOf w).rs2 (fieldsOf w).imm
      = w := by
  apply BitVec.eq_of_toNat_eq
  have hlt := w.isLt
  simp only [fieldsOf, bits, wordOf, BitVec.toNat_ofNat, Nat.reducePow] at *
  omega

/-- What the decoder gives for a word whose fields break none of R91 (b) to (f). -/
theorem decode_of_fields {w : Word} {f : Fields} {fmt : Format} {mk : Fields → Instr}
    (hw : fieldsOf w = f) (hop : opcodeMap f.opc = some (fmt, mk)) (hf : fieldFault fmt f = none) :
    decode w = .legal (mk f) := by
  subst hw
  unfold decode
  split
  · rename_i h
    rw [hop] at h
    cases h
  · rename_i h
    rw [hop] at h
    injection h with h
    injection h with h1 h2
    subst h1 h2
    split
    · rename_i h
      rw [hf] at h
      cases h
    · rfl

/-- What the decoder gives for a word built from such fields. -/
theorem decode_wordOf {opc rd rs1 rs2 imm : Nat} {fmt : Format} {mk : Fields → Instr}
    (h0 : opc < 256) (h1 : rd < 16) (h2 : rs1 < 16) (h3 : rs2 < 16) (h4 : imm < 1024)
    (hop : opcodeMap opc = some (fmt, mk))
    (hf : fieldFault fmt ⟨opc, rd, rs1, rs2, imm, 0⟩ = none) :
    decode (wordOf opc rd rs1 rs2 imm) = .legal (mk ⟨opc, rd, rs1, rs2, imm, 0⟩) :=
  decode_of_fields (fieldsOf_wordOf h0 h1 h2 h3 h4) hop hf

/-- Everything a legal answer of the decoder says of the word. -/
theorem decode_cases {w : Word} {i : Instr} (h : decode w = .legal i) :
    ∃ fmt mk, opcodeMap (fieldsOf w).opc = some (fmt, mk) ∧ fieldFault fmt (fieldsOf w) = none ∧
      i = mk (fieldsOf w) := by
  simp only [decode] at h
  split at h
  · cases h
  · split at h
    · cases h
    · rename_i fmt mk h1 _ h2
      exact ⟨fmt, mk, h1, h2, by injection h with h; exact h.symm⟩

/-- The conditions (b) to (f) of R91, as the rule lists them. -/
theorem fieldFault_none {fmt : Format} {f : Fields} : fieldFault fmt f = none ↔
    f.rsv = 0 ∧ (fmt.rdUse = .unused → f.rd = 0) ∧ (fmt.rs1Use = .unused → f.rs1 = 0) ∧
    (fmt.rs2Use = .unused → f.rs2 = 0) ∧ (fmt.usesImm = false → f.imm = 0) ∧
    (fmt.rdUse = .point → f.rd < 8) ∧ (fmt.rs1Use = .point → f.rs1 < 8) ∧
    (fmt.rs2Use = .point → f.rs2 < 8) ∧ (fmt = .k → f.imm ≤ 9) ∧ (fmt = .px → f.imm ≤ 1) := by
  by_cases hr : f.rsv = 0
  · cases fmt <;> simp [fieldFault, hr, unusedNonzero, pointTop, Format.rdUse, Format.rs1Use,
      Format.rs2Use, Format.usesImm] <;> grind
  · simp [fieldFault, hr]

/-- `legal(w)` through the opcode map and the field conditions. -/
theorem legal_iff (w : Word) : legal w = true ↔
    ∃ fmt mk, opcodeMap (fieldsOf w).opc = some (fmt, mk) ∧ fieldFault fmt (fieldsOf w) = none := by
  simp only [legal, decode]
  cases h1 : opcodeMap (fieldsOf w).opc with
  | none => simp
  | some x =>
    obtain ⟨fmt, mk⟩ := x
    cases h2 : fieldFault fmt (fieldsOf w) with
    | none => simp [h2]
    | some y => simp [h2]

end Sys2Proof
end

