-- ==== Sys2Proof/Laws/Residues.lean ====
section
/-! SUPPORT. The arithmetic of the Field Engine read in the field of `p` elements: Fermat inversion is
inversion, Montgomery form is multiplication by `R` (spec/00_scope.md R13, R19, R20,
spec/41_field.md R118, R126, R128). -/

namespace Sys2Proof

variable {c : Cfg}

theorem Cfg.Valid.fact (h : c.Valid) : Fact (Nat.Prime c.p) := ⟨h.prime⟩

theorem Cfg.Valid.pos (h : c.Valid) : 0 < c.p := h.prime.pos

/-- Two reduced numbers with one residue are equal. -/
theorem eq_of_residue {p a b : Nat} (ha : a < p) (hb : b < p)
    (h : (a : ZMod p) = (b : ZMod p)) : a = b := by
  rw [ZMod.natCast_eq_natCast_iff] at h
  exact Nat.ModEq.eq_of_lt_of_lt h ha hb

theorem residue_subMod {p : Nat} (hp : 0 < p) (a b : Nat) :
    ((subMod p a b : Nat) : ZMod p) = a - b := by
  have h := congrArg (Nat.cast : Nat → ZMod p) (subMod_add hp a b)
  simp only [ZMod.natCast_mod, Nat.cast_add] at h
  exact eq_sub_of_add_eq h

theorem residue_powMod (p b e : Nat) : ((powMod p b e : Nat) : ZMod p) = (b : ZMod p) ^ e := by
  rw [powMod_eq, ZMod.natCast_mod, Nat.cast_pow]

/-- `x^(p-2)` is the inverse, 0 for 0 (R20). -/
theorem residue_pow_inv (h : c.Valid) (x : ZMod c.p) : x ^ (c.p - 2) = x⁻¹ := by
  have := h.fact
  have h3 := h.big
  by_cases hx : x = 0
  · subst hx
    rw [inv_zero, zero_pow (by omega)]
  · refine eq_inv_of_mul_eq_one_left ?_
    rw [← pow_succ, show c.p - 2 + 1 = c.p - 1 by omega]
    exact ZMod.pow_card_sub_one_eq_one hx

theorem residue_inv (h : c.Valid) (x : Nat) : ((c.inv x : Nat) : ZMod c.p) = (x : ZMod c.p)⁻¹ := by
  rw [Cfg.inv, residue_powMod, residue_pow_inv h]

/-- `R` is invertible modulo `p` (R13). -/
theorem residue_radix_ne (h : c.Valid) : ((radix : Nat) : ZMod c.p) ≠ 0 := by
  have := h.fact
  have h2 : ((2 : Nat) : ZMod c.p) ≠ 0 := by
    intro h0
    rw [ZMod.natCast_eq_zero_iff] at h0
    have := Nat.le_of_dvd (by decide) h0
    have := h.big
    omega
  rw [radix, Nat.cast_pow, Nat.cast_pow]
  exact pow_ne_zero _ (pow_ne_zero _ h2)

theorem residue_rinv (h : c.Valid) : ((c.rinv : Nat) : ZMod c.p) = ((radix : Nat) : ZMod c.p)⁻¹ := by
  rw [Cfg.rinv, residue_inv h, Cfg.rm, ZMod.natCast_mod]

theorem residue_mont (x : Nat) : ((c.mont x : Nat) : ZMod c.p) = x * (radix : Nat) := by
  rw [Cfg.mont, ZMod.natCast_mod, Nat.cast_mul, mul_comm]

theorem residue_unmont (h : c.Valid) (x : Nat) :
    ((c.unmont x : Nat) : ZMod c.p) = x * ((radix : Nat) : ZMod c.p)⁻¹ := by
  rw [Cfg.unmont, ZMod.natCast_mod, Nat.cast_mul, residue_rinv h]

theorem residue_montMul (h : c.Valid) (a b : Nat) :
    ((c.montMul a b : Nat) : ZMod c.p) = a * b * ((radix : Nat) : ZMod c.p)⁻¹ := by
  rw [Cfg.montMul, ZMod.natCast_mod, Nat.cast_mul, Nat.cast_mul, residue_rinv h]

/-- `unmont` undoes `mont` (R19). -/
theorem unmont_mont (h : c.Valid) {x : Nat} (hx : x < c.p) : c.unmont (c.mont x) = x := by
  have := h.fact
  refine eq_of_residue (unmont_lt h.pos _) hx ?_
  rw [residue_unmont h, residue_mont, mul_assoc, mul_inv_cancel₀ (residue_radix_ne h), mul_one]

/-- `mont` undoes `unmont` (R19). -/
theorem mont_unmont (h : c.Valid) {x : Nat} (hx : x < c.p) : c.mont (c.unmont x) = x := by
  have := h.fact
  refine eq_of_residue (mont_lt h.pos _) hx ?_
  rw [residue_mont, residue_unmont h, mul_assoc, inv_mul_cancel₀ (residue_radix_ne h), mul_one]

/-- A root of a square modulo a prime `p = 3 mod 4` is its `(p+1)/4`-th power (R128). -/
theorem residue_root (h : c.Valid) (y : ZMod c.p) :
    ((y * y) ^ ((c.p + 1) / 4)) * ((y * y) ^ ((c.p + 1) / 4)) = y * y := by
  have := h.fact
  have h4 := h.mod4
  by_cases hy : y = 0
  · subst hy
    rw [mul_zero, zero_pow (by omega), mul_zero]
  · have h1 := ZMod.pow_card_sub_one_eq_one hy
    rw [← mul_pow, ← pow_two, ← pow_two, ← pow_mul, ← pow_mul,
      show 2 * (2 * ((c.p + 1) / 4)) = (c.p - 1) + 2 by omega, pow_add, h1, one_mul]

/-- The model's root test is the residue test (R20 `sq`, R128). -/
theorem rootOf_sq_iff (h : c.Valid) {x : Nat} (hx : x < c.p) :
    c.rootOf x * c.rootOf x % c.p = x ↔ ∃ y, y * y % c.p = x := by
  have := h.fact
  constructor
  · exact fun e => ⟨_, e⟩
  · rintro ⟨y, rfl⟩
    refine eq_of_residue (Nat.mod_lt _ h.pos) hx ?_
    rw [ZMod.natCast_mod, Nat.cast_mul, Cfg.rootOf, residue_powMod, ZMod.natCast_mod, Nat.cast_mul]
    exact residue_root h _

end Sys2Proof
end

