-- ==== Sys2Proof/Laws/Group.lean ====
section
/-! SUPPORT. The points of `E` under the model's group law: closed, associative, with identity and
negatives (spec/00_scope.md R21, spec/42_point.md R134). -/

namespace Sys2Proof

variable {c : Cfg}

/-- The coordinates of a point in the field of `p` elements. -/
def Cfg.res (c : Cfg) (P : Point) : ZMod c.p × ZMod c.p := (P.x, P.y)

theorem two_ne (h : c.Valid) : (2 : ZMod c.p) ≠ 0 := by
  intro h0
  have h1 : ((2 : Nat) : ZMod c.p) = 0 := by exact_mod_cast h0
  rw [ZMod.natCast_eq_zero_iff] at h1
  have := Nat.le_of_dvd (by decide) h1
  have := h.big
  omega

/-- `D` is not a square in the field (R12 (e)). -/
theorem residue_nonsquare (h : c.Valid) (z : ZMod c.p) : z * z ≠ (c.d : ZMod c.p) := by
  have := h.fact
  intro e
  have hz : ((z.val : Nat) : ZMod c.p) = z := ZMod.natCast_zmod_val z
  refine h.dNonSquare z.val (ZMod.val_lt z) (eq_of_residue (Nat.mod_lt _ h.pos) h.dReduced ?_)
  rw [ZMod.natCast_mod, Nat.cast_mul, hz, e]

/-- Membership in `E` read in the field (R21). -/
theorem onCurve_iff [Fact (Nat.Prime c.p)] {P : Point} :
    c.onCurve P = true ↔ P.x < c.p ∧ P.y < c.p ∧ Edwards.On (c.d : ZMod c.p) (c.res P) := by
  simp only [Cfg.onCurve, Bool.and_eq_true, decide_eq_true_eq, beq_iff_eq, Edwards.On, Cfg.res,
    and_assoc]
  rw [← Nat.ModEq, ← ZMod.natCast_eq_natCast_iff]
  push_cast
  rfl

theorem point_ext {P Q : Point} (h1 : P.x < c.p) (h2 : P.y < c.p) (h3 : Q.x < c.p) (h4 : Q.y < c.p)
    (h : c.res P = c.res Q) : P = Q := by
  obtain ⟨x1, y1⟩ := P
  obtain ⟨x2, y2⟩ := Q
  simp only [Cfg.res, Prod.mk.injEq] at *
  rw [eq_of_residue h1 h3 h.1, eq_of_residue h2 h4 h.2]

/-- The model's sum is the field's (R134). -/
theorem res_add [Fact (Nat.Prime c.p)] (h : c.Valid) (P Q : Point) :
    c.res (c.add P Q) = Edwards.add (c.d : ZMod c.p) (c.res P) (c.res Q) := by
  simp only [Cfg.res, Cfg.add, Edwards.add, Prod.mk.injEq]
  constructor
  · rw [ZMod.natCast_mod, Nat.cast_mul, residue_inv h]
    push_cast [ZMod.natCast_mod]
    rfl
  · rw [ZMod.natCast_mod, Nat.cast_mul, residue_inv h, residue_subMod h.pos, residue_subMod h.pos]
    push_cast [ZMod.natCast_mod]
    rfl

theorem add_x_lt (h : c.Valid) (P Q : Point) : (c.add P Q).x < c.p := Nat.mod_lt _ h.pos
theorem add_y_lt (h : c.Valid) (P Q : Point) : (c.add P Q).y < c.p := Nat.mod_lt _ h.pos

theorem res_zero : c.res .zero = ((0, 1) : ZMod c.p × ZMod c.p) := by
  simp [Cfg.res, Point.zero]

theorem onCurve_zero (h : c.Valid) : c.onCurve .zero = true := by
  have := h.fact
  have := h.big
  rw [onCurve_iff, res_zero]
  exact ⟨h.pos, show 1 < c.p by omega, Edwards.on_zero⟩

/-- `E` is closed under the sum (R134). -/
theorem onCurve_add (h : c.Valid) {P Q : Point} (hP : c.onCurve P = true)
    (hQ : c.onCurve Q = true) : c.onCurve (c.add P Q) = true := by
  have := h.fact
  rw [onCurve_iff] at *
  refine ⟨add_x_lt h P Q, add_y_lt h P Q, ?_⟩
  rw [res_add h]
  exact Edwards.on_add (two_ne h) (residue_nonsquare h) hP.2.2 hQ.2.2

/-- The sum is associative on `E` (R134). -/
theorem add_assoc_onCurve (h : c.Valid) {P Q R : Point} (hP : c.onCurve P = true)
    (hQ : c.onCurve Q = true) (hR : c.onCurve R = true) :
    c.add (c.add P Q) R = c.add P (c.add Q R) := by
  have := h.fact
  rw [onCurve_iff] at *
  refine point_ext (add_x_lt h _ _) (add_y_lt h _ _) (add_x_lt h _ _) (add_y_lt h _ _) ?_
  rw [res_add h, res_add h, res_add h, res_add h]
  exact Edwards.add_assoc (two_ne h) (residue_nonsquare h) hP.2.2 hQ.2.2 hR.2.2

theorem add_comm_points (h : c.Valid) (P Q : Point) : c.add P Q = c.add Q P := by
  have := h.fact
  refine point_ext (add_x_lt h _ _) (add_y_lt h _ _) (add_x_lt h _ _) (add_y_lt h _ _) ?_
  rw [res_add h, res_add h, Edwards.add_comm]

/-- `O` is the identity (R134). -/
theorem zero_add_point (h : c.Valid) {P : Point} (hx : P.x < c.p) (hy : P.y < c.p) :
    c.add .zero P = P := by
  have := h.fact
  refine point_ext (add_x_lt h _ _) (add_y_lt h _ _) hx hy ?_
  rw [res_add h, res_zero, Edwards.zero_add]

/-- `O` is the identity (R134). -/
theorem add_zero_point (h : c.Valid) {P : Point} (hx : P.x < c.p) (hy : P.y < c.p) :
    c.add P .zero = P := by
  rw [add_comm_points h, zero_add_point h hx hy]

end Sys2Proof
end

