-- ==== Sys2Proof/Laws/Holds.lean ====
section
/-! SUPPORT. What a register holds after a command's writes (spec/00_scope.md R17, R18, R22). -/

namespace Sys2Proof.Machine

variable {s : State} {i j : FReg} {k : PReg} {v x : Nat} {P : Point}

theorem radix_pos : 0 < radix := by decide +kernel

theorem mod_radix_lt (v : Nat) : v % radix < radix := Nat.mod_lt _ radix_pos

/-- A canonical operand is below `2^540` (R18). -/
theorem Snapshot.val_lt {o : Snapshot} (h : o.Canonical i) : o.val i < radix := regVal_lt _ h.2

@[simp] theorem holds_complete (e : ResultCode) : (s.complete e).Holds i x ↔ s.Holds i x := Iff.rfl
@[simp] theorem holds_report (e : ResultCode) : (s.report e).Holds i x ↔ s.Holds i x := Iff.rfl
@[simp] theorem holds_setC (b : Bool) : (s.setC b).Holds i x ↔ s.Holds i x := Iff.rfl
@[simp] theorem holds_setB (b : Bool) : (s.setB b).Holds i x ↔ s.Holds i x := Iff.rfl
@[simp] theorem holds_setT (b : Bool) : (s.setT b).Holds i x ↔ s.Holds i x := Iff.rfl
@[simp] theorem holds_setP (b : Bool) : (s.setP b).Holds i x ↔ s.Holds i x := Iff.rfl
@[simp] theorem holdsPoint_complete (e : ResultCode) :
    (s.complete e).HoldsPoint k P ↔ s.HoldsPoint k P := Iff.rfl
@[simp] theorem holdsPoint_setT (b : Bool) : (s.setT b).HoldsPoint k P ↔ s.HoldsPoint k P := Iff.rfl

/-- `F[i] <- v` makes `F[i]` hold `v`. -/
theorem holds_setVal (h : v < radix) : (s.setVal i v).Holds i v := holds_of_reg (reg_setVal_self s i v) h

/-- What a register holds depends on its contents alone. -/
theorem holds_congr {t : State} (h : t.reg i = s.reg i) : t.Holds i x ↔ s.Holds i x := by
  simp only [State.Holds, Snapshot.Canonical, Snapshot.Written, Snapshot.val, snapshot_get, h]

theorem holds_setVal_of_ne (h : j ≠ i) : (s.setVal i v).Holds j x ↔ s.Holds j x :=
  holds_congr (reg_setReg_of_ne s _ h)

/-- `Pk <- P` makes `Pk` hold `P` (R22). -/
theorem holdsPoint_setPoint (h : s.cfg.Valid) : (s.setPoint k P).HoldsPoint k P := by
  have hm (x : Nat) : s.cfg.mont x < radix :=
    Nat.lt_trans (mont_lt h.prime.pos x) (p_lt_radix h)
  exact ⟨(holds_setVal_of_ne (xReg_ne_yReg k k)).mpr (holds_setVal (hm P.x)), holds_setVal (hm P.y)⟩

theorem digit_zero {B w y : Nat} (h : w < B) : (w + B * y) / B ^ 0 % B = w := by
  rw [Nat.pow_zero, Nat.div_one, Nat.add_mul_mod_self_left, Nat.mod_eq_of_lt h]

theorem digit_succ {B w y : Nat} (h : w < B) (j : Nat) :
    (w + B * y) / B ^ (j + 1) % B = y / B ^ j % B := by
  rw [Nat.pow_succ', ← Nat.div_div_eq_div_mul, Nat.add_mul_div_left _ _ (by omega),
    Nat.div_eq_of_lt h, Nat.zero_add]

/-- Digit `j` of the value of a canonical register is its storage word `j` (R17). -/
theorem digit_regVal (r : FieldReg) (hc : ∀ j : Fin 9, (r.get j).word.toNat < 2 ^ 60) (j : Fin 9) :
    digit (regVal r) j = (r.get j).word := by
  apply BitVec.eq_of_toNat_eq
  rw [digit_toNat, regVal_eq, Nat.pow_mul]
  generalize 2 ^ 60 = B at *
  have e : (r.get 0).word.toNat + (r.get 1).word.toNat * B + (r.get 2).word.toNat * B ^ 2
      + (r.get 3).word.toNat * B ^ 3 + (r.get 4).word.toNat * B ^ 4 + (r.get 5).word.toNat * B ^ 5
      + (r.get 6).word.toNat * B ^ 6 + (r.get 7).word.toNat * B ^ 7 + (r.get 8).word.toNat * B ^ 8
      = (r.get 0).word.toNat + B * ((r.get 1).word.toNat + B * ((r.get 2).word.toNat
        + B * ((r.get 3).word.toNat + B * ((r.get 4).word.toNat + B * ((r.get 5).word.toNat
        + B * ((r.get 6).word.toNat + B * ((r.get 7).word.toNat
        + B * ((r.get 8).word.toNat + B * 0)))))))) := by ring
  rw [e]
  match j with
  | 0 => exact digit_zero (hc 0)
  | 1 => exact (digit_succ (hc 0) 0).trans (digit_zero (hc 1))
  | 2 => exact (digit_succ (hc 0) 1).trans ((digit_succ (hc 1) 0).trans (digit_zero (hc 2)))
  | 3 =>
    exact (digit_succ (hc 0) 2).trans ((digit_succ (hc 1) 1).trans ((digit_succ (hc 2) 0).trans
      (digit_zero (hc 3))))
  | 4 =>
    exact (digit_succ (hc 0) 3).trans ((digit_succ (hc 1) 2).trans ((digit_succ (hc 2) 1).trans
      ((digit_succ (hc 3) 0).trans (digit_zero (hc 4)))))
  | 5 =>
    exact (digit_succ (hc 0) 4).trans ((digit_succ (hc 1) 3).trans ((digit_succ (hc 2) 2).trans
      ((digit_succ (hc 3) 1).trans ((digit_succ (hc 4) 0).trans (digit_zero (hc 5))))))
  | 6 =>
    exact (digit_succ (hc 0) 5).trans ((digit_succ (hc 1) 4).trans ((digit_succ (hc 2) 3).trans
      ((digit_succ (hc 3) 2).trans ((digit_succ (hc 4) 1).trans ((digit_succ (hc 5) 0).trans
      (digit_zero (hc 6)))))))
  | 7 =>
    exact (digit_succ (hc 0) 6).trans ((digit_succ (hc 1) 5).trans ((digit_succ (hc 2) 4).trans
      ((digit_succ (hc 3) 3).trans ((digit_succ (hc 4) 2).trans ((digit_succ (hc 5) 1).trans
      ((digit_succ (hc 6) 0).trans (digit_zero (hc 7))))))))
  | 8 =>
    exact (digit_succ (hc 0) 7).trans ((digit_succ (hc 1) 6).trans ((digit_succ (hc 2) 5).trans
      ((digit_succ (hc 3) 4).trans ((digit_succ (hc 4) 3).trans ((digit_succ (hc 5) 2).trans
      ((digit_succ (hc 6) 1).trans ((digit_succ (hc 7) 0).trans (digit_zero (hc 8)))))))))

/-- A written canonical register is the digits of its value (R18). -/
theorem regOf_regVal (r : FieldReg) (hw : ∀ j : Fin 9, (r.get j).written = true)
    (hc : ∀ j : Fin 9, (r.get j).word.toNat < 2 ^ 60) : regOf (regVal r) = r := by
  have h : ∀ j : Fin 9, (regOf (regVal r)).get j = r.get j := by
    intro j
    rw [regOf_get, digit_regVal r hc, slotOf, ← hw j]
  refine Vector.ext fun j hj => ?_
  have := h ⟨j, hj⟩
  simpa only [Vector.get_eq_getElem] using this

end Sys2Proof.Machine
end

