-- ==== Sys2Proof/Laws/PerInstr.lean ====
section
/-! SUPPORT. The statements made for each constructor of `Instr`: a command's word keeps its
reserved bits 63:30 clear (R86, R91 (b)). -/

namespace Sys2Proof.Laws.ReservedClear

/-- The word of a command is below `2^30`. -/
def Statement (i : Instr) : Prop := (encode i).toNat < 2 ^ 30

/-- Fields that fit give a word below `2^30`. -/
theorem wordOf_lt {opc rd rs1 rs2 imm : Nat} (h0 : opc < 256) (h1 : rd < 16) (h2 : rs1 < 16)
    (h3 : rs2 < 16) (h4 : imm < 1024) : (wordOf opc rd rs1 rs2 imm).toNat < 2 ^ 30 := by
  simp only [wordOf, BitVec.toNat_ofNat]
  omega

/-- A point register fits a register field. -/
theorem point_lt (k : PReg) : k.val < 16 := by omega

/-- PDEC's sign fits the immediate field. -/
theorem sign_lt (s : Bool) : s.toNat < 1024 := by cases s <;> decide

theorem nop : Statement (.nop) :=
  wordOf_lt (by decide) (by decide) (by decide) (by decide) (by decide)
theorem mov (rd rs1 : FReg) : Statement (.mov rd rs1) :=
  wordOf_lt (by decide) rd.isLt rs1.isLt (by decide) (by decide)
theorem ldk (rd : FReg) (k : Imm) : Statement (.ldk rd k) :=
  wordOf_lt (by decide) rd.isLt (by decide) (by decide) k.isLt
theorem csel (rd rs1 rs2 : FReg) : Statement (.csel rd rs1 rs2) :=
  wordOf_lt (by decide) rd.isLt rs1.isLt rs2.isLt (by decide)
theorem dadd (rd rs1 rs2 : FReg) : Statement (.dadd rd rs1 rs2) :=
  wordOf_lt (by decide) rd.isLt rs1.isLt rs2.isLt (by decide)
theorem dsub (rd rs1 rs2 : FReg) : Statement (.dsub rd rs1 rs2) :=
  wordOf_lt (by decide) rd.isLt rs1.isLt rs2.isLt (by decide)
theorem dcmp (rs1 rs2 : FReg) : Statement (.dcmp rs1 rs2) :=
  wordOf_lt (by decide) (by decide) rs1.isLt rs2.isLt (by decide)
theorem disz (rs1 : FReg) : Statement (.disz rs1) :=
  wordOf_lt (by decide) (by decide) rs1.isLt (by decide) (by decide)
theorem dshl (rd rs1 : FReg) (n : Imm) : Statement (.dshl rd rs1 n) :=
  wordOf_lt (by decide) rd.isLt rs1.isLt (by decide) n.isLt
theorem dshr (rd rs1 : FReg) (n : Imm) : Statement (.dshr rd rs1 n) :=
  wordOf_lt (by decide) rd.isLt rs1.isLt (by decide) n.isLt
theorem dnorm (rd rs1 : FReg) : Statement (.dnorm rd rs1) :=
  wordOf_lt (by decide) rd.isLt rs1.isLt (by decide) (by decide)
theorem fadd (rd rs1 rs2 : FReg) : Statement (.fadd rd rs1 rs2) :=
  wordOf_lt (by decide) rd.isLt rs1.isLt rs2.isLt (by decide)
theorem fsub (rd rs1 rs2 : FReg) : Statement (.fsub rd rs1 rs2) :=
  wordOf_lt (by decide) rd.isLt rs1.isLt rs2.isLt (by decide)
theorem fneg (rd rs1 : FReg) : Statement (.fneg rd rs1) :=
  wordOf_lt (by decide) rd.isLt rs1.isLt (by decide) (by decide)
theorem mmul (rd rs1 rs2 : FReg) : Statement (.mmul rd rs1 rs2) :=
  wordOf_lt (by decide) rd.isLt rs1.isLt rs2.isLt (by decide)
theorem msqr (rd rs1 : FReg) : Statement (.msqr rd rs1) :=
  wordOf_lt (by decide) rd.isLt rs1.isLt (by decide) (by decide)
theorem tom (rd rs1 : FReg) : Statement (.tom rd rs1) :=
  wordOf_lt (by decide) rd.isLt rs1.isLt (by decide) (by decide)
theorem fromm (rd rs1 : FReg) : Statement (.fromm rd rs1) :=
  wordOf_lt (by decide) rd.isLt rs1.isLt (by decide) (by decide)
theorem finv (rd rs1 : FReg) : Statement (.finv rd rs1) :=
  wordOf_lt (by decide) rd.isLt rs1.isLt (by decide) (by decide)
theorem fsqrt (rd rs1 : FReg) : Statement (.fsqrt rd rs1) :=
  wordOf_lt (by decide) rd.isLt rs1.isLt (by decide) (by decide)
theorem feq (rs1 rs2 : FReg) : Statement (.feq rs1 rs2) :=
  wordOf_lt (by decide) (by decide) rs1.isLt rs2.isLt (by decide)
theorem fpar (rs1 : FReg) : Statement (.fpar rs1) :=
  wordOf_lt (by decide) (by decide) rs1.isLt (by decide) (by decide)
theorem fchk (rs1 : FReg) : Statement (.fchk rs1) :=
  wordOf_lt (by decide) (by decide) rs1.isLt (by decide) (by decide)
theorem padd (pd ps1 ps2 : PReg) : Statement (.padd pd ps1 ps2) :=
  wordOf_lt (by decide) (point_lt pd) (point_lt ps1) (point_lt ps2) (by decide)
theorem pdbl (pd ps1 : PReg) : Statement (.pdbl pd ps1) :=
  wordOf_lt (by decide) (point_lt pd) (point_lt ps1) (by decide) (by decide)
theorem pneg (pd ps1 : PReg) : Statement (.pneg pd ps1) :=
  wordOf_lt (by decide) (point_lt pd) (point_lt ps1) (by decide) (by decide)
theorem pmul (pd ps1 : PReg) (rs2 : FReg) : Statement (.pmul pd ps1 rs2) :=
  wordOf_lt (by decide) (point_lt pd) (point_lt ps1) rs2.isLt (by decide)
theorem pcof (pd ps1 : PReg) : Statement (.pcof pd ps1) :=
  wordOf_lt (by decide) (point_lt pd) (point_lt ps1) (by decide) (by decide)
theorem ponc (ps1 : PReg) : Statement (.ponc ps1) :=
  wordOf_lt (by decide) (by decide) (point_lt ps1) (by decide) (by decide)
theorem pval (ps1 : PReg) : Statement (.pval ps1) :=
  wordOf_lt (by decide) (by decide) (point_lt ps1) (by decide) (by decide)
theorem pdec (pd : PReg) (rs1 : FReg) (s : Bool) : Statement (.pdec pd rs1 s) :=
  wordOf_lt (by decide) (point_lt pd) rs1.isLt (by decide) (sign_lt s)
theorem penc (rd : FReg) (ps1 : PReg) : Statement (.penc rd ps1) :=
  wordOf_lt (by decide) rd.isLt (point_lt ps1) (by decide) (by decide)

end Sys2Proof.Laws.ReservedClear
end

