-- ==== Sys2Proof/Tests/Slice0.lean ====
section
/-! SUPPORT. The model's own tests: the encoding vectors of spec/95_test_vectors.md section 3, the
well-formedness check, at most two vectors a command of its sections 4 to 8, and vectors of its
section 7. Every expected number is the spec's. `+kernel` leaves the evaluation to Lean's kernel. -/

set_option Elab.async false

namespace Sys2Proof.Tests

open Sys2Proof.Machine

/-! ## Well-formedness and decoding -/

/-- The one check of `wellFormed`: an LDK index above 9 is refused (R91 (e)). -/
theorem test_wellFormed_ldk :
    (Instr.ldk 0 9).wellFormed = true ∧ (Instr.ldk 0 10).wellFormed = false ∧
      (Instr.ldk 15 1023).wellFormed = false := by decide

/-- The decoder refuses the word of that ill-formed term (95 section 3). -/
theorem test_decode_ldk_index :
    decode 0x0000000000A00002 = .illegal .ldkIndex ∧
      decode 0x0000000000900002 = .legal (.ldk 0 9) := by decide

/-- One word written out field by field: RSV, IMM, RS2, RS1, RD, OPC (R86), for a command of each
engine. -/
theorem test_decode_bit_by_bit :
    decode 0b0000000000000000000000000000000000_0001100100_0000_0001_0011_00001000 =
      .legal (.dshl 3 1 100) ∧
    decode 0b0000000000000000000000000000000000_0000000000_0010_0001_0011_00010011 =
      .legal (.mmul 3 1 2) ∧
    decode 0b0000000000000000000000000000000000_0000000001_0000_1100_0011_00100111 =
      .legal (.pdec 3 12 true) := by decide

/-- The Digit Vector words of 95 section 3. -/
theorem test_decode_digit_vector :
    decode 0x0000000000000000 = .legal (.nop) ∧
    decode 0x0000000000001301 = .legal (.mov 3 1) ∧
    decode 0x0000000000400302 = .legal (.ldk 3 4) ∧
    decode 0x0000000000021303 = .legal (.csel 3 1 2) ∧
    decode 0x0000000000021304 = .legal (.dadd 3 1 2) ∧
    decode 0x0000000000021305 = .legal (.dsub 3 1 2) ∧
    decode 0x0000000000021006 = .legal (.dcmp 1 2) ∧
    decode 0x0000000000001007 = .legal (.disz 1) ∧
    decode 0x0000000006401308 = .legal (.dshl 3 1 100) ∧
    decode 0x0000000006401309 = .legal (.dshr 3 1 100) ∧
    decode 0x000000000000130A = .legal (.dnorm 3 1) := by decide

/-- The Field Engine words of 95 section 3. -/
theorem test_decode_field_engine :
    decode 0x0000000000021310 = .legal (.fadd 3 1 2) ∧
    decode 0x0000000000021311 = .legal (.fsub 3 1 2) ∧
    decode 0x0000000000001312 = .legal (.fneg 3 1) ∧
    decode 0x0000000000021313 = .legal (.mmul 3 1 2) ∧
    decode 0x0000000000001314 = .legal (.msqr 3 1) ∧
    decode 0x0000000000001315 = .legal (.tom 3 1) ∧
    decode 0x0000000000001316 = .legal (.fromm 3 1) ∧
    decode 0x0000000000001317 = .legal (.finv 3 1) ∧
    decode 0x0000000000001318 = .legal (.fsqrt 3 1) ∧
    decode 0x0000000000021019 = .legal (.feq 1 2) ∧
    decode 0x000000000000101A = .legal (.fpar 1) ∧
    decode 0x000000000000101B = .legal (.fchk 1) := by decide

/-- The Point Engine words of 95 section 3. -/
theorem test_decode_point_engine :
    decode 0x0000000000021320 = .legal (.padd 3 1 2) ∧
    decode 0x0000000000001321 = .legal (.pdbl 3 1) ∧
    decode 0x0000000000001322 = .legal (.pneg 3 1) ∧
    decode 0x00000000000C1323 = .legal (.pmul 3 1 12) ∧
    decode 0x0000000000001324 = .legal (.pcof 3 1) ∧
    decode 0x0000000000001025 = .legal (.ponc 1) ∧
    decode 0x0000000000001026 = .legal (.pval 1) ∧
    decode 0x000000000010C327 = .legal (.pdec 3 12 true) ∧
    decode 0x0000000000001C28 = .legal (.penc 12 1) := by decide

/-- The illegal words of 95 section 3, with the condition of R91 each breaks. -/
theorem test_decode_illegal :
    decode 0x000000000000000B = .illegal .opcode ∧
    decode 0x00000000000000FF = .illegal .opcode ∧
    decode 0x0000000040000013 = .illegal .reserved ∧
    legal 0x8000000000000000 = false ∧
    decode 0x0000000000000100 = .illegal .unusedField ∧
    decode 0x0000000000032112 = .illegal .unusedField ∧
    decode 0x0000000000032106 = .illegal .unusedField ∧
    decode 0x0000000000028120 = .illegal .pointField ∧
    decode 0x00000000000F0123 = .legal (.pmul 1 0 15) ∧
    decode 0x0000000000202127 = .illegal .pdecImm ∧
    decode 0x000000003FF02108 = .legal (.dshl 1 2 1023) ∧
    decode 0x0000000000100013 = .illegal .unusedField := by decide

/-- An assembler line, a pseudo-instruction, and two rejected lines (R97, R98). -/
theorem test_assemble :
    assembleWords "  pmul P3, P1, F12 ; k".toList = some [0x00000000000C1323] ∧
    assembleWords "PLDID P0".toList = some [0x0000000000000002, 0x0000000000200102] ∧
    assembleWords "LDK F1, #10".toList = none ∧
    assembleWords "MOV F1, F16".toList = none := by decide +kernel

/-! ## The meanings, on the spec's configuration TC1 -/

/-- TC1 (95 section 2). The spec determines no `Q`, `GX` and `GY` for it; the vectors used here hold
for every odd `Q`, or every `Q` above the scalar. -/
def tc1 : Cfg where
  p := 2 ^ 256 * 2 ^ 256 - 569
  r2 := 0x4F0B100000000000000
  mconst := 0x8A1F7E6CE0F4C09
  a := 1
  d := 2 ^ 256 * 2 ^ 256 - 569 - 78296
  cof := 4
  q := 2 ^ 255 * 2 ^ 245 + 1
  gx := 0
  gy := 1

/-- A machine after reset whose registers have been loaded. -/
def loaded (c : Cfg) (l : List (FReg × Nat)) : State :=
  l.foldl (fun s x => s.setVal x.1 x.2) { State.reset with cfg := c, basePage := 0 }

/-- A register full of one word. -/
def fullOf (w : Word) : FieldReg := Vector.replicate 9 (slotOf w)

/-- What a command leaves: the value of a register, FLAGS and STATUS. -/
def answer (i : Instr) (s : State) (r : FReg) : Option (Nat × Nat × Nat) :=
  match exec i s with
  | .next t => some (regVal (t.reg r), (flagsWord t.flags).toNat, (statusWord t).toNat)
  | .fault _ => none
  | .refused _ => none

/-- The storage words a command leaves in a register. -/
def wordsAfter (i : Instr) (s : State) (r : FReg) : Option (List Word) :=
  match exec i s with
  | .next t => some ((t.reg r).toList.map Slot.word)
  | .fault _ => none
  | .refused _ => none

/-- The model faults a command leaves recorded. -/
def faultsAfter (i : Instr) (s : State) : Option ModelFaults :=
  match exec i s with
  | .next t => some t.faults
  | .fault _ => none
  | .refused _ => none

/-- A point of TC1: `P = (3, yP)` (95 section 6). -/
def yP : Nat :=
  0xC649C03964788F18AB448ACC632301A8F736DBCE071413F88D25DA38514DD9C5AACB3865D2CD970C483F42DB5EF16D23AAE52498367DEEAF99EB5B33543FA220

/-- Registers `P0 = P`. -/
def withP : State := (loaded tc1 []).setPoint 0 ⟨3, yP⟩

/-- What a command leaves in a point register: both stored coordinates in normal form, FLAGS and
STATUS. -/
def pointAfter (i : Instr) (s : State) (k : PReg) : Option (Nat × Nat × Nat × Nat) :=
  match exec i s with
  | .next t => some (tc1.unmont (regVal (t.reg (xReg k))), tc1.unmont (regVal (t.reg (yReg k))),
      (flagsWord t.flags).toNat, (statusWord t).toNat)
  | .fault _ => none
  | .refused _ => none

/-- V-D33. -/
theorem test_nop : answer (.nop)
    (loaded tc1 [(3, 5)]) 3 = some (5, 0, 2) := by decide +kernel

/-- V-D27: the words verbatim. -/
theorem test_mov : wordsAfter (.mov 2 1)
    ((loaded tc1 []).setReg 1 (fullOf 0xF000000000000001)) 2 = 
      some (List.replicate 9 0xF000000000000001) := by decide +kernel

/-- V-D31: `K(6)`. -/
theorem test_ldk_d : answer (.ldk 3 6)
    (loaded tc1 []) 3 = some (
      0xFFFFFFFFFFFFFFFFFFFFFFFFFFFFFFFFFFFFFFFFFFFFFFFFFFFFFFFFFFFFFFFFFFFFFFFFFFFFFFFFFFFFFFFFFFFFFFFFFFFFFFFFFFFFFFFFFFD5836E7FFFFDC7, 0, 2) := by decide +kernel

/-- V-D30: `K(4)`. -/
theorem test_ldk_r2 : answer (.ldk 3 4)
    (loaded tc1 []) 3 = some (0x4F0B100000000000000, 0, 2) := by decide +kernel

/-- V-D29. -/
theorem test_csel_0 : answer (.csel 3 1 2)
    (loaded tc1 [(1, 5), (2, 7)]) 3 = some (7, 0, 2) := by decide +kernel

/-- V-D28. -/
theorem test_csel_1 : answer (.csel 3 1 2)
    ((loaded tc1 [(1, 5), (2, 7)]).setT true) 3 = some (5, 4, 2) := by decide +kernel

/-- V-D2. -/
theorem test_dadd_carry : answer (.dadd 3 1 2)
    (loaded tc1 [(1, radix - 1), (2, 1)]) 3 = some (0, 1, 2) := by decide +kernel

/-- V-D3: one register read twice. -/
theorem test_dadd_alias : answer (.dadd 3 1 1)
    (loaded tc1 [(1, radix - 1)]) 3 = some (radix - 2, 1, 2) := by decide +kernel

/-- V-D5. -/
theorem test_dsub_borrow : answer (.dsub 3 1 2)
    (loaded tc1 [(1, 0), (2, 1)]) 3 = some (radix - 1, 2, 2) := by decide +kernel

/-- V-D7. -/
theorem test_dsub_digit : answer (.dsub 3 1 2)
    (loaded tc1 [(1, 2 ^ 60), (2, 1)]) 3 = some (2 ^ 60 - 1, 0, 2) := by decide +kernel

/-- V-D8. -/
theorem test_dcmp_less : answer (.dcmp 1 2)
    (loaded tc1 [(1, 1), (2, 2 ^ 60)]) 1 = some (1, 16, 2) := by decide +kernel

/-- V-D11. -/
theorem test_dcmp_greater : answer (.dcmp 1 2)
    (loaded tc1 [(1, tc1.p), (2, tc1.p - 1)]) 2 = some (tc1.p - 1, 32, 2) := by decide +kernel

/-- V-D12. -/
theorem test_disz_zero : answer (.disz 1)
    (loaded tc1 [(1, 0)]) 1 = some (0, 4, 2) := by decide +kernel

/-- V-D13: the integer, not the residue. -/
theorem test_disz_p : answer (.disz 1)
    (loaded tc1 [(1, tc1.p)]) 1 = some (tc1.p, 0, 2) := by decide +kernel

/-- V-D19. -/
theorem test_dshl_lost : answer (.dshl 3 1 4)
    (loaded tc1 [(1, 2 ^ 236 * 2 ^ 300 + 1)]) 3 = some (16, 1, 2) := by decide +kernel

/-- V-D17. -/
theorem test_dshl_540 : answer (.dshl 3 1 540)
    (loaded tc1 [(1, 1)]) 3 = some (0, 1, 2) := by decide +kernel

/-- V-D21. -/
theorem test_dshr_lost : answer (.dshr 3 1 60)
    (loaded tc1 [(1, 2 ^ 60 + 5)]) 3 = some (1, 1, 2) := by decide +kernel

/-- V-D23. -/
theorem test_dshr_0 : answer (.dshr 3 1 0)
    (loaded tc1 [(1, 7)]) 3 = some (7, 0, 2) := by decide +kernel

/-- V-D26: every bit of every word. -/
theorem test_dnorm_full : wordsAfter (.dnorm 2 1)
    ((loaded tc1 []).setReg 1 (fullOf 0xFFFFFFFFFFFFFFFF)) 2 = 
      some [0xFFFFFFFFFFFFFFF, 0xE, 0xF, 0xF, 0xF, 0xF, 0xF, 0xF, 0xF] := by decide +kernel

/-- V-D25: the headroom of word 8 has weight `2^540`. -/
theorem test_dnorm_top : answer (.dnorm 2 1)
    ((loaded tc1 []).setReg 1
      (Vector.set (fullOf 0) 8 (slotOf 0x1000000000000000))) 2 = some (0, 1, 2) := by decide +kernel

/-- V-F1. -/
theorem test_fadd_wrap : answer (.fadd 3 1 2)
    (loaded tc1 [(1, tc1.p - 1), (2, 1)]) 3 = some (0, 0, 2) := by decide +kernel

/-- V-F2. -/
theorem test_fadd_alias : answer (.fadd 3 1 1)
    (loaded tc1 [(1, tc1.p - 1)]) 3 = some (tc1.p - 2, 0, 2) := by decide +kernel

/-- V-F3: B is not written. -/
theorem test_fsub_wrap : answer (.fsub 3 1 2)
    (loaded tc1 [(1, 0), (2, 1)]) 3 = some (tc1.p - 1, 0, 2) := by decide +kernel

/-- V-F5. -/
theorem test_fneg_zero : answer (.fneg 3 1)
    (loaded tc1 [(1, 0)]) 3 = some (0, 0, 2) := by decide +kernel

/-- V-F6. -/
theorem test_fneg_one : answer (.fneg 3 1)
    (loaded tc1 [(1, 1)]) 3 = some (tc1.p - 1, 0, 2) := by decide +kernel

/-- V-F8. -/
theorem test_mmul : answer (.mmul 3 1 2)
    (loaded tc1 [(1, 0x4720000000), (2, 0x6AB0000000)]) 3 = some (0xD560000000, 0, 2) := by decide +kernel

/-- V-A2: the destination is both sources. -/
theorem test_mmul_alias : answer (.mmul 1 1 1)
    (loaded tc1 [(1, 0x6AB0000000)]) 1 = some (0x14010000000, 0, 2) := by decide +kernel

/-- V-F11. -/
theorem test_msqr : answer (.msqr 3 1)
    (loaded tc1 [(1, 0x4720000000)]) 3 = some (0x8E40000000, 0, 2) := by decide +kernel

/-- V-F13. -/
theorem test_tom : answer (.tom 3 1)
    (loaded tc1 [(1, tc1.p - 1)]) 3 = some (
      0xFFFFFFFFFFFFFFFFFFFFFFFFFFFFFFFFFFFFFFFFFFFFFFFFFFFFFFFFFFFFFFFFFFFFFFFFFFFFFFFFFFFFFFFFFFFFFFFFFFFFFFFFFFFFFFFFFFFFFFDC6FFFFDC7, 0, 2) := by decide +kernel

/-- V-F15: `Rinv`. -/
theorem test_fromm : answer (.fromm 3 1)
    (loaded tc1 [(1, 1)]) 3 = some (
      0xAB5CA98160BB29D782064C7C2CFDC01CCB5C3B636E3A7D1358A1F7E6CE0F4C08FF8CD28F127247160BB29D782064C7C2CFDC01CCB5C3B636E3A7D1358A1F7CF0, 0, 2) := by decide +kernel

/-- V-A3. -/
theorem test_finv_alias : answer (.finv 1 1)
    (loaded tc1 [(1, 0x4720000000)]) 1 = some (0x11C8000000, 4, 2) := by decide +kernel

/-- V-F19. -/
theorem test_finv_zero : answer (.finv 3 1)
    (loaded tc1 [(1, 0)]) 3 = some (0, 0, 0x402) := by decide +kernel

/-- V-F20. -/
theorem test_fsqrt : answer (.fsqrt 3 1)
    (loaded tc1 [(1, 0x8E40000000)]) 3 = some (0x4720000000, 4, 2) := by decide +kernel

/-- V-F22. -/
theorem test_fsqrt_none : answer (.fsqrt 3 1)
    (loaded tc1 [(1, tc1.mont (tc1.p - 1))]) 3 = some (0, 0, 0x502) := by decide +kernel

/-- V-F25: the stored integers. -/
theorem test_feq_forms : answer (.feq 1 2)
    (loaded tc1 [(1, 1), (2, 0x2390000000)]) 1 = some (1, 0, 2) := by decide +kernel

/-- V-F26: no range contract. -/
theorem test_feq_p : answer (.feq 1 2)
    (loaded tc1 [(1, tc1.p), (2, tc1.p)]) 1 = some (tc1.p, 4, 2) := by decide +kernel

/-- V-F27. -/
theorem test_fpar_one : answer (.fpar 1)
    (loaded tc1 [(1, 0x2390000000)]) 1 = some (0x2390000000, 8, 2) := by decide +kernel

/-- V-F30. -/
theorem test_fpar_two : answer (.fpar 1)
    (loaded tc1 [(1, 0x4720000000)]) 1 = some (0x4720000000, 0, 2) := by decide +kernel

/-- V-F32. -/
theorem test_fchk_below : answer (.fchk 1)
    (loaded tc1 [(1, tc1.p - 1)]) 1 = some (tc1.p - 1, 4, 2) := by decide +kernel

/-- V-F33. -/
theorem test_fchk_p : answer (.fchk 1)
    (loaded tc1 [(1, tc1.p)]) 1 = some (tc1.p, 0, 0x102) := by decide +kernel

/-- V-A4: the destination is both sources. -/
theorem test_padd_alias : pointAfter (.padd 0 0 0) withP 0 = 
    some (0xA625B09285472600253C128B0368C44B00BEDCA5483E2697831CAFEC32E4C32A03622BD960DF7F82AD3B5174D7D2120E220EB3B1BC8F18FCEFA311AAFACC6A45,
      0xD856297DCA4B71204854E2C1FFBD7D4A968759248790CFCF52D870419101AFA78B0C168C85EEFCFA84D581E131245176E1520D3D61E37D227D867ECF9ED43D05, 0, 2) := by decide +kernel

/-- V-P5. -/
theorem test_padd_neg : pointAfter (.padd 2 0 1) (withP.setPoint 1 ⟨tc1.p - 3, yP⟩) 2 = 
    some (0,
      1, 0, 2) := by decide +kernel

/-- V-P6. -/
theorem test_pdbl : pointAfter (.pdbl 1 0) withP 1 = 
    some (0xA625B09285472600253C128B0368C44B00BEDCA5483E2697831CAFEC32E4C32A03622BD960DF7F82AD3B5174D7D2120E220EB3B1BC8F18FCEFA311AAFACC6A45,
      0xD856297DCA4B71204854E2C1FFBD7D4A968759248790CFCF52D870419101AFA78B0C168C85EEFCFA84D581E131245176E1520D3D61E37D227D867ECF9ED43D05, 0, 2) := by decide +kernel

/-- V-P7. -/
theorem test_pdbl_t2 : pointAfter (.pdbl 1 0) ((loaded tc1 []).setPoint 0 ⟨0, tc1.p - 1⟩) 1 = 
    some (0,
      1, 0, 2) := by decide +kernel

/-- V-P13. -/
theorem test_pneg : pointAfter (.pneg 1 0) withP 1 = 
    some (tc1.p - 3,
      yP, 0, 2) := by decide +kernel

/-- V-P10. -/
theorem test_pmul_3 : pointAfter (.pmul 1 0 12) (withP.setVal 12 3) 1 = 
    some (0x7D1C0A209A173E36159CA1BD3DBE750035D7454F062624F726C14CD9871D8A11F1127D02260923C00AEFE118D79F11B3787E858305903161BBFC50C850BF67F5,
      0x2343FEFC34EE0C88DF4050AA3D2A30CDBCCA3D5C7ACE64A738EC8B02E20ED432D1A88CE2B9F33ADB1107DB77656E69B663EFD9E5BC7152D0A359A678BF028C03, 0, 2) := by decide +kernel

/-- V-P8. -/
theorem test_pmul_0 : pointAfter (.pmul 1 0 12) (withP.setVal 12 0) 1 = 
    some (0,
      1, 0, 2) := by decide +kernel

/-- V-P11. -/
theorem test_pcof : pointAfter (.pcof 1 0) withP 1 = 
    some (0xC972CDE4B10A3808585DB679EB1828C87079B6FE8439A2C911536A59CCA176C2511C8CB4E50FA2B089CC58CC45BBB81D96492A46F798496820FF0F5B00923C06,
      0xBB1E21A3974788380FEECDE47BA2343FB19C206BB08B1667DBF7AB1E54F8686715412E00A71C3E55261FD80FB8F4BE05D3B6E4C74402CD74B44F75B01A368D29, 0, 2) := by decide +kernel

/-- V-P25. -/
theorem test_ponc_off : answer (.ponc 0)
    (loaded tc1 [(0, 0x6AB0000000), (1, 0x6AB0000000)]) 0 = some (0x6AB0000000, 0, 0x202) := by decide +kernel

/-- V-P24. -/
theorem test_ponc_range : answer (.ponc 0)
    (loaded tc1 [(0, tc1.p), (1, 0x2390000000)]) 0 = some (tc1.p, 0, 0x102) := by decide +kernel

/-- V-P27, which holds for every odd `Q`. -/
theorem test_pval_t2 : answer (.pval 0)
    (loaded { tc1 with q := 3 } [(0, 0), (1, tc1.mont (tc1.p - 1))]) 0 = some (0, 0, 0x302) := by decide +kernel

/-- V-P26. -/
theorem test_pval_zero : answer (.pval 0)
    (loaded { tc1 with q := 3 } [(0, 0), (1, 0x2390000000)]) 0 = some (0, 0, 0x602) := by decide +kernel

/-- V-P2. -/
theorem test_pdec_sign : pointAfter (.pdec 1 12 true) (loaded tc1 [(12, 3)]) 1 = 
    some (3,
      tc1.p - yP, 4, 2) := by decide +kernel

/-- V-P15: the raw sentinel. -/
theorem test_pdec_none : pointAfter (.pdec 1 12 false) (loaded tc1 [(12, 2)]) 1 = 
    some (0,
      0, 0, 0x102) := by decide +kernel

/-- V-A6: the stored y coordinate stays. -/
theorem test_penc_alias : (answer (.penc 0 0) withP 0, answer (.penc 0 0) withP 1) = 
    (some (3, 0, 2), some (tc1.mont yP, 0, 2)) := by decide +kernel

/-- The model-fault vectors of 95 sections 5 and 6. -/
theorem test_model_faults :
    faultsAfter (.fadd 3 1 2) (loaded tc1 [(1, tc1.p), (2, 0)]) = some ⟨false, false, true, false⟩ ∧
    faultsAfter (.mmul 3 1 2) ((loaded tc1 [(2, 0)]).setReg 1 (fullOf 0x1000000000000000)) =
      some ⟨false, true, false, false⟩ ∧
    faultsAfter (.fneg 3 1) (loaded tc1 []) = some ⟨true, false, false, false⟩ ∧
    faultsAfter (.padd 2 0 1) (loaded tc1 [(0, 0), (1, 0), (2, 0), (3, 0x2390000000)]) =
      some ⟨false, false, false, true⟩ ∧
    faultsAfter (.fchk 1) (loaded tc1 [(1, tc1.p)]) = some ModelFaults.none := by decide +kernel

/-- Which flags out-of-contract operands leave open: all after PADD (R133 (a)), none of them after
FADD, T alone after FINV (R116). -/
theorem test_unspecified_flags :
    unspecifiedFlags (.padd 2 0 1) = ⟨true, true, true, true, true⟩ ∧
    unspecifiedFlags (.fadd 3 1 2) = ⟨false, false, false, false, false⟩ ∧
    unspecifiedFlags (.finv 3 1) = ⟨false, false, true, false, false⟩ := by decide

/-! ## The host interface (95 section 7) -/

/-- What one step answers to one access of an idle or busy machine: STATUS, LASTCMD, `irq` and the
reply. -/
def access (s : State) (e : Event) : Option (Nat × Nat × Bool × Option Reply) :=
  match step { s with inbox := [e] } with
  | .next t => some ((statusWord t).toNat, t.lastCmd.toNat, t.irq, t.replies.head?)
  | .fault _ => none
  | .refused _ => none

/-- IRQ_EN set and `F0 = 5`, after V-H4. -/
def afterH4 : State := { loaded tc1 [(0, 5)] with irqEn := true }

/-- `DISZ F0` in flight, after V-H5. -/
def afterH5 : State := afterH4.issue 0x7

/-- V-H2. -/
theorem test_read_id :
    access (loaded tc1 []) (readAt 0 0x00) = some (0, 0, false, some (.data 0x001002003C090100)) := by
  decide +kernel

/-- V-H5. -/
theorem test_issue : access afterH4 (writeAt 0 0x20 0x7) = some (1, 7, false, some .ack) := by
  decide +kernel

/-- V-H6. -/
theorem test_issue_busy : access afterH5 (writeAt 0 0x20 0) = some (9, 7, false, some .ack) := by
  decide +kernel

/-- V-H7. -/
theorem test_read_busy :
    access afterH5 (readAt 0 0x0800) = some (9, 7, false, some (.data 0)) := by decide +kernel

/-- V-H8, here without the OVR of V-H6 and V-H7. -/
theorem test_core_turn : access afterH5 .coreTurn = some (2, 7, true, none) := by decide +kernel

/-- V-H9, without OVR. -/
theorem test_acknowledge :
    access { afterH4 with status := ⟨true, false, true, .ok⟩ } (writeAt 0 0x10 0xA) =
      some (0, 0, false, some .ack) := by decide +kernel

/-- V-H10. -/
theorem test_issue_illegal :
    access afterH4 (writeAt 0 0x20 0xB) = some (0x706, 0xB, true, some .ack) := by decide +kernel

/-- V-H14. -/
theorem test_unaligned :
    access { afterH4 with status := ⟨true, true, false, .ok⟩, irqEn := false } (readAt 0 0x04) =
      some (6, 0, false, some .busError) := by decide +kernel

/-- V-H16: the soft reset of a busy core. -/
theorem test_soft_reset :
    access { afterH5 with status := ⟨false, true, false, .ok⟩ } (writeAt 0 0x08 2) =
      some (0, 0, false, some .ack) := by decide +kernel

/-- The first command after reset runs: the host's table word of `LDK F3, #1`. -/
theorem test_withFetchWord :
    (match step (State.reset.withFetchWord 32 0x00100302) with
      | .next t => some (regVal (t.reg 3), (statusWord t).toNat)
      | .fault _ => none
      | .refused _ => none) = some (1, 2) := by decide +kernel

/-! ## Witnesses: for every statement with hypotheses, a state and operands that meet them -/

/-- A small record that meets every constraint of R12. -/
def small : Cfg where
  p := 43
  r2 := 4
  mconst := 938424480493945213
  a := 1
  d := 5
  cof := 4
  q := 13
  gx := 2
  gy := 39

theorem test_small_valid : small.Valid where
  prime := by norm_num [small]
  big := by decide
  fits := by decide +kernel
  r2 := by decide +kernel
  mconstDigit := by decide +kernel
  mconst := by decide +kernel
  a := rfl
  dReduced := by decide
  dNonSquare := by decide +kernel
  cof := rfl
  qPrime := by norm_num [small]
  order := by decide +kernel
  gOnCurve := by decide +kernel
  gOrder := by decide +kernel
  mod4 := by decide

/-- An idle machine: `P0 = G`, `P1 = O`, the bounds of the contracts in `F4` to `F8`, square and
non-square residues in `F9` and `F10`, the word `2^60` in every word of `F11`, the sentinel in `P6`,
an x without y in `F14`, and `F15` never written. -/
def idle : State :=
  ((((loaded small
    [(4, 0), (5, 42), (6, 43), (7, radix - 1), (8, 13), (9, small.mont 4), (10, small.mont 5),
      (12, 0), (13, 0), (14, 3)]).setPoint 0 ⟨2, 39⟩).setPoint 1 .zero).setReg 11
        (fullOf 0x1000000000000000)).setT true

/-- The same machine with `MMUL F4, F5, F5` in flight. -/
def busy : State := idle.issue 0x0000000000055413

/-- An event list meets an access to be done. -/
def meets (s : State) (l : List Event) : State := { s with inbox := l }

/-- Whether a step goes on. -/
def goesOn (o : Host.Outcome State Fault Refusal) : Bool :=
  match o with
  | .next _ => true
  | .fault _ => false
  | .refused _ => false

theorem next_of_goesOn {o : Host.Outcome State Fault Refusal} (h : goesOn o = true) :
    ∃ t, o = .next t := by
  cases o with
  | next t => exact ⟨t, rfl⟩
  | fault r => cases h
  | refused r => cases h

theorem witness_DecodeOfEncode :
    (Instr.ldk 15 9).wellFormed = true ∧ (Instr.pdec 7 15 true).wellFormed = true := by decide

theorem witness_LegalWord : decode 0x000000003FF0FF09 = .legal (.dshr 15 15 1023) := by decide

/-- Both clauses: a legal word; a command in flight with an empty inbox, and with the core's turn
next. -/
theorem witness_StepRuns :
    decode 0x0000000000055413 = .legal (.mmul 4 5 5) ∧
    busy.inflight = some ⟨.mmul 4 5 5, idle.snapshot⟩ ∧ busy.inbox = [] ∧
    (meets busy [.coreTurn]).inbox = .coreTurn :: [] := by
  refine ⟨by decide, by decide +kernel, by decide +kernel, rfl⟩

/-- With the contract met (`F5 = p - 1`) and not met (`F6 = p`). -/
theorem witness_LegalCommandIsAccepted :
    (meets idle [writeAt 0 0x20 0x0000000000055413]).busy = false ∧
    decode 0x0000000000055413 = .legal (.mmul 4 5 5) ∧
    decode 0x0000000000065413 = .legal (.mmul 4 5 6) ∧
    Claims.ContractHolds idle.cfg idle.snapshot (.mmul 4 5 5) ∧
    ¬ Claims.ContractHolds idle.cfg idle.snapshot (.mmul 4 5 6) := by
  refine ⟨by decide +kernel, by decide, by decide, ?_, ?_⟩
  · change idle.snapshot.Reduced idle.cfg 5 ∧ idle.snapshot.Reduced idle.cfg 5
    decide +kernel
  · change ¬ (idle.snapshot.Reduced idle.cfg 5 ∧ idle.snapshot.Reduced idle.cfg 6)
    decide +kernel

theorem witness_IllegalCommand :
    idle.busy = false ∧ ¬ Claims.legalByRules 0x000000000000000B ∧
      ¬ Claims.legalByRules 0x8000000000000000 := by
  refine ⟨by decide +kernel, ?_, ?_⟩ <;> unfold Claims.legalByRules <;> decide

/-- Every word of the FREG window has its access; the corners `S(0, 0)` and `S(15, 8)`. -/
theorem witness_BusyLockout :
    busy.busy = true ∧ (meets busy [writeAt busy.base 0x20 0]).busy = true ∧
    fregOffset 0 0 = 0x0800 ∧ fregOffset 15 8 = 0x0FC0 := by
  refine ⟨by decide +kernel, by decide +kernel, by decide, by decide⟩

/-- For the three statements about every well-formed command. -/
theorem witness_WellFormedCommands :
    (Instr.fneg 3 5).wellFormed = true ∧
    Claims.ContractHolds idle.cfg (operands idle) (.fneg 3 5) ∧
    ¬ Claims.ContractHolds idle.cfg (operands idle) (.fneg 3 15) := by
  refine ⟨rfl, ?_, ?_⟩
  · change (operands idle).Reduced idle.cfg 5
    decide +kernel
  · change ¬ (operands idle).Reduced idle.cfg 15
    decide +kernel

/-- UNINIT `F15`, NONCANON `F11`, RANGE `F6 = p`, OFFCURVE the sentinel in `P6`; as the first operand
and, for a second one and a y coordinate, after a first that is in contract. -/
theorem witness_ModelFaultKinds :
    Claims.ContractFails idle.cfg (operands idle) (.fneg 3 15) .uninit ∧
    Claims.ContractFails idle.cfg (operands idle) (.dadd 3 7 11) .noncanon ∧
    Claims.ContractFails idle.cfg (operands idle) (.mmul 3 5 6) .range ∧
    Claims.ContractFails idle.cfg (operands idle) (.padd 3 0 6) .offcurve ∧
    Claims.ContractFails idle.cfg (operands idle) (.pdbl 3 7) .uninit := by
  refine ⟨.inl (.inl ?_), .inr ⟨?_, .inr ?_⟩, .inr ⟨?_, .inr ?_⟩, .inr ⟨?_, .inr (.inr ?_)⟩,
    .inr (.inl ⟨?_, .inl (.inl ?_)⟩)⟩
  · change ¬ (operands idle).Written 15 ∧ ModelFault.uninit = .uninit
    decide +kernel
  all_goals first
    | decide +kernel
    | (change ¬ (operands idle).Written _ ∧ ModelFault.uninit = .uninit
       decide +kernel)

theorem witness_Persist : ∃ t, step (meets busy [.hardReset]) = .next t := ⟨_, rfl⟩

theorem witness_Nop : idle.status.illegal = false ∧ idle.status.ovr = false := by decide +kernel

/-- MOV and DNORM: a written register, not canonical and canonical. -/
theorem witness_Written :
    (operands idle).Written 11 ∧ ¬ (operands idle).Canonical 11 ∧ (operands idle).Canonical 7 := by
  decide +kernel

/-- LDK: the last index. -/
theorem witness_Ldk : small.Valid ∧ idle.cfg = small ∧ (9 : Imm).toNat ≤ 9 :=
  ⟨test_small_valid, rfl, by decide⟩

/-- CSEL: T 1, and T 0. -/
theorem witness_Csel :
    ((operands idle).Written 4 ∧ (operands idle).Written 7 ∧ (operands idle).t = true) ∧
    (operands (idle.setT false)).Written 4 ∧ (operands (idle.setT false)).Written 7 ∧
    (operands (idle.setT false)).t = false := by decide +kernel

/-- The Digit Vector commands, DISZ, FEQ and FCHK: `0`, `p` and `2^540 - 1` are canonical. -/
theorem witness_Canonical :
    (operands idle).Canonical 4 ∧ (operands idle).Canonical 6 ∧ (operands idle).Canonical 7 ∧
    (operands idle).val 4 = 0 ∧ (operands idle).val 6 = idle.cfg.p ∧
    (operands idle).val 7 = radix - 1 := by decide +kernel

/-- The Field Engine commands: `0` and `p - 1` are field-reduced. -/
theorem witness_Reduced :
    idle.cfg.Valid ∧ (operands idle).Reduced idle.cfg 4 ∧ (operands idle).Reduced idle.cfg 5 ∧
    (operands idle).val 4 = 0 ∧ (operands idle).val 5 = idle.cfg.p - 1 :=
  ⟨test_small_valid, by decide +kernel⟩

/-- FSQRT, FPAR: `4` is a square modulo 43 and `5` is none, each in Montgomery form. -/
theorem witness_Fsqrt :
    (operands idle).Reduced idle.cfg 9 ∧ (4 < idle.cfg.p ∧
      radix * 4 % idle.cfg.p = (operands idle).val 9 ∧ ∃ y, y * y % idle.cfg.p = 4) ∧
    (operands idle).Reduced idle.cfg 10 ∧ 5 < idle.cfg.p ∧
      radix * 5 % idle.cfg.p = (operands idle).val 10 ∧ ¬ ∃ y, y * y % idle.cfg.p = 5 := by
  refine ⟨by decide +kernel, ⟨by decide +kernel, by decide +kernel, 2, by decide +kernel⟩,
    by decide +kernel, by decide +kernel, by decide +kernel, ?_⟩
  rintro ⟨y, hy⟩
  have h := test_small_valid.dNonSquare (y % 43) (Nat.mod_lt _ (by decide))
  change y % 43 * (y % 43) % 43 ≠ 5 at h
  rw [← Nat.mul_mod] at h
  exact h hy

/-- PADD, PDBL, PCOF, PMUL: the generator and the identity; scalars `0` and `Q` (both reduce to 0) and
`Q + 1`, which reduces to 1. -/
theorem witness_OnCurve :
    idle.cfg.Valid ∧ (operands idle).OnCurve idle.cfg 0 ∧ (operands idle).OnCurve idle.cfg 1 ∧
    ((operands idle).Canonical 4 ∧ (operands idle).val 4 % idle.cfg.q = 0) ∧
    ((operands idle).Canonical 8 ∧ (operands idle).val 8 % idle.cfg.q = 0) ∧
    (operands (idle.setVal 8 14)).Canonical 8 ∧
    (operands (idle.setVal 8 14)).val 8 % idle.cfg.q = 1 :=
  ⟨test_small_valid, by decide +kernel⟩

/-- PNEG, PENC: a point on the curve, its coordinates in both forms. -/
theorem witness_PnegPenc :
    idle.cfg.Valid ∧ (operands idle).Reduced idle.cfg (xReg 0) ∧
    (operands idle).Reduced idle.cfg (yReg 0) ∧
    idle.cfg.onCurve ((operands idle).pt idle.cfg 0) = true ∧
    2 < idle.cfg.p ∧ radix * 2 % idle.cfg.p = (operands idle).val (xReg 0) ∧
    39 < idle.cfg.p ∧ radix * 39 % idle.cfg.p = (operands idle).val (yReg 0) :=
  ⟨test_small_valid, by decide +kernel⟩

/-- LadderGives, AdditionLaw, WordSerial: points of the curve, reduced operands. -/
theorem witness_Curve :
    small.Valid ∧ small.onCurve ⟨2, 39⟩ = true ∧ small.onCurve .zero = true ∧ 42 < small.p ∧
      0 < small.p := ⟨test_small_valid, by decide +kernel⟩

/-- PONC, PVAL: a coordinate equal to `p`; off the curve; on it outside the subgroup; the identity;
the generator. -/
theorem witness_PoncPval :
    (let o := operands (idle.setVal 0 43);
      o.Canonical (xReg 0) ∧ o.Canonical (yReg 0) ∧ idle.cfg.p ≤ o.val (xReg 0)) ∧
    (let o := operands idle;
      o.Canonical (xReg 6) ∧ o.Canonical (yReg 6) ∧ o.val (xReg 6) < idle.cfg.p ∧
        o.val (yReg 6) < idle.cfg.p ∧ idle.cfg.onCurve (o.pt idle.cfg 6) = false) ∧
    (let o := operands (idle.setPoint 6 ⟨0, 42⟩);
      o.Canonical (xReg 6) ∧ o.Canonical (yReg 6) ∧ o.val (xReg 6) < idle.cfg.p ∧
        o.val (yReg 6) < idle.cfg.p ∧ idle.cfg.onCurve (o.pt idle.cfg 6) = true ∧
        idle.cfg.mul idle.cfg.q (o.pt idle.cfg 6) ≠ .zero) ∧
    (let o := operands idle;
      o.Canonical (xReg 1) ∧ o.Canonical (yReg 1) ∧ o.pt idle.cfg 1 = .zero ∧
        idle.cfg.mul idle.cfg.q (o.pt idle.cfg 1) = .zero) ∧
    (let o := operands idle;
      o.Canonical (xReg 0) ∧ o.Canonical (yReg 0) ∧ o.pt idle.cfg 0 ≠ .zero ∧
        idle.cfg.mul idle.cfg.q (o.pt idle.cfg 0) = .zero) := by decide +kernel

/-- PDEC: `x = 2` with the odd `y = 39`; `x = p` and `x = 3`, for which there is no y. -/
theorem witness_Pdec :
    idle.cfg.Valid ∧ (operands (idle.setVal 3 2)).Canonical 3 ∧
    idle.cfg.onCurve ⟨(operands (idle.setVal 3 2)).val 3, 39⟩ = true ∧
    decide (39 % 2 = 1) = true ∧
    ((operands idle).Canonical 6 ∧
      ¬ ∃ y, idle.cfg.onCurve ⟨(operands idle).val 6, y⟩ = true ∧ decide (y % 2 = 1) = true) ∧
    (operands idle).Canonical 14 ∧
      ¬ ∃ y, idle.cfg.onCurve ⟨(operands idle).val 14, y⟩ = true ∧ decide (y % 2 = 1) = true := by
  have e6 : (operands idle).val 6 = 43 := by decide +kernel
  have e14 : (operands idle).val 14 = 3 := by decide +kernel
  have none3 : ∀ y, y < 43 → small.onCurve ⟨3, y⟩ = false := by decide +kernel
  refine ⟨test_small_valid, by decide +kernel, by decide +kernel, rfl, ⟨by decide +kernel, ?_⟩,
    by decide +kernel, ?_⟩
  · rintro ⟨y, h, -⟩
    rw [e6] at h
    simp [Cfg.onCurve, idle, loaded, small, State.setReg, State.setPoint, State.setVal, State.setT]
      at h
  · rintro ⟨y, h, -⟩
    rw [e14] at h
    change small.onCurve ⟨3, y⟩ = true at h
    have hy : y < 43 := by
      simp only [Cfg.onCurve, Bool.and_eq_true, decide_eq_true_eq] at h
      exact h.1.2
    rw [none3 y hy] at h
    cases h

/-- PENC after PDEC: both run, and PDEC reports no error. -/
theorem witness_PencAfterPdec :
    ∃ t u, exec (.pdec 3 2 true) (idle.setVal 2 2) = .next t ∧ t.status.err = .ok ∧
      exec (.penc 4 3) t = .next u ∧ (operands (idle.setVal 2 2)).Canonical 2 := by
  have h : ∃ t, exec (.pdec 3 2 true) (idle.setVal 2 2) = .next t ∧ t.status.err = .ok ∧
      goesOn (exec (.penc 4 3) t) = true := by
    cases h : exec (.pdec 3 2 true) (idle.setVal 2 2) with
    | next t =>
      have k : (match exec (.pdec 3 2 true) (idle.setVal 2 2) with
        | .next t => t.status.err == .ok && goesOn (exec (.penc 4 3) t)
        | .fault _ => false
        | .refused _ => false) = true := by decide +kernel
      rw [h] at k
      simpa using k
    | fault r =>
      have k : goesOn (exec (.pdec 3 2 true) (idle.setVal 2 2)) = true := by decide +kernel
      rw [h] at k
      cases k
    | refused r =>
      have k : goesOn (exec (.pdec 3 2 true) (idle.setVal 2 2)) = true := by decide +kernel
      rw [h] at k
      cases k
  obtain ⟨t, ht, he, hg⟩ := h
  obtain ⟨u, hu⟩ := next_of_goesOn hg
  exact ⟨t, u, ht, he, hu, by decide +kernel⟩

theorem witness_HardwareReset :
    (meets busy [.hardReset]).inbox = .hardReset :: [] ∧ busy.busy = true :=
  ⟨rfl, by decide +kernel⟩

/-- The soft reset, with a command in flight and with none. -/
theorem witness_SoftReset :
    (2 : Word).getLsbD 1 = true ∧ busy.inflight = some ⟨.mmul 4 5 5, idle.snapshot⟩ ∧
    idle.inflight = none ∧
    (meets busy [writeAt busy.base 0x08 2]).inbox = writeAt busy.base 0x08 2 :: [] := by
  refine ⟨by decide, by decide +kernel, by decide +kernel, rfl⟩

/-- STATUS and CTRL writes, and the clauses of the interrupt statement: an access each that steps on,
with bit 1 set and clear. -/
theorem witness_StatusCtrlIrq :
    (0xE : Word).getLsbD 1 = true ∧ (1 : Word).getLsbD 1 = false ∧
    (∃ t, step (meets idle [writeAt 0 0x10 0xE]) = .next t) ∧
    (∃ t, step (meets idle [writeAt 0 0x08 2]) = .next t) ∧
    (∃ t, step (meets idle [writeAt 0 0x08 1]) = .next t) ∧
    (∃ t, step (meets idle [.hardReset]) = .next t) ∧
    (∃ t, step (meets idle [writeAt 0 0x20 0xB]) = .next t) ∧
    (∃ t, exec .nop idle = .next t) ∧ idle.busy = false ∧ idle.base = 0 := by
  refine ⟨by decide, by decide, next_of_goesOn ?_, next_of_goesOn ?_, next_of_goesOn ?_,
    next_of_goesOn ?_, next_of_goesOn ?_, next_of_goesOn ?_, ?_, ?_⟩ <;> decide +kernel

/-- A written word and an unwritten word of an idle machine, at the two corners. -/
theorem witness_IdleStorageWord :
    idle.busy = false ∧ ((idle.reg 0).get 0).written = true ∧
      ((idle.reg 15).get 8).written = false := by decide +kernel

/-- A narrow access to the last aligned offset, and a wide one to the last byte of the window. -/
theorem witness_IllegalAccess :
    0x1FF8 < 0x2000 ∧ Width.w32 ≠ .w64 ∧ 0x1FFF < 0x2000 ∧ 0x1FFF % 8 ≠ 0 ∧
    (meets idle [.access ⟨idle.base + 0x1FFF, .w64, .read⟩]).inbox =
      .access ⟨idle.base + 0x1FFF, .w64, .read⟩ :: [] := ⟨by decide, by decide, by decide, by decide, rfl⟩

/-- The reads, of a machine whose record is valid; CONST slot 8 word 8 is the last. Reserved offsets at
each end of each range, for the reads and the ignored writes. -/
theorem witness_Reads :
    idle.cfg.Valid ∧
    ((meets idle [readAt idle.base (0x1000 + 0x80 * 8 + 8 * 8)]).inbox =
      readAt idle.base (0x1000 + 0x80 * (8 : Fin 9).val + 8 * (8 : Fin 9).val) :: []) ∧
    (Claims.Reserved 0x0030 ∧ Claims.Reserved 0x07F8 ∧ Claims.Reserved 0x1048 ∧
      Claims.Reserved 0x1478 ∧ Claims.Reserved 0x1480 ∧ Claims.Reserved 0x1FF8) ∧
    (Claims.FregGap 0x0848 ∧ Claims.FregGap 0x0FF8) ∧
    (meets busy [writeAt busy.base 0x0848 1]).inbox = writeAt busy.base 0x0848 1 :: [] := by
  refine ⟨test_small_valid, rfl, ?_, ?_, rfl⟩
  · unfold Claims.Reserved
    decide
  · unfold Claims.FregGap
    decide

theorem witness_NineWrites :
    idle.busy = false ∧ radix - 1 < radix ∧
    (meets idle (loadEvents idle.base 15 (radix - 1))).inbox =
      loadEvents idle.base 15 (radix - 1) :=
  ⟨by decide +kernel, by decide +kernel, rfl⟩

/-- `0`, `p - 1`, `p` and the greatest 64-byte value. -/
theorem witness_ByteString :
    small.Valid ∧ 42 < small.p ∧ small.p ≤ 43 ∧ small.p ≤ 256 ^ 64 - 1 ∧
      256 ^ 64 - 1 < 256 ^ 64 :=
  ⟨test_small_valid, by decide +kernel⟩

theorem witness_Pseudo : idle.cfg.Valid ∧ idle.busy = false :=
  ⟨test_small_valid, by decide +kernel⟩

/-- A busy machine that meets the invariant, and its step. -/
theorem witness_InFlight : busy.inFlightOk ∧ ∃ t, step busy = .next t := by
  refine ⟨?_, next_of_goesOn (by decide +kernel)⟩
  intro r hr
  have e : busy.inflight = some ⟨.mmul 4 5 5, idle.snapshot⟩ := by decide +kernel
  rw [e] at hr
  obtain rfl := Option.some.inj hr
  refine ⟨by decide +kernel, by decide +kernel, by decide +kernel, by decide +kernel, ?_⟩
  intro k hk
  have n : contractFault busy.cfg idle.snapshot (needs (.mmul 4 5 5)) = none := by decide +kernel
  rw [n] at hk
  cases hk

/-- Both disjuncts: a dropped CMD write, and a soft reset. -/
theorem witness_OnlySoftReset :
    busy.busy = true ∧ (∃ t, step (meets busy [writeAt 0 0x20 0]) = .next t) ∧
    ∃ t, step (meets busy [writeAt 0 0x08 2]) = .next t := by
  refine ⟨by decide +kernel, next_of_goesOn (by decide +kernel), next_of_goesOn (by decide +kernel)⟩

/-- A busy machine to which an access of the first and of the last byte of the window, a reset and a
core's turn are to come. -/
theorem witness_ComesToRest :
    ∀ e ∈ (meets busy [readAt 0 0, .access ⟨0x1FFF, .w8, .read⟩, .hardReset, .coreTurn]).inbox,
      Claims.inWindow busy e := by
  have b : busy.base = 0 := by decide +kernel
  intro e he
  simp only [meets, List.mem_cons, List.not_mem_nil, or_false] at he
  rcases he with rfl | rfl | rfl | rfl <;> simp [Claims.inWindow, readAt, b]

end Sys2Proof.Tests

set_option Elab.async true
end

/-! The model fault a command records is that of its first failing check (spec/00_scope.md R23), and
double-and-add computes the k-fold sum on the curve (spec/00_scope.md R21, spec/42_point.md R140). -/

namespace Sys2Proof.Machine

/-- A command whose contract raises `k` completes with `k` recorded (R151). -/
theorem exec_records_fault {i : Instr} {s : State} {k : ModelFault} (hw : i.wellFormed = true)
    (hk : contractFault s.cfg (operands s) (needs i) = some k) :
    ∃ t, exec i s = .next t ∧ t.faults = s.faults.record k := by
  obtain ⟨effect, he, -⟩ := exec_perform s hw
  exact ⟨_, he.trans (perform_of_fault hk), by simp⟩

/-- The first check that fails is of one kind only. -/
theorem contractFails_unique {c : Cfg} {v : Snapshot} {i : Instr} {k l : ModelFault}
    (hk : Claims.ContractFails c v i k) (hl : Claims.ContractFails c v i l) : k = l := by
  rw [← contractFault_eq_some] at hk hl
  exact Option.some.inj (hk.symm.trans hl)

/-- Settles O11: the rules' first failing check is the fault that `perform` records. -/
theorem modelFaultKindsFollowTheContract : Obligations.ModelFaultKindsFollowTheContract :=
  ⟨fun i s k hw hk => exec_records_fault hw ((contractFault_eq_some s.cfg (operands s) i k).mpr hk),
    fun _ _ _ _ _ => contractFails_unique⟩

end Sys2Proof.Machine

namespace Sys2Proof

variable {c : Cfg} {P : Point}

theorem onCurve_sum (h : c.Valid) (hP : c.onCurve P = true) :
    ∀ k, c.onCurve (c.sum k P) = true
  | 0 => onCurve_zero h
  | k + 1 => onCurve_add h (onCurve_sum h hP k) hP

/-- `(m + n) * P = m * P + n * P` on the curve. -/
theorem sum_add (h : c.Valid) (hP : c.onCurve P = true) (m n : Nat) :
    c.sum (m + n) P = c.add (c.sum m P) (c.sum n P) := by
  induction n with
  | zero =>
    have := h.fact
    obtain ⟨hx, hy, -⟩ := onCurve_iff.mp (onCurve_sum h hP m)
    exact (add_zero_point h hx hy).symm
  | succ n ih =>
    calc c.add (c.sum (m + n) P) P
      _ = c.add (c.add (c.sum m P) (c.sum n P)) P := by rw [ih]
      _ = c.add (c.sum m P) (c.add (c.sum n P) P) :=
        add_assoc_onCurve h (onCurve_sum h hP m) (onCurve_sum h hP n) hP

/-- The ladder gives the k-fold sum, from the high bit down: doubling the sum of `k / 2` copies, and
one more `P` for an odd `k`. -/
theorem mulAux_eq_sum (h : c.Valid) (hP : c.onCurve P = true) :
    ∀ fuel k, k < 2 ^ fuel → c.mulAux P fuel k = c.sum k P
  | 0, k, hk => by
    obtain rfl : k = 0 := by omega
    rfl
  | fuel + 1, k, hk => by
    have ih : c.mulAux P fuel (k / 2) = c.sum (k / 2) P :=
      mulAux_eq_sum h hP fuel (k / 2) (by omega)
    simp only [Cfg.mulAux, ih, ← sum_add h hP]
    split
    · change c.sum (k / 2 + k / 2 + 1) P = _
      congr 1
      omega
    · congr 1
      omega

/-- Settles O37: `log2 k + 1` steps of the ladder take in every bit of `k`. -/
theorem ladderGivesTheKFoldSum : Obligations.LadderGivesTheKFoldSum :=
  fun _ _ k h hP => mulAux_eq_sum h hP _ k Nat.lt_log2_self

end Sys2Proof

/-! What a step can do, said once: what `exec` answers for any command, what a host read and a host
write can make of the state, and what each event of the inbox leads to (spec/20_memory.md R52 to
R76, spec/30_encoding.md R92 to R95). Later invariants split along these cases. -/

section
namespace Sys2Proof

/-- The opcode map gives well-formed commands, but for LDK's index (R91 (e)). -/
theorem wellFormed_of_opcodeMap {n : Nat} {fmt : Format} {mk : Fields → Instr} {f : Fields}
    (h : opcodeMap n = some (fmt, mk)) (hk : fmt = .k → f.imm ≤ 9) :
    (mk f).wellFormed = true := by
  unfold opcodeMap at h
  split at h
  case h_3 =>
    cases h
    have := hk rfl
    simp only [Instr.wellFormed, Fields.immBits, BitVec.toNat_ofNat, decide_eq_true_eq]
    omega
  all_goals cases h <;> rfl

/-- The decoder answers well-formed commands only (R91, R96). -/
theorem wellFormed_of_decode {w : Word} {i : Instr} (h : decode w = .legal i) :
    i.wellFormed = true := by
  obtain ⟨fmt, mk, hop, hf, rfl⟩ := decode_cases h
  obtain ⟨-, -, -, -, -, -, -, -, hk, -⟩ := fieldFault_none.mp hf
  exact wellFormed_of_opcodeMap hop hk

/-- LDK with an index above 9 is the only ill-formed command. -/
theorem exists_ldk_of_not_wellFormed {i : Instr} (h : i.wellFormed = false) :
    ∃ rd k, i = .ldk rd k ∧ 9 < k.toNat := by
  cases i
  case ldk rd k => exact ⟨rd, k, rfl, by simpa [Instr.wellFormed] using h⟩
  all_goals cases h

end Sys2Proof

namespace Sys2Proof.Machine

variable {s t : State} {rest : List Event} {off : Nat}

/-! ### Completions -/

/-- Everything `exec` can answer: the completion of a well-formed command in contract or out of it,
and that of the ill-formed LDK (Log 27). -/
theorem exec_cases {i : Instr} (h : exec i s = .next t) :
    Finished i s t ∨ (∃ k, t = (s.recordFault (some k)).completeUnspecified i) ∨
      t = s.illegalCompletion := by
  cases hw : i.wellFormed
  case false =>
    obtain ⟨rd, k, rfl, hk⟩ := exists_ldk_of_not_wellFormed hw
    rw [exec_ldk_illegal hk] at h
    injection h with h
    exact .inr (.inr h.symm)
  case true =>
    obtain ⟨effect, he, hf⟩ := exec_perform s hw
    rw [he] at h
    obtain ⟨-, rfl⟩ | ⟨k, -, rfl⟩ := perform_cases h
    · exact .inl (hf _)
    · exact .inr (.inl ⟨k, rfl⟩)

/-- A completion leaves no command in flight (R95). -/
theorem exec_inflight {i : Instr} (h : exec i s = .next t) : t.inflight = none := by
  obtain hf | ⟨k, rfl⟩ | rfl := exec_cases h
  · exact hf.idle
  · rfl
  · rfl

/-! ### Acceptance -/

@[simp] theorem accept_cfg (s : State) (i : Instr) : (s.accept i).cfg = s.cfg :=
  recordFault_cfg _ _
@[simp] theorem accept_basePage (s : State) (i : Instr) : (s.accept i).basePage = s.basePage :=
  recordFault_basePage _ _
@[simp] theorem accept_regs (s : State) (i : Instr) : (s.accept i).regs = s.regs :=
  recordFault_regs _ _
@[simp] theorem accept_flags (s : State) (i : Instr) : (s.accept i).flags = s.flags :=
  recordFault_flags _ _
@[simp] theorem accept_status (s : State) (i : Instr) :
    (s.accept i).status = { s.status with done := false } := recordFault_status _ _
@[simp] theorem accept_lastCmd (s : State) (i : Instr) : (s.accept i).lastCmd = s.lastCmd :=
  recordFault_lastCmd _ _
@[simp] theorem accept_inflight (s : State) (i : Instr) :
    (s.accept i).inflight = some ⟨i, s.snapshot⟩ := recordFault_inflight _ _
@[simp] theorem accept_snapshot (s : State) (i : Instr) : (s.accept i).snapshot = s.snapshot := by
  simp [State.snapshot]

/-- The model fault of the contract is recorded at acceptance (R94). -/
@[simp] theorem accept_faults (s : State) (i : Instr) : (s.accept i).faults =
    (s.recordFault (contractFault s.cfg s.snapshot (needs i))).faults := by
  rw [State.accept]
  cases contractFault s.cfg s.snapshot (needs i) <;> rfl

/-! ### Soft reset -/

/-- Forgetting registers changes the register file alone (R169). -/
theorem forgetRegs_fields (is : List FReg) :
    ∀ s : State, forgetRegs is s = { s with regs := (forgetRegs is s).regs } := by
  induction is with
  | nil => intro s; rfl
  | cons i is ih =>
    intro s
    rw [forgetRegs, ih]
    rfl

@[simp] theorem softReset_cfg : s.softReset.cfg = s.cfg  := by
  rw [State.softReset, forgetRegs_fields]
@[simp] theorem softReset_basePage : s.softReset.basePage = s.basePage  := by
  rw [State.softReset, forgetRegs_fields]
@[simp] theorem softReset_faults : s.softReset.faults = s.faults  := by
  rw [State.softReset, forgetRegs_fields]
@[simp] theorem softReset_inflight : s.softReset.inflight = none := rfl

/-! ### Host reads and writes -/

/-- The one access on which the rules differ: OVR as the implementation decides (Log 12). -/
theorem gapBusy_eq : s.gapBusy =
    { s with status := { s.status with ovr := s.status.ovr || (s.busy && Config.gapSetsOvr) } } := by
  unfold State.gapBusy
  cases s.busy && Config.gapSetsOvr <;> simp [State.setOvr]

/-- A host read changes nothing but OVR, the draw counter and the replies (R61, R69, R75). -/
theorem readTarget_fields (s : State) (g : Target) : s.readTarget g =
    { s with
      status := { s.status with ovr := (s.readTarget g).status.ovr }
      draws := (s.readTarget g).draws
      replies := (s.readTarget g).replies } := by
  cases g
  case freg i j =>
    simp only [State.readTarget, State.readFreg]
    split
    · rfl
    · split <;> rfl
  case fregGap =>
    simp only [State.readTarget, gapBusy_eq]
    rfl
  all_goals rfl

/-- Everything a host write can make of the state, its reply left out (R42, R44, R62, R63, R75, R92
to R94). -/
inductive WriteEffect (s : State) : State → Prop
  /-- ignored, or turned away by the busy lockout -/
  | ovr (b : Bool) : WriteEffect s { s with status := { s.status with ovr := b } }
  /-- CTRL with SRST -/
  | softReset : WriteEffect s s.softReset
  /-- CTRL without SRST -/
  | irqEn (b : Bool) : WriteEffect s { s with irqEn := b }
  /-- STATUS -/
  | status (v : Word) : WriteEffect s (s.writeStatus v)
  /-- a legal word to CMD -/
  | accept {w : Word} {i : Instr} (idle : s.inflight = none) (legal : decode w = .legal i) :
    WriteEffect s ({ s with lastCmd := w }.accept i)
  /-- an illegal word to CMD -/
  | illegal (w : Word) (idle : s.inflight = none) :
    WriteEffect s { s with lastCmd := w }.illegalCompletion
  /-- a storage word -/
  | setReg (i : FReg) (r : FieldReg) (idle : s.inflight = none) : WriteEffect s (s.setReg i r)

/-- A write to CMD (R92 to R94). -/
theorem issue_effect (s : State) (w : Word) : WriteEffect s (s.issue w) := by
  unfold State.issue
  split
  · exact .ovr true
  · have idle := (busy_eq_false_iff s).mp (Bool.eq_false_iff.mpr ‹_›)
    split
    · exact .accept idle ‹_›
    · exact .illegal w idle

theorem writeTarget_effect (s : State) (v : Word) (g : Target) :
    WriteEffect s (s.writeTarget v g) := by
  cases g
  case ctrl =>
    simp only [State.writeTarget, State.writeCtrl]
    split
    · exact .softReset
    · exact .irqEn _
  case status => exact .status v
  case cmd => exact issue_effect s v
  case freg i j =>
    simp only [State.writeTarget, State.writeFreg]
    split
    · exact .ovr true
    · exact .setReg i _ ((busy_eq_false_iff s).mp (Bool.eq_false_iff.mpr ‹_›))
  case fregGap =>
    simp only [State.writeTarget, gapBusy_eq]
    exact .ovr _
  all_goals exact .ovr s.status.ovr

/-! ### Steps -/

/-- Everything one step can make of a state whose next event has been taken from the inbox (R76,
R177). -/
inductive StepEffect (s : State) : State → Prop
  /-- the core's turn, nothing in flight -/
  | idle : StepEffect s s
  /-- the core's turn: the command in flight completes -/
  | completion {i : Instr} {t : State} (h : exec i s = .next t) : StepEffect s t
  | hardReset : StepEffect s s.hardReset
  | busError : StepEffect s (s.reply .busError)
  | read (g : Target) : StepEffect s (s.readTarget g)
  | write {u : State} (h : WriteEffect s u) : StepEffect s (u.reply .ack)

theorem coreStep_effect (h : coreStep s = .next t) : StepEffect s t := by
  unfold coreStep at h
  split at h
  · exact .completion h
  · injection h with h
    subst h
    exact .idle

theorem busAccess_effect {a : Access} (h : busAccess a s = .next t) : StepEffect s t := by
  simp only [busAccess] at h
  split at h
  · cases h
  · split at h
    · injection h with h
      subst h
      exact .busError
    · split at h <;> injection h with h <;> subst h
      · exact .read _
      · exact .write (writeTarget_effect s _ _)

/-- A step takes the next event, if there is one, and does what it asks for. -/
theorem step_effect (h : step s = .next t) :
    ∃ rest, StepEffect { s with inbox := rest } t := by
  unfold step at h
  split at h
  · exact ⟨s.inbox, coreStep_effect h⟩
  · exact ⟨_, coreStep_effect h⟩
  · injection h with h
    subst h
    exact ⟨_, .hardReset⟩
  · exact ⟨_, busAccess_effect h⟩

end Sys2Proof.Machine
end

/-! Every step keeps the invariant of the command in flight (spec/10_state.md R48, spec/20_memory.md
R77, R79, spec/30_encoding.md R94). Only an acceptance puts a command in flight, and then the
invariant holds by what it records; every other effect leaves nothing in flight, or changes nothing
that the invariant speaks of but DONE, which a STATUS write can only clear. -/

section
namespace Sys2Proof.Machine

variable {s t : State}

theorem inFlightOk_of_idle (h : s.inflight = none) : s.inFlightOk := by
  intro r hr
  rw [h] at hr
  cases hr

/-- An acceptance establishes the invariant (R94). -/
theorem inFlightOk_accept {i : Instr} (h : decode s.lastCmd = .legal i) :
    (s.accept i).inFlightOk := by
  intro r hr
  rw [accept_inflight] at hr
  cases hr
  refine ⟨wellFormed_of_decode h, by rwa [accept_lastCmd], by rw [accept_status],
    by rw [accept_snapshot], fun k hk => ?_⟩
  rw [accept_cfg] at hk
  rw [accept_faults, hk, recordFault_some, record_record]

/-- A STATUS write only clears DONE (R42). -/
theorem inFlightOk_writeStatus (h : s.inFlightOk) (v : Word) : (s.writeStatus v).inFlightOk := by
  intro r hr
  obtain ⟨hw, hd, hdone, hsnap, hfault⟩ := h r hr
  refine ⟨hw, hd, ?_, hsnap, hfault⟩
  simp [State.writeStatus, hdone]

theorem WriteEffect.inFlightOk (h : WriteEffect s t) (hs : s.inFlightOk) : t.inFlightOk := by
  cases h with
  | ovr b => exact hs
  | softReset => exact inFlightOk_of_idle softReset_inflight
  | irqEn b => exact hs
  | status v => exact inFlightOk_writeStatus hs v
  | accept idle legal => exact inFlightOk_accept legal
  | illegal w idle => exact inFlightOk_of_idle rfl
  | setReg i r idle => exact inFlightOk_of_idle idle

theorem StepEffect.inFlightOk (h : StepEffect s t) (hs : s.inFlightOk) : t.inFlightOk := by
  cases h with
  | idle => exact hs
  | completion h => exact inFlightOk_of_idle (exec_inflight h)
  | hardReset => exact inFlightOk_of_idle rfl
  | busError => exact hs
  | read g =>
    rw [readTarget_fields]
    exact hs
  | write h => exact h.inFlightOk hs

/-- Settles O56, effect by effect. -/
theorem everyStepKeepsTheInFlightInvariant : Obligations.EveryStepKeepsTheInFlightInvariant := by
  intro s t hs h
  obtain ⟨rest, effect⟩ := step_effect h
  exact effect.inFlightOk hs

end Sys2Proof.Machine
end

/-! No step changes `CFG` or BASE or clears a recorded model fault (spec/10_state.md R33,
spec/20_memory.md R65, spec/60_exceptions.md R151). -/

section
namespace Sys2Proof.Machine

variable {s t : State}

theorem ModelFaults.le_refl (f : ModelFaults) : f.le f := ⟨id, id, id, id⟩

theorem ModelFaults.le_record (f : ModelFaults) (k : ModelFault) : f.le (f.record k) := by
  cases k <;> simp [ModelFaults.le, ModelFaults.record]

theorem le_faults_recordFault (s : State) (k : Option ModelFault) :
    s.faults.le (s.recordFault k).faults := by
  cases k with
  | none => exact s.faults.le_refl
  | some k => exact s.faults.le_record k

/-- What no step may undo: `CFG`, BASE and the recorded model faults (R33, R65, R151). -/
structure Persists (s t : State) : Prop where
  cfg : t.cfg = s.cfg
  basePage : t.basePage = s.basePage
  faults : s.faults.le t.faults

theorem Persists.of_eq (hc : t.cfg = s.cfg) (hb : t.basePage = s.basePage)
    (hf : t.faults = s.faults) :
    Persists s t := ⟨hc, hb, hf ▸ s.faults.le_refl⟩

theorem exec_persists {i : Instr} (h : exec i s = .next t) : Persists s t := by
  obtain hf | ⟨k, rfl⟩ | rfl := exec_cases h
  · exact .of_eq hf.frame.cfg hf.frame.basePage hf.faults
  · have frame := frame_completeUnspecified (s.recordFault (some k)) i
    refine ⟨frame.cfg, frame.basePage, ?_⟩
    rw [completeUnspecified_faults]
    exact s.faults.le_record k
  · exact .of_eq rfl rfl rfl

theorem WriteEffect.persists (h : WriteEffect s t) : Persists s t := by
  cases h with
  | ovr b => exact .of_eq rfl rfl rfl
  | softReset => exact .of_eq softReset_cfg softReset_basePage softReset_faults
  | irqEn b => exact .of_eq rfl rfl rfl
  | status v => exact .of_eq rfl rfl rfl
  | @accept w i idle legal =>
    refine ⟨accept_cfg _ _, accept_basePage _ _, ?_⟩
    rw [accept_faults]
    exact le_faults_recordFault { s with lastCmd := w } _
  | illegal w idle => exact .of_eq rfl rfl rfl
  | setReg i r idle => exact .of_eq rfl rfl rfl

theorem StepEffect.persists (h : StepEffect s t) : Persists s t := by
  cases h with
  | idle => exact .of_eq rfl rfl rfl
  | completion h => exact exec_persists h
  | hardReset => exact .of_eq rfl rfl rfl
  | busError => exact .of_eq rfl rfl rfl
  | read g =>
    rw [readTarget_fields]
    exact .of_eq rfl rfl rfl
  | write h => exact ⟨h.persists.cfg, h.persists.basePage, h.persists.faults⟩

/-- Settles O12, effect by effect. -/
theorem configurationAndRecordedFaultsPersist :
    Obligations.ConfigurationAndRecordedFaultsPersist := by
  intro s t h
  obtain ⟨rest, effect⟩ := step_effect h
  exact ⟨effect.persists.cfg, effect.persists.basePage, effect.persists.faults⟩

end Sys2Proof.Machine
end

/-! An access to an aligned offset of the window reaches the target that the address map names
(spec/20_memory.md R53, R57, R58, R66, R67, R71), and a 64-bit word is known by its bit fields. -/

section
namespace Sys2Proof

/-- A field of one bit is that bit (R16). -/
theorem bits_one (w : Word) (i : Nat) : bits w i 1 = (w.getLsbD i).toNat := by
  rw [bits, Nat.pow_one, ← Nat.toNat_testBit, BitVec.testBit_toNat]

/-- A bit is known by its field of one bit. -/
theorem getLsbD_of_bits {w : Word} {i : Nat} {b : Bool} (h : bits w i 1 = b.toNat) :
    w.getLsbD i = b := by
  rw [bits_one] at h
  rw [← Bool.ofNat_toNat b, ← h, Bool.ofNat_toNat]

end Sys2Proof

namespace Sys2Proof.Machine

variable {s : State} {rest : List Event} {off : Nat} {v : Word}

/-! ### Accesses that are performed -/

theorem busAccess_read (hoff : off < 0x2000) (hal : off % 8 = 0) :
    busAccess ⟨s.base + off, .w64, .read⟩ s = .next (s.readTarget (locate off)) := by
  simp [busAccess, hoff, hal]

theorem busAccess_write (hoff : off < 0x2000) (hal : off % 8 = 0) :
    busAccess ⟨s.base + off, .w64, .write v⟩ s =
      .next ((s.writeTarget v (locate off)).reply .ack) := by
  simp [busAccess, hoff, hal]

/-- An aligned 64-bit read inside the window is performed. -/
theorem step_readAt (h : s.inbox = readAt s.base off :: rest) (hoff : off < 0x2000)
    (hal : off % 8 = 0) :
    step s = .next ({ s with inbox := rest }.readTarget (locate off)) := by
  simp only [step, h, readAt]
  exact busAccess_read (s := { s with inbox := rest }) hoff hal

/-- An aligned 64-bit write inside the window is performed and acknowledged. -/
theorem step_writeAt (h : s.inbox = writeAt s.base off v :: rest) (hoff : off < 0x2000)
    (hal : off % 8 = 0) :
    step s = .next (({ s with inbox := rest }.writeTarget v (locate off)).reply .ack) := by
  simp only [step, h, writeAt]
  exact busAccess_write (s := { s with inbox := rest }) hoff hal

/-! ### The windows of the address map -/

theorem locate_fregWindow (hlo : 0x0800 ≤ off) (hhi : off < 0x1000) :
    locate off = if h : (off - 0x0800) % 0x80 / 8 < 9
      then .freg (Fin.ofNat 16 ((off - 0x0800) / 0x80)) ⟨_, h⟩ else .fregGap := by
  rw [locate, if_neg (by omega), if_neg (by omega), if_neg (by omega), if_neg (by omega),
    if_neg (by omega), if_neg (by omega), if_pos ⟨hlo, hhi⟩]

theorem locate_constWindow (hlo : 0x1000 ≤ off) (hhi : off < 0x1480) :
    locate off = if h : (off - 0x1000) % 0x80 / 8 < 9
      then .const (Fin.ofNat 9 ((off - 0x1000) / 0x80)) ⟨_, h⟩ else .reserved := by
  rw [locate, if_neg (by omega), if_neg (by omega), if_neg (by omega), if_neg (by omega),
    if_neg (by omega), if_neg (by omega), if_neg (by omega), if_pos ⟨hlo, hhi⟩]

/-- Between the single registers and the FREG window, and above the CONST window. -/
theorem locate_outside (hlo : 0x0030 ≤ off) (hfreg : ¬ (0x0800 ≤ off ∧ off < 0x1000))
    (hconst : ¬ (0x1000 ≤ off ∧ off < 0x1480)) : locate off = .reserved := by
  rw [locate, if_neg (by omega), if_neg (by omega), if_neg (by omega), if_neg (by omega),
    if_neg (by omega), if_neg (by omega), if_neg hfreg, if_neg hconst]

theorem locate_of_fregGap (h : Claims.FregGap off) : locate off = .fregGap := by
  obtain ⟨-, hlo, hhi, hj⟩ := h
  rw [locate_fregWindow hlo hhi, dif_neg (by omega)]

theorem locate_of_reserved (h : Claims.Reserved off) : locate off = .reserved := by
  obtain ⟨-, ⟨hlo, hhi⟩ | ⟨hlo, hhi⟩ | ⟨hlo, hhi, hj⟩⟩ := h
  · exact locate_outside hlo (by omega) (by omega)
  · exact locate_outside (by omega) (by omega) (by omega)
  · rw [locate_constWindow hlo hhi, dif_neg (by omega)]

theorem locate_const (k j : Fin 9) : locate (0x1000 + 0x80 * k.val + 8 * j.val) = .const k j := by
  have hslot : (0x1000 + 0x80 * k.val + 8 * j.val - 0x1000) / 0x80 = k.val := by omega
  have hword : (0x1000 + 0x80 * k.val + 8 * j.val - 0x1000) % 0x80 / 8 = j.val := by omega
  rw [locate_constWindow (by omega) (by omega), dif_pos (by omega)]
  simp only [hslot, hword, Fin.ofNat_eq_cast, Fin.cast_val_eq_self, Fin.eta]

end Sys2Proof.Machine
end

/-! STATUS and CTRL writes (spec/10_state.md R42, R44). -/

section
namespace Sys2Proof.Machine

/-- The test of a clear bit, as a STATUS write makes it. -/
theorem bits_one_beq_zero (v : Word) (i : Nat) : (bits v i 1 == 0) = !v.getLsbD i := by
  rw [bits_one, Bool.toNat_beq_zero]

/-- The test of a set bit, as a CTRL write makes it. -/
theorem bits_one_beq_one (v : Word) (i : Nat) : (bits v i 1 == 1) = v.getLsbD i := by
  rw [bits_one, Bool.toNat_beq_one]

theorem writeStatus_eq (s : State) (v : Word) : s.writeStatus v =
    { s with status :=
        { done := s.status.done && !v.getLsbD 1
          illegal := s.status.illegal && !v.getLsbD 2
          ovr := s.status.ovr && !v.getLsbD 3
          err := s.status.err } } := by
  simp only [State.writeStatus, bits_one_beq_zero]

theorem writeCtrl_of_srst {v : Word} (s : State) (h : v.getLsbD 1 = true) :
    s.writeCtrl v = s.softReset := by
  rw [State.writeCtrl, if_pos (by rw [bits_one, h, Bool.toNat_true])]

theorem writeCtrl_of_not_srst {v : Word} (s : State) (h : v.getLsbD 1 = false) :
    s.writeCtrl v = { s with irqEn := v.getLsbD 0 } := by
  rw [State.writeCtrl, if_neg (by simp only [bits_one, h]; decide), bits_one_beq_one]

/-- Settles O48, from what a STATUS and a CTRL write do. -/
theorem statusAndCtrlWrites : Obligations.StatusAndCtrlWrites := by
  intro s v rest
  constructor
  · intro h
    rw [step_writeAt h (by decide) (by decide)]
    change Host.Outcome.next (({ s with inbox := rest }.writeStatus v).reply .ack) = _
    rw [writeStatus_eq]
    rfl
  · intro h srst
    rw [step_writeAt h (by decide) (by decide)]
    change Host.Outcome.next (({ s with inbox := rest }.writeCtrl v).reply .ack) = _
    rw [writeCtrl_of_not_srst _ srst]
    rfl

end Sys2Proof.Machine
end

/-! What the host reads (spec/10_state.md R35, R42, R44 to R47, spec/20_memory.md R63, R71). -/

section
namespace Sys2Proof.Machine

variable {s : State} {rest : List Event} {off : Nat}

/-! ### Numbers of words and bit lengths -/

theorem codeNum_lt (e : ResultCode) : codeNum e < 8 := by cases e <;> decide

theorem cmpBits_lt (c : Cmp) : cmpBits c < 3 := by cases c <;> decide

theorem statusWord_toNat (s : State) : (statusWord s).toNat =
    s.busy.toNat + s.status.done.toNat * 2 + s.status.illegal.toNat * 4 + s.status.ovr.toNat * 8
      + codeNum s.status.err * 256 := by
  have := s.busy.toNat_lt; have := s.status.done.toNat_lt; have := s.status.illegal.toNat_lt
  have := s.status.ovr.toNat_lt; have := codeNum_lt s.status.err
  rw [statusWord, BitVec.toNat_ofNat]
  omega

theorem flagsWord_toNat (f : Flags) : (flagsWord f).toNat =
    f.c.toNat + f.b.toNat * 2 + f.t.toNat * 4 + f.p.toNat * 8 + cmpBits f.cmp * 16 := by
  have := f.c.toNat_lt; have := f.b.toNat_lt; have := f.t.toNat_lt; have := f.p.toNat_lt
  have := cmpBits_lt f.cmp
  rw [flagsWord, BitVec.toNat_ofNat]
  omega

theorem ctrlWord_toNat (s : State) : (ctrlWord s).toNat = s.irqEn.toNat := by
  have := s.irqEn.toNat_lt
  rw [ctrlWord, BitVec.toNat_ofNat]
  omega

theorem idWord_toNat (c : Cfg) : (idWord c).toNat =
    0x0100 + 9 * 2 ^ 16 + 60 * 2 ^ 24 + bitLength c.p % 2 ^ 16 * 2 ^ 32 + 16 * 2 ^ 48 := by
  simp only [idWord, nlen, baseBits, nfreg, BitVec.toNat_ofNat]
  omega

/-- The bit length of a positive number (R10). -/
theorem bitLength_bounds {n : Nat} (h : n ≠ 0) :
    2 ^ (bitLength n - 1) ≤ n ∧ n < 2 ^ bitLength n := by
  rw [bitLength, if_neg h]
  exact ⟨Nat.log2_self_le h, Nat.lt_log2_self⟩

theorem log2_lt_mul {n a b : Nat} (hn : n ≠ 0) (h : n < (2 ^ a) ^ b) : Nat.log2 n < a * b := by
  rwa [Nat.log2_lt hn, Nat.pow_mul]

/-- MODBITS fits its field (R12 (a), R45). -/
theorem bitLength_lt {c : Cfg} (h : c.Valid) : bitLength c.p < 2 ^ 16 := by
  have hlog : Nat.log2 c.p < 64 * 8 := log2_lt_mul h.pos.ne' h.fits
  rw [bitLength, if_neg h.pos.ne']
  omega

/-! ### The bit fields -/

theorem idWord_bits (c : Cfg) :
    bits (idWord c) 0 16 = 0x0100 ∧ bits (idWord c) 16 8 = 9 ∧ bits (idWord c) 24 8 = 60 ∧
      bits (idWord c) 48 8 = 16 ∧ bits (idWord c) 56 8 = 0 ∧
      bits (idWord c) 32 16 = bitLength c.p % 2 ^ 16 := by
  simp only [bits, idWord_toNat]
  omega

/-- MODBITS is the bit length of `p` (R10, R45). -/
theorem idWord_modbits {c : Cfg} (h : c.Valid) :
    2 ^ (bits (idWord c) 32 16 - 1) ≤ c.p ∧ c.p < 2 ^ bits (idWord c) 32 16 := by
  obtain ⟨-, -, -, -, -, hm⟩ := idWord_bits c
  rw [hm, Nat.mod_eq_of_lt (bitLength_lt h)]
  exact bitLength_bounds h.pos.ne'

theorem ctrlWord_bits (s : State) :
    (ctrlWord s).getLsbD 0 = s.irqEn ∧ bits (ctrlWord s) 1 63 = 0 := by
  have := s.irqEn.toNat_lt
  refine ⟨getLsbD_of_bits ?_, ?_⟩ <;> rw [bits, ctrlWord_toNat] <;> omega

theorem statusWord_bits (s : State) :
    (statusWord s).getLsbD 0 = s.busy ∧ (statusWord s).getLsbD 1 = s.status.done ∧
      (statusWord s).getLsbD 2 = s.status.illegal ∧ (statusWord s).getLsbD 3 = s.status.ovr ∧
      bits (statusWord s) 4 4 = 0 ∧ bits (statusWord s) 8 4 = codeNum s.status.err ∧
      bits (statusWord s) 12 52 = 0 := by
  have := s.busy.toNat_lt; have := s.status.done.toNat_lt; have := s.status.illegal.toNat_lt
  have := s.status.ovr.toNat_lt; have := codeNum_lt s.status.err
  refine ⟨getLsbD_of_bits ?_, getLsbD_of_bits ?_, getLsbD_of_bits ?_, getLsbD_of_bits ?_, ?_, ?_,
    ?_⟩ <;> rw [bits, statusWord_toNat] <;> omega

theorem flagsWord_bits (f : Flags) :
    (flagsWord f).getLsbD 0 = f.c ∧ (flagsWord f).getLsbD 1 = f.b ∧
      (flagsWord f).getLsbD 2 = f.t ∧ (flagsWord f).getLsbD 3 = f.p ∧
      bits (flagsWord f) 4 2 = cmpBits f.cmp ∧ bits (flagsWord f) 6 58 = 0 := by
  have := f.c.toNat_lt; have := f.b.toNat_lt; have := f.t.toNat_lt; have := f.p.toNat_lt
  have := cmpBits_lt f.cmp
  refine ⟨getLsbD_of_bits ?_, getLsbD_of_bits ?_, getLsbD_of_bits ?_, getLsbD_of_bits ?_, ?_,
    ?_⟩ <;> rw [bits, flagsWord_toNat] <;> omega

/-- The slots of the constant window, in R71's order. -/
theorem constSlot_eq (c : Cfg) (k : Fin 9) : constSlot c k =
    [c.p, c.r2, c.q, c.d, c.gx, c.gy, c.mconst, c.cof, c.a].getD k.val 0 := by
  match k with
  | 0 | 1 | 2 | 3 | 4 | 5 | 6 | 7 | 8 => rfl

/-! ### The reads -/

/-- A read that only replies with `x`. -/
theorem step_readAt_data {x : Word} (h : s.inbox = readAt s.base off :: rest)
    (hoff : off < 0x2000) (hal : off % 8 = 0)
    (hx : { s with inbox := rest }.readTarget (locate off) =
      { s with inbox := rest }.reply (.data x)) :
    step s = .next { s with inbox := rest, replies := .data x :: s.replies } := by
  rw [step_readAt h hoff hal, hx]
  rfl

theorem step_read_reserved (h : s.inbox = readAt s.base off :: rest) (hr : Claims.Reserved off) :
    step s = .next { s with inbox := rest, replies := .data 0 :: s.replies } := by
  have ⟨hal, hoff⟩ := hr
  refine step_readAt_data h (by omega) hal ?_
  rw [locate_of_reserved hr]
  rfl

/-- Whether OVR is set is the implementation's choice (Log 12). -/
theorem step_read_fregGap (h : s.inbox = readAt s.base off :: rest) (hg : Claims.FregGap off) :
    step s = .next { s with
      status := { s.status with ovr := s.status.ovr || (s.busy && Config.gapSetsOvr) }
      inbox := rest, replies := .data 0 :: s.replies } := by
  have ⟨hal, _, hhi, _⟩ := hg
  rw [step_readAt h (by omega) hal, locate_of_fregGap hg, State.readTarget, gapBusy_eq]
  rfl

theorem step_read_const {k j : Fin 9}
    (h : s.inbox = readAt s.base (0x1000 + 0x80 * k.val + 8 * j.val) :: rest) :
    step s = .next { s with
      inbox := rest, replies := .data (digit (constSlot s.cfg k) j) :: s.replies } := by
  refine step_readAt_data h (by omega) (by omega) ?_
  rw [locate_const]
  rfl

/-- Settles O52, register by register. -/
theorem readsGiveTheRegistersBits : Obligations.ReadsGiveTheRegistersBits := by
  intro s rest
  refine ⟨fun h => ?id, fun h => ?ctrl, ?zero, fun off hg h => ?gap, fun h => ?status,
    fun h => ?flags, fun h => ?lastCmd, fun k j h => ?const⟩
  case id =>
    obtain ⟨version, nlen, baseBits, nfreg, top, -⟩ := idWord_bits s.cfg
    exact ⟨idWord s.cfg, step_readAt_data h (by decide) (by decide) rfl, version, nlen, baseBits,
      nfreg, top, idWord_modbits⟩
  case ctrl =>
    exact ⟨ctrlWord s, step_readAt_data h (by decide) (by decide) rfl, ctrlWord_bits s⟩
  case zero =>
    rintro off (rfl | hr) h
    · exact step_readAt_data h (by decide) (by decide) rfl
    · exact step_read_reserved h hr
  case gap => exact ⟨Config.gapSetsOvr, step_read_fregGap h hg⟩
  case status =>
    exact ⟨statusWord s, step_readAt_data h (by decide) (by decide) rfl, statusWord_bits s⟩
  case flags =>
    exact ⟨flagsWord s.flags, step_readAt_data h (by decide) (by decide) rfl,
      flagsWord_bits s.flags⟩
  case lastCmd => exact step_readAt_data h (by decide) (by decide) rfl
  case const =>
    refine ⟨_, step_read_const h, ?_⟩
    rw [digit_toNat, constSlot_eq]

end Sys2Proof.Machine
end

/-! PLDID and PLDG load the identity and the generator (spec/10_state.md R31, spec/30_encoding.md
R98). -/

section
namespace Sys2Proof.Machine

theorem constK_zero (c : Cfg) : constK c 0 = c.mont Point.zero.x := by
  rw [constK, Cfg.mont, Point.zero, Nat.mul_zero, Nat.zero_mod]

theorem constK_two (c : Cfg) : constK c 2 = c.mont Point.zero.y := by
  rw [constK, Cfg.mont, Cfg.rm, Point.zero, Nat.mul_one]

/-- An LDK of each coordinate, one after the other, loads a point into a point register. -/
theorem exec_ldk_pair {s : State} (k : PReg) {m n : Imm} {P : Point} (h : s.cfg.Valid)
    (hm : m.toNat ≤ 9) (hn : n.toNat ≤ 9) (hx : constK s.cfg m.toNat = s.cfg.mont P.x)
    (hy : constK s.cfg n.toNat = s.cfg.mont P.y) :
    ∃ t u, exec (.ldk (xReg k) m) s = .next t ∧ exec (.ldk (yReg k) n) t = .next u ∧
      u.HoldsPoint k P ∧ Frame [xReg k, yReg k] {} s u := by
  refine ⟨_, _, exec_ldk hm, exec_ldk hn, ?_, ?_⟩
  · rw [complete_cfg, setVal_cfg, hx, hy]
    exact holdsPoint_setPoint (s := s) (k := k) h
  · have first := (((Frame.refl [xReg k, yReg k] {} s).setVal List.mem_cons_self
      (constK s.cfg m.toNat)).completed rfl rfl .ok).frame
    exact ((first.setVal (i := yReg k) (by simp) _).completed rfl rfl .ok).frame

/-- Settles O55: two LDKs each, of `0` and `R mod p`, and of the generator's coordinates. -/
theorem pseudoInstructionsLoadTheirPoints : Obligations.PseudoInstructionsLoadTheirPoints := by
  intro s k h _
  constructor
  · obtain ⟨t, u, ht, hu, holds, frame⟩ := exec_ldk_pair (m := 0) (n := 2) k h (by decide)
      (by decide) (constK_zero s.cfg) (constK_two s.cfg)
    exact ⟨_, _, t, u, rfl, ht, hu, holds, frame⟩
  · obtain ⟨t, u, ht, hu, holds, frame⟩ := exec_ldk_pair (m := 7) (n := 8)
      (P := ⟨s.cfg.gx, s.cfg.gy⟩) k h (by decide) (by decide) rfl rfl
    exact ⟨_, _, t, u, rfl, ht, hu, holds, frame⟩

end Sys2Proof.Machine
end

/-! The storage words as a host reaches them: where `S(i, j)` stands in the window, what a read
and a write of it do to a busy and to an idle core, and that a busy core drops a CMD write
(spec/20_memory.md R67 to R69, R75). -/

section
namespace Sys2Proof.Machine

variable {s : State} {rest : List Event} {i : FReg} {j : Fin 9} {v : Word}

/-! ### The place of a storage word -/

theorem fregOffset_lt (i : FReg) (j : Fin 9) : fregOffset i j < 0x2000 := by
  rw [fregOffset]
  omega

theorem fregOffset_aligned (i : FReg) (j : Fin 9) : fregOffset i j % 8 = 0 := by
  rw [fregOffset]
  omega

theorem locate_fregOffset (i : FReg) (j : Fin 9) : locate (fregOffset i j) = .freg i j := by
  have hreg : (0x0800 + 0x80 * i.val + 8 * j.val - 0x0800) / 0x80 = i.val := by omega
  have hword : (0x0800 + 0x80 * i.val + 8 * j.val - 0x0800) % 0x80 / 8 = j.val := by omega
  rw [fregOffset, locate_fregWindow (by omega) (by omega), dif_pos (by omega)]
  simp only [hreg, hword, Fin.ofNat_eq_cast, Fin.cast_val_eq_self, Fin.eta]

theorem get_set_word (r : FieldReg) (j k : Fin 9) (d : Slot) :
    (r.set j.val d j.isLt).get k = if k = j then d else r.get k := by
  simp only [Vector.get_eq_getElem, Vector.getElem_set, Fin.ext_iff, eq_comm]

/-! ### What an access does, busy and idle -/

theorem step_read_freg (h : s.inbox = readAt s.base (fregOffset i j) :: rest) :
    step s = .next ({ s with inbox := rest }.readFreg i j) := by
  rw [step_readAt h (fregOffset_lt i j) (fregOffset_aligned i j), locate_fregOffset]
  rfl

theorem step_write_freg (h : s.inbox = writeAt s.base (fregOffset i j) v :: rest) :
    step s = .next (({ s with inbox := rest }.writeFreg i j v).reply .ack) := by
  rw [step_writeAt h (fregOffset_lt i j) (fregOffset_aligned i j), locate_fregOffset]
  rfl

theorem issue_of_busy (h : s.busy = true) (w : Word) : s.issue w = s.setOvr := if_pos h

theorem readFreg_of_busy (h : s.busy = true) : s.readFreg i j = s.setOvr.reply (.data 0) :=
  if_pos h

theorem writeFreg_of_busy (h : s.busy = true) : s.writeFreg i j v = s.setOvr := if_pos h

theorem readFreg_of_written (h : s.busy = false) (hw : ((s.reg i).get j).written = true) :
    s.readFreg i j = s.reply (.data ((s.reg i).get j).word) := by
  simp only [State.readFreg, h, hw, Bool.false_eq_true, if_false, if_true]

theorem readFreg_of_unwritten (h : s.busy = false) (hw : ((s.reg i).get j).written = false) :
    s.readFreg i j =
      { s with draws := s.draws + 1 }.reply (.data (Config.freeWord s.draws 0)) := by
  simp only [State.readFreg, h, hw, Bool.false_eq_true, if_false]

theorem writeFreg_of_idle (h : s.busy = false) :
    s.writeFreg i j v = s.setReg i ((s.reg i).set j.val (slotOf v) j.isLt) := by
  simp only [State.writeFreg, h, Bool.false_eq_true, if_false]

/-- A write of a storage word of an idle core: all 64 bits and the ghost bit of that word (R68). -/
theorem step_write_freg_of_idle (h : s.inbox = writeAt s.base (fregOffset i j) v :: rest)
    (hb : s.busy = false) :
    step s = .next (({ s with inbox := rest }.setReg i
      ((s.reg i).set j.val (slotOf v) j.isLt)).reply .ack) := by
  rw [step_write_freg h, writeFreg_of_idle (s := { s with inbox := rest }) hb]
  rfl

/-- Settles O8: each of the three accesses is turned away with OVR. -/
theorem busyLockoutTurnsAccessesAway : Obligations.BusyLockoutTurnsAccessesAway := by
  intro s rest hb
  have hb' : { s with inbox := rest }.busy = true := hb
  refine ⟨fun w h => ?cmd, fun i j h => ?read, fun i j w h => ?write⟩
  case cmd =>
    rw [step_writeAt h (by decide) (by decide)]
    change Host.Outcome.next (({ s with inbox := rest }.issue w).reply .ack) = _
    rw [issue_of_busy hb']
    rfl
  case read =>
    rw [step_read_freg h, readFreg_of_busy hb']
    rfl
  case write =>
    rw [step_write_freg h, writeFreg_of_busy hb']
    rfl

/-- Settles O50: the write sets the one slot, and the read splits on its ghost bit. -/
theorem idleStorageWordAccess : Obligations.IdleStorageWordAccess := by
  intro s i j v rest hb
  have hb' : { s with inbox := rest }.busy = false := hb
  refine ⟨fun h => ?write, fun h => ⟨fun hw => ?written, fun hw => ?unwritten⟩⟩
  case write =>
    refine ⟨_, step_write_freg_of_idle h hb, ?_, fun k hk => ?_, fun k hk => ?_, rfl⟩
    · rw [reg_reply, reg_setReg_self, get_set_word, if_pos rfl, slotOf]
    · rw [reg_reply, reg_setReg_self, get_set_word, if_neg hk]
    · rw [reg_reply, reg_setReg_of_ne _ _ hk]
      rfl
  case written =>
    rw [step_read_freg h, readFreg_of_written hb' hw]
    rfl
  case unwritten =>
    refine ⟨Config.freeWord s.draws 0, ?_⟩
    rw [step_read_freg h, readFreg_of_unwritten hb' hw]
    rfl

end Sys2Proof.Machine
end

/-! The nine writes that load a register (spec/20_memory.md R67, R68, R70): by induction over the
words still to be written. -/

section
namespace Sys2Proof.Machine

theorem run_succ_of_step {M : Host.Core} {s t : M.State} (n : Nat) (h : M.step s = .next t) :
    M.run (n + 1) s = M.run n t := by
  rw [Host.Core.run, h]

/-- Writing the word `w j` to `S(i, j)` for each `j` of a list, on an idle core: those words are
stored, and every other word of `F[i]`, every other register and the rest of the state stay. -/
theorem run_writes_of_idle (i : FReg) (w : Fin 9 → Word) (js : List (Fin 9)) :
    ∀ s : State, s.busy = false →
      s.inbox = (js.map fun j => writeAt s.base (fregOffset i j) (w j)) →
      ∃ t, core.run js.length s = .next t ∧
        (∀ j, (t.reg i).get j = if j ∈ js then slotOf (w j) else (s.reg i).get j) ∧
        (∀ k, k ≠ i → t.reg k = s.reg k) ∧
        t = { s with regs := t.regs, inbox := [], replies := t.replies } := by
  induction js with
  | nil =>
    intro s _ hin
    refine ⟨s, rfl, fun j => by simp, fun _ _ => rfl, ?_⟩
    rw [← show s.inbox = [] from hin]
  | cons j js ih =>
    intro s hb hin
    obtain ⟨u, hstep, hself, hother, hregu, hu⟩ := (idleStorageWordAccess s i j (w j) _ hb).1 hin
    have hbu : u.busy = false := by rw [hu]; exact hb
    have hinu : u.inbox = js.map fun j => writeAt u.base (fregOffset i j) (w j) := by rw [hu]; rfl
    obtain ⟨t, hrun, hword, hreg, hrest⟩ := ih u hbu hinu
    refine ⟨t, (run_succ_of_step _ hstep).trans hrun, fun k => ?_, fun k hk => ?_, ?_⟩
    · rw [hword k]
      by_cases hk : k = j
      · simp [hk, hself, slotOf]
      · simp [hk, hother k hk]
    · rw [hreg k hk, hregu k hk]
    · rw [hrest, hu]

/-- A register is what its nine slots are. -/
theorem eq_regOf {r : FieldReg} {x : Nat} (h : ∀ j : Fin 9, r.get j = slotOf (digit x j)) :
    r = regOf x :=
  Vector.ext fun j hj => (h ⟨j, hj⟩).trans (regOf_get x ⟨j, hj⟩).symm

/-- Settles O53: the nine words written are the nine words of `regOf x`. -/
theorem nineWritesLoadARegister : Obligations.NineWritesLoadARegister := by
  intro s i x hb hx hin
  obtain ⟨t, hrun, hword, hreg, hrest⟩ :=
    run_writes_of_idle i (fun j => digit x j) digitIdx s hb hin
  have hi : t.reg i = regOf x := eq_regOf fun j => by rw [hword j, if_pos (mem_digitIdx j)]
  refine ⟨t, hrun, holds_of_reg hi hx, hreg, ?_, ?_, ?_, ?_⟩ <;> rw [hrest]

end Sys2Proof.Machine
end

/-! A field element and its byte string (spec/20_memory.md R70): the bytes, most significant first,
are the digits of the integer in base 256. -/

section
namespace Sys2Proof.Machine

/-- The `n` low digits of `x` in base `B`, the highest first, sum to `x` modulo `B ^ n`. -/
theorem sum_digits_bigEndian (B x n : Nat) :
    ((List.range n).map fun i => x / B ^ (n - 1 - i) % B * B ^ (n - 1 - i)).sum = x % B ^ n := by
  induction n with
  | zero => simp [Nat.mod_one]
  | succ n ih =>
    have hsub (i : Nat) : n + 1 - 1 - (i + 1) = n - 1 - i := by omega
    rw [List.sum_range_succ']
    simp only [hsub, ih, Nat.mod_pow_succ]
    simp only [Nat.add_sub_cancel, Nat.sub_zero]
    ring

theorem byteString_length (x : Nat) : (byteString x).length = 64 := by
  rw [byteString, List.length_map, List.length_range]

theorem byteString_getD_toNat (x : Nat) {i : Nat} (hi : i < 64) :
    ((byteString x).getD i 0).toNat = x / 256 ^ (63 - i) % 256 := by
  have hpow : 2 ^ (8 * (63 - i)) = 256 ^ (63 - i) := Nat.pow_mul 2 8 _
  simp [byteString, hi, hpow]

/-- A 64-byte string has the value of the integer it encodes (R70). -/
theorem stringValue_byteString {x : Nat} (hx : x < 256 ^ 64) : stringValue (byteString x) = x := by
  calc stringValue (byteString x)
    _ = ((List.range 64).map fun i => x / 256 ^ (63 - i) % 256 * 256 ^ (63 - i)).sum := by
      rw [stringValue]
      refine congrArg List.sum (List.map_congr_left fun i hi => ?_)
      rw [byteString_getD_toNat x (List.mem_range.mp hi)]
    _ = x % 256 ^ 64 := sum_digits_bigEndian 256 x 64
    _ = x := Nat.mod_eq_of_lt hx

theorem decodeString_byteString (c : Cfg) {x : Nat} (hx : x < 256 ^ 64) :
    decodeString c (byteString x) = if x < c.p then some x else none := by
  simp only [decodeString, byteString_length, stringValue_byteString hx, true_and]

/-- Settles O54: the string's value is `x`, which decodes exactly when it is below `p`. -/
theorem byteStringRoundTrip : Obligations.ByteStringRoundTrip := by
  constructor
  · intro c x h hx
    have hbytes : (2 ^ 64) ^ 8 = 256 ^ 64 := by decide +kernel
    rw [decodeString_byteString c (hbytes ▸ hx.trans h.fits), if_pos hx]
  · intro c x hp hx
    rw [decodeString_byteString c hx, if_neg (Nat.not_lt.mpr hp)]

end Sys2Proof.Machine
end

/-! Of the accesses of a host only the CTRL write with SRST disturbs a command in flight
(spec/20_memory.md R75, R77, spec/70_reset_and_hazards.md R175), and an illegal access changes
nothing (R57, R58). -/

section
namespace Sys2Proof.Machine

variable {s t : State} {rest : List Event} {a : Access} {off : Nat}

/-- Everything one access that the block answers can do: a bus error, a read, or a write (R57,
R58). -/
theorem busAccess_cases (h : busAccess a s = .next t) :
    t = s.reply .busError ∨ t = s.readTarget (locate (a.addr - s.base)) ∨
      ∃ v, a.kind = .write v ∧ a.width = .w64 ∧ s.base ≤ a.addr ∧
        t = (s.writeTarget v (locate (a.addr - s.base))).reply .ack := by
  simp only [busAccess] at h
  split at h
  · cases h
  · rename_i hwindow
    split at h
    · cases h
      exact .inl rfl
    · rename_i hlegal
      split at h <;> cases h
      · exact .inr (.inl rfl)
      · exact .inr (.inr ⟨_, ‹_›, not_not.mp fun hw => hlegal (.inl hw), by omega, rfl⟩)

theorem busAccess_illegal {w : Width} {k : AccessKind} (hoff : off < 0x2000)
    (hill : w ≠ .w64 ∨ off % 8 ≠ 0) :
    busAccess ⟨s.base + off, w, k⟩ s = .next (s.reply .busError) := by
  simp only [busAccess, Nat.add_sub_cancel_left]
  rw [if_neg (by omega), if_pos hill]

/-- Settles O51: `busAccess` answers before it looks at the offset's target. -/
theorem illegalAccessGetsABusError : Obligations.IllegalAccessGetsABusError := by
  intro s off w k rest hoff hill h
  simp only [step, h]
  exact busAccess_illegal (s := { s with inbox := rest }) hoff hill

/-- Only the offset 0x08 reaches CTRL (R66). -/
theorem eq_of_locate_eq_ctrl (h : locate off = .ctrl) : off = 0x0008 := by
  simp only [locate] at h
  split_ifs at h
  assumption

/-- What a command in flight and its host rely on (R77): the registers, the flags, the result code,
LASTCMD and the record of the command itself. -/
structure Undisturbed (s t : State) : Prop where
  regs : t.regs = s.regs
  flags : t.flags = s.flags
  err : t.status.err = s.status.err
  lastCmd : t.lastCmd = s.lastCmd
  inflight : t.inflight = s.inflight

theorem readTarget_undisturbed (s : State) (g : Target) : Undisturbed s (s.readTarget g) := by
  rw [readTarget_fields]
  exact ⟨rfl, rfl, rfl, rfl, rfl⟩

/-- While BUSY a write changes at most OVR, IRQ_EN, or the bits a STATUS write clears, unless it is
the soft reset (R42, R44, R63, R75). -/
theorem writeTarget_undisturbed (hb : s.busy = true) {v : Word} {g : Target}
    (hg : g = .ctrl → v.getLsbD 1 = false) : Undisturbed s (s.writeTarget v g) := by
  cases g
  case ctrl =>
    rw [State.writeTarget, writeCtrl_of_not_srst s (hg rfl)]
    exact ⟨rfl, rfl, rfl, rfl, rfl⟩
  case cmd =>
    rw [State.writeTarget, issue_of_busy hb]
    exact ⟨rfl, rfl, rfl, rfl, rfl⟩
  case freg i j =>
    rw [State.writeTarget, writeFreg_of_busy hb]
    exact ⟨rfl, rfl, rfl, rfl, rfl⟩
  case fregGap =>
    rw [State.writeTarget, gapBusy_eq]
    exact ⟨rfl, rfl, rfl, rfl, rfl⟩
  all_goals exact ⟨rfl, rfl, rfl, rfl, rfl⟩

/-- A host access of a busy core leaves the command in flight alone, or it is the soft reset. -/
theorem busAccess_undisturbed (hb : s.busy = true) (h : busAccess a s = .next t) :
    Undisturbed s t ∨
      (a.addr = s.base + 0x08 ∧ a.width = .w64 ∧ ∃ v, a.kind = .write v ∧ v.getLsbD 1 = true) := by
  obtain rfl | rfl | ⟨v, hkind, hwidth, hbase, rfl⟩ := busAccess_cases h
  · exact .inl ⟨rfl, rfl, rfl, rfl, rfl⟩
  · exact .inl (readTarget_undisturbed s _)
  · by_cases hsrst : locate (a.addr - s.base) = .ctrl ∧ v.getLsbD 1 = true
    · obtain ⟨hctrl, hbit⟩ := hsrst
      have := eq_of_locate_eq_ctrl hctrl
      exact .inr ⟨by omega, hwidth, v, hkind, hbit⟩
    · have hw := writeTarget_undisturbed hb (v := v) (g := locate (a.addr - s.base))
        fun hctrl => Bool.eq_false_iff.mpr fun hbit => hsrst ⟨hctrl, hbit⟩
      exact .inl ⟨hw.regs, hw.flags, hw.err, hw.lastCmd, hw.inflight⟩

/-- Settles O58, access by access. -/
theorem onlySoftResetDisturbsACommandInFlight :
    Obligations.OnlySoftResetDisturbsACommandInFlight := by
  intro s t a rest hb hin h
  simp only [step, hin] at h
  obtain ⟨regs, flags, err, lastCmd, inflight⟩ | srst :=
    busAccess_undisturbed (s := { s with inbox := rest }) hb h
  · exact .inl ⟨regs, flags, err, lastCmd, inflight⟩
  · exact .inr srst

end Sys2Proof.Machine
end

/-! Writes that are accepted and ignored (spec/20_memory.md R63, R66, R67). -/

section
namespace Sys2Proof.Machine

variable {s : State} {rest : List Event} {off : Nat} {v : Word}

/-- A write to a target that ignores it. -/
theorem step_writeAt_ignored (h : s.inbox = writeAt s.base off v :: rest) (hoff : off < 0x2000)
    (hal : off % 8 = 0) (hg : ∀ u : State, u.writeTarget v (locate off) = u) :
    step s = .next { s with inbox := rest, replies := .ack :: s.replies } := by
  rw [step_writeAt h hoff hal, hg]
  rfl

/-- The CONST window takes no write, in its slots or between them (R63, R71). -/
theorem writeTarget_constWindow (hlo : 0x1000 ≤ off) (hhi : off < 0x1480) (u : State) :
    u.writeTarget v (locate off) = u := by
  rw [locate_constWindow hlo hhi]
  split <;> rfl

theorem writeTarget_reserved (h : Claims.Reserved off) (u : State) :
    u.writeTarget v (locate off) = u := by
  rw [locate_of_reserved h]
  rfl

/-- Whether OVR is set is the implementation's choice (Log 12). -/
theorem step_write_fregGap (h : s.inbox = writeAt s.base off v :: rest)
    (hg : Claims.FregGap off) :
    step s = .next { s with
      status := { s.status with ovr := s.status.ovr || (s.busy && Config.gapSetsOvr) }
      inbox := rest, replies := .ack :: s.replies } := by
  have ⟨hal, _, hhi, _⟩ := hg
  rw [step_writeAt h (by omega) hal, locate_of_fregGap hg, State.writeTarget, gapBusy_eq]
  rfl

/-- Settles O60, by what the offset reaches. -/
theorem writesToReadOnlyOffsetsAreIgnored : Obligations.WritesToReadOnlyOffsetsAreIgnored := by
  intro s off v rest h
  refine ⟨?ignored, fun hg => ⟨Config.gapSetsOvr, step_write_fregGap h hg⟩⟩
  case ignored =>
    rintro (rfl | rfl | rfl | ⟨hal, hlo, hhi⟩ | hr)
    · exact step_writeAt_ignored h (by decide) (by decide) fun _ => rfl
    · exact step_writeAt_ignored h (by decide) (by decide) fun _ => rfl
    · exact step_writeAt_ignored h (by decide) (by decide) fun _ => rfl
    · exact step_writeAt_ignored h (by omega) hal (writeTarget_constWindow hlo hhi)
    · have ⟨hal, hoff⟩ := hr
      exact step_writeAt_ignored h (by omega) hal (writeTarget_reserved hr)

end Sys2Proof.Machine
end

/-! The encoder and the decoder undo each other, and legality is the format table of the rules
(spec/30_encoding.md R86 to R91, R96, R99). -/

section
namespace Sys2Proof

open Laws.ReservedClear (point_lt sign_lt)

variable {w : Word} {f : Fields} {fmt : Format} {mk : Fields → Instr}

/-! ### The operands in the fields of a word -/

theorem fd_val (h : f.rd < 16) : f.fd.val = f.rd := Nat.mod_eq_of_lt h
theorem f1_val (h : f.rs1 < 16) : f.f1.val = f.rs1 := Nat.mod_eq_of_lt h
theorem f2_val (h : f.rs2 < 16) : f.f2.val = f.rs2 := Nat.mod_eq_of_lt h
theorem pd_val (h : f.rd < 8) : f.pd.val = f.rd := Nat.mod_eq_of_lt h
theorem p1_val (h : f.rs1 < 8) : f.p1.val = f.rs1 := Nat.mod_eq_of_lt h
theorem p2_val (h : f.rs2 < 8) : f.p2.val = f.rs2 := Nat.mod_eq_of_lt h
theorem immBits_toNat (h : f.imm < 1024) : f.immBits.toNat = f.imm := Nat.mod_eq_of_lt h

/-- PDEC's sign is IMM, which is a single bit (R91 (f)). -/
theorem sign_toNat (h : f.imm ≤ 1) : (f.imm == 1).toNat = f.imm := by
  obtain h0 | h1 : f.imm = 0 ∨ f.imm = 1 := by omega
  · rw [h0]; rfl
  · rw [h1]; rfl

/-! ### From a command to its word and back -/

/-- Settles O1, format by format (R89): the fields of the command's word are its operands. -/
theorem decodeOfEncodeGivesTheCommand : Obligations.DecodeOfEncodeGivesTheCommand := by
  intro i hi
  cases i
  case nop => decide
  case csel rd a b | dadd rd a b | dsub rd a b | fadd rd a b | fsub rd a b | mmul rd a b =>
    rw [encode, decode_wordOf (by decide) rd.isLt a.isLt b.isLt (by decide) rfl rfl]
    simp [Fields.fd, Fields.f1, Fields.f2]
  case mov rd a | dnorm rd a | fneg rd a | msqr rd a | tom rd a | fromm rd a | finv rd a
      | fsqrt rd a =>
    rw [encode, decode_wordOf (by decide) rd.isLt a.isLt (by decide) (by decide) rfl rfl]
    simp [Fields.fd, Fields.f1]
  case dcmp a b | feq a b =>
    rw [encode, decode_wordOf (by decide) (by decide) a.isLt b.isLt (by decide) rfl rfl]
    simp [Fields.f1, Fields.f2]
  case disz a | fpar a | fchk a =>
    rw [encode, decode_wordOf (by decide) (by decide) a.isLt (by decide) (by decide) rfl rfl]
    simp [Fields.f1]
  case dshl rd a n | dshr rd a n =>
    rw [encode, decode_wordOf (by decide) rd.isLt a.isLt (by decide) n.isLt rfl rfl]
    simp [Fields.fd, Fields.f1, Fields.immBits]
  case ldk rd k =>
    have hk : k.toNat ≤ 9 := by simpa [Instr.wellFormed] using hi
    rw [encode, decode_wordOf (by decide) rd.isLt (by decide) (by decide) k.isLt rfl
      (by simp [fieldFault_none, Format.rdUse, Format.rs1Use, Format.rs2Use, Format.usesImm, hk])]
    simp [Fields.fd, Fields.immBits]
  case padd pd a b =>
    rw [encode, decode_wordOf (by decide) (point_lt pd) (point_lt a) (point_lt b) (by decide) rfl
      (by simp [fieldFault_none, Format.rdUse, Format.rs1Use, Format.rs2Use, Format.usesImm])]
    simp [Fields.pd, Fields.p1, Fields.p2]
  case pdbl pd a | pneg pd a | pcof pd a =>
    rw [encode, decode_wordOf (by decide) (point_lt pd) (point_lt a) (by decide) (by decide) rfl
      (by simp [fieldFault_none, Format.rdUse, Format.rs1Use, Format.rs2Use, Format.usesImm])]
    simp [Fields.pd, Fields.p1]
  case pmul pd a b =>
    rw [encode, decode_wordOf (by decide) (point_lt pd) (point_lt a) b.isLt (by decide) rfl
      (by simp [fieldFault_none, Format.rdUse, Format.rs1Use, Format.rs2Use, Format.usesImm])]
    simp [Fields.pd, Fields.p1, Fields.f2]
  case ponc a | pval a =>
    rw [encode, decode_wordOf (by decide) (by decide) (point_lt a) (by decide) (by decide) rfl
      (by simp [fieldFault_none, Format.rdUse, Format.rs1Use, Format.rs2Use, Format.usesImm])]
    simp [Fields.p1]
  case pdec pd a s =>
    rw [encode, decode_wordOf (by decide) (point_lt pd) a.isLt (by decide) (sign_lt s) rfl
      (by simp [fieldFault_none, Format.rdUse, Format.rs1Use, Format.rs2Use, Format.usesImm,
        Bool.toNat_le])]
    simp [Fields.pd, Fields.f1]
  case penc rd a =>
    rw [encode, decode_wordOf (by decide) rd.isLt (point_lt a) (by decide) (by decide) rfl
      (by simp [fieldFault_none, Format.rdUse, Format.rs1Use, Format.rs2Use, Format.usesImm])]
    simp [Fields.fd, Fields.p1]

/-- The command that a row of the opcode map builds keeps every field: those its format uses are
its operands, the others are 0. -/
theorem encode_of_opcodeMap (hop : opcodeMap f.opc = some (fmt, mk)) (hf : fieldFault fmt f = none)
    (hrd : f.rd < 16) (hrs1 : f.rs1 < 16) (hrs2 : f.rs2 < 16) (himm : f.imm < 1024) :
    encode (mk f) = wordOf f.opc f.rd f.rs1 f.rs2 f.imm := by
  rw [fieldFault_none] at hf
  unfold opcodeMap at hop
  split at hop <;> cases hop
  all_goals
    simp_all [encode, Format.rdUse, Format.rs1Use, Format.rs2Use, Format.usesImm, fd_val, f1_val,
      f2_val, pd_val, p1_val, p2_val, immBits_toNat, sign_toNat]

/-- Settles O2: the command keeps every field of the word, and the reserved bits are 0. -/
theorem legalWordIsTheWordOfItsCommand : Obligations.LegalWordIsTheWordOfItsCommand := by
  intro w i h
  refine ⟨wellFormed_of_decode h, ?_⟩
  obtain ⟨fmt, mk, hop, hf, rfl⟩ := decode_cases h
  have ⟨hrsv, _⟩ := fieldFault_none.mp hf
  calc encode (mk (fieldsOf w))
    _ = wordOf (fieldsOf w).opc (fieldsOf w).rd (fieldsOf w).rs1 (fieldsOf w).rs2
        (fieldsOf w).imm :=
      encode_of_opcodeMap hop hf (bits_lt w 8 4) (bits_lt w 12 4) (bits_lt w 16 4) (bits_lt w 20 10)
    _ = w := wordOf_fieldsOf hrsv

/-! ### Legality by the rules -/

/-- Every opcode of the rules' ranges is assigned (R90, R91 (a)). -/
theorem isSome_opcodeMap_of_assigned : ∀ n < 0x29,
    (n ≤ 0x0A ∨ (0x10 ≤ n ∧ n ≤ 0x1B) ∨ (0x20 ≤ n ∧ n ≤ 0x28)) → (opcodeMap n).isSome = true := by
  decide

theorem not_legalByRules_of_opcodeMap (h : opcodeMap (fieldsOf w).opc = none) :
    ¬ Claims.legalByRules w := by
  rintro ⟨hopc, -⟩
  have hsome := isSome_opcodeMap_of_assigned (fieldsOf w).opc (by simp only [fieldsOf]; omega) hopc
  rw [h] at hsome
  cases hsome

/-- On an assigned opcode the rules' lists of opcodes are the columns of its format (R89 to R91). -/
theorem legalByRules_iff_of_opcodeMap (h : opcodeMap (fieldsOf w).opc = some (fmt, mk)) :
    Claims.legalByRules w ↔ fieldFault fmt (fieldsOf w) = none := by
  rw [fieldFault_none]
  unfold opcodeMap at h
  simp only [fieldsOf, Claims.legalByRules] at *
  split at h <;> cases h
  all_goals
    rename_i hopc
    simp [hopc, Format.rdUse, Format.rs1Use, Format.rs2Use, Format.usesImm, Nat.lt_succ_iff]

/-- Settles O3: an unassigned opcode breaks (a), and on an assigned one the rules and the decoder
ask the same of the fields. -/
theorem legalityFollowsTheFormatTable : Obligations.LegalityFollowsTheFormatTable := by
  intro w
  rw [legal_iff]
  constructor
  · rintro ⟨fmt, mk, hop, hf⟩
    exact (legalByRules_iff_of_opcodeMap hop).mpr hf
  · intro hrules
    cases hop : opcodeMap (fieldsOf w).opc with
    | none => exact absurd hrules (not_legalByRules_of_opcodeMap hop)
    | some row => exact ⟨row.1, row.2, rfl, (legalByRules_iff_of_opcodeMap hop).mp hrules⟩

theorem decode_of_not_legal (h : ¬ legal w = true) : ∃ why, decode w = .illegal why := by
  cases hd : decode w with
  | legal i => exact absurd (by simp only [legal, hd]) h
  | illegal why => exact ⟨why, rfl⟩

/-- Settles O4: the eight words are decoded. -/
theorem specExampleWordsDecode : Obligations.SpecExampleWordsDecode := by
  unfold Obligations.SpecExampleWordsDecode
  decide

end Sys2Proof
end

/-! What a write to CMD of an idle core does, and what the command in flight does at its completion
(spec/30_encoding.md R92 to R95). -/

section
namespace Sys2Proof.Machine

variable {s : State} {w : Word} {i : Instr} {rest : List Event}

/-! ### Acceptance and refusal -/

theorem issue_of_legal (hb : s.busy = false) (hd : decode w = .legal i) :
    s.issue w = { s with lastCmd := w }.accept i := by
  simp only [State.issue, hb, hd, Bool.false_eq_true, if_false]

theorem issue_of_illegal {why : IllegalReason} (hb : s.busy = false)
    (hd : decode w = .illegal why) : s.issue w = { s with lastCmd := w }.illegalCompletion := by
  simp only [State.issue, hb, hd, Bool.false_eq_true, if_false]

/-- A write to CMD issues the word (R62, R93). -/
theorem step_write_cmd (h : s.inbox = writeAt s.base 0x20 w :: rest) :
    step s = .next (({ s with inbox := rest }.issue w).reply .ack) :=
  step_writeAt h (by decide) (by decide)

@[simp] theorem accept_irqEn (s : State) (i : Instr) : (s.accept i).irqEn = s.irqEn :=
  recordFault_irqEn _ _
@[simp] theorem accept_draws (s : State) (i : Instr) : (s.accept i).draws = s.draws :=
  recordFault_draws _ _
@[simp] theorem accept_inbox (s : State) (i : Instr) : (s.accept i).inbox = s.inbox :=
  recordFault_inbox _ _
@[simp] theorem accept_replies (s : State) (i : Instr) : (s.accept i).replies = s.replies :=
  recordFault_replies _ _
@[simp] theorem accept_busy (s : State) (i : Instr) : (s.accept i).busy = true := by
  simp [State.busy]

/-- No model fault is recorded for a command in contract (R94). -/
theorem accept_faults_of_contract (h : Claims.ContractHolds s.cfg s.snapshot i) :
    (s.accept i).faults = s.faults := by
  rw [accept_faults, (contractFault_eq_none s.cfg s.snapshot i).mpr h, recordFault_none]

/-- Out of contract the first check that fails has its model fault recorded (R94, R151). -/
theorem accept_faults_of_not_contract (h : ¬ Claims.ContractHolds s.cfg s.snapshot i) :
    ∃ k, Claims.ContractFails s.cfg s.snapshot i k ∧ (s.accept i).faults = s.faults.record k := by
  rw [← contractFault_eq_none, ← ne_eq, Option.ne_none_iff_exists'] at h
  obtain ⟨k, hk⟩ := h
  exact ⟨k, (contractFault_eq_some s.cfg s.snapshot i k).mp hk,
    by rw [accept_faults, hk, recordFault_some]⟩

/-- Settles O6, from what `accept` does to each field. -/
theorem legalCommandIsAccepted : Obligations.LegalCommandIsAccepted := by
  intro s w i rest hb hin hd
  have hissue := issue_of_legal (s := { s with inbox := rest }) hb hd
  refine ⟨_, step_write_cmd hin, ?_⟩
  rw [hissue]
  refine ⟨accept_busy _ i, accept_inflight _ i, accept_status _ i, accept_lastCmd _ i,
    accept_regs _ i, accept_flags _ i, accept_irqEn _ i, accept_cfg _ i, accept_inbox _ i,
    congrArg _ (accept_replies _ i), accept_draws _ i,
    accept_faults_of_contract (s := { s with inbox := rest, lastCmd := w }),
    accept_faults_of_not_contract (s := { s with inbox := rest, lastCmd := w })⟩

/-- Settles O7: by O3 the decoder answers illegal, and the completion sets DONE, ILLEGAL and ERR
alone. -/
theorem illegalCommandCompletesAtOnce : Obligations.IllegalCommandCompletesAtOnce := by
  intro s w rest hb hin hrules
  obtain ⟨why, hd⟩ := decode_of_not_legal (mt (legalityFollowsTheFormatTable w).mp hrules)
  refine ⟨_, step_write_cmd hin, ?_⟩
  rw [issue_of_illegal (s := { s with inbox := rest }) hb hd]
  exact ⟨rfl, rfl, rfl, rfl, rfl, rfl, rfl, rfl, rfl, rfl, rfl, rfl, rfl, rfl, rfl⟩

/-! ### Completion -/

/-- The core's turn with a command in flight, when nothing is to arrive (Log 7). -/
theorem step_of_inflight_of_empty {r : InFlight} (h : s.inflight = some r) (hin : s.inbox = []) :
    step s = exec r.instr s := by
  simp only [step, hin, coreStep, h]

/-- The core's turn with a command in flight, ahead of what is still to arrive (R157, R177). -/
theorem step_of_inflight_of_coreTurn {r : InFlight} (h : s.inflight = some r)
    (hin : s.inbox = .coreTurn :: rest) : step s = exec r.instr { s with inbox := rest } := by
  simp only [step, hin, coreStep, h]

/-- The state after the write of a legal word, the core's turn next (Log 14). -/
theorem withFetchWord_of_legal (s : State) (hd : decode w = .legal i) :
    s.withFetchWord 64 w.toNat =
      { { s with inflight := none, lastCmd := w }.accept i with inbox := .coreTurn :: s.inbox } := by
  have hw : BitVec.ofNat 64 (w.toNat % 2 ^ 64) = w := by
    rw [Nat.mod_eq_of_lt w.isLt, BitVec.ofNat_toNat, BitVec.setWidth_eq]
  rw [State.withFetchWord, hw, issue_of_legal rfl hd]

theorem withFetchWord_inflight (s : State) (hd : decode w = .legal i) :
    (s.withFetchWord 64 w.toNat).inflight = some ⟨i, s.snapshot⟩ := by
  rw [withFetchWord_of_legal s hd]
  exact accept_inflight _ i

/-- Settles O5: the turn of the core is `exec` of what is in flight, and that is the command just
issued. -/
theorem stepRunsTheDecodedCommand : Obligations.StepRunsTheDecodedCommand := by
  constructor
  · intro s w i hd
    refine ⟨step_of_inflight_of_coreTurn (withFetchWord_inflight s hd) rfl, ?_⟩
    rw [withFetchWord_of_legal s hd]
    exact ⟨accept_regs _ i, accept_lastCmd _ i⟩
  · intro s r hr
    exact ⟨step_of_inflight_of_empty hr, fun rest => step_of_inflight_of_coreTurn hr⟩

/-- The recorded model faults are in no frame (R151). -/
theorem Frame.recordFault {ds : List FReg} {fs : FlagSet} {u : State} (h : Frame ds fs s u)
    (k : ModelFault) : Frame ds fs s (u.recordFault (some k)) :=
  ⟨h.regs, h.flagC, h.flagB, h.flagT, h.flagP, h.flagCmp, h.illegal, h.ovr, h.irqEn, h.lastCmd,
    h.cfg, h.basePage, h.inbox, h.replies⟩

/-- Settles O9, in contract by the frame of the command's effect, out of contract by that of the
unspecified completion. -/
theorem everyCommandCompletesWithItsFrame : Obligations.EveryCommandCompletesWithItsFrame := by
  intro i s hw
  obtain ⟨effect, he, hfin⟩ := exec_perform s hw
  cases hc : contractFault s.cfg (operands s) (needs i) with
  | none =>
    have hholds := (contractFault_eq_none s.cfg (operands s) i).mp hc
    obtain ⟨frame, done, idle, -, -⟩ := hfin (operands s)
    exact ⟨_, he.trans (perform_of_contract hc), done, (busy_eq_false_iff _).mpr idle,
      fun f hf => frame.regs f (mt (mem_dests i f).mp hf), fun _ => flagsWritten_eq i ▸ frame,
      absurd hholds⟩
  | some k =>
    have hfails : ¬ Claims.ContractHolds s.cfg (operands s) i := by
      rw [← contractFault_eq_none, hc]
      exact Option.some_ne_none k
    have hneeds : needs i ≠ [] := by
      intro h
      rw [h] at hc
      cases hc
    have frame := ((Frame.refl (dests i) (unspecifiedFlags i) s).recordFault k).trans
      (frame_completeUnspecified _ i)
    exact ⟨_, he.trans (perform_of_fault hc), rfl, rfl,
      fun f hf => frame.regs f (mt (mem_dests i f).mp hf), fun h => absurd h hfails,
      fun _ => unspecifiedFlags_eq i hneeds ▸ frame⟩

end Sys2Proof.Machine
end

/-! The Digit Vector commands (spec/40_digit_vector.md): what each writes is said by `exec_<command>`,
so a proof here gives the register and the flag written, and the frame of those writes. -/

section
namespace Sys2Proof.Machine

variable {s : State} {rd : FReg} {v : Nat}

/-! ### Copies and NOP -/

/-- A command that copies storage words writes its destination alone (R28, R105, R107). -/
theorem completed_setReg (s : State) (rd : FReg) (r : FieldReg) :
    Completed [rd] {} .ok s ((s.setReg rd r).complete .ok) :=
  ((Frame.refl [rd] {} s).setReg List.mem_cons_self r).completed rfl rfl .ok

/-- Settles O13: the completion leaves DONE alone of the four bits of STATUS, and code 0. -/
theorem nopOnlyCompletes : Obligations.NopOnlyCompletes := by
  intro s
  refine ⟨_, exec_nop, (Frame.refl [] {} s).completed rfl rfl .ok, fun hill hovr => ?_⟩
  simp [statusWord, State.busy, codeNum, hill, hovr]

/-- Settles O14: the operand's register contents are what is written, slot by slot. -/
theorem movCopiesTheWordsVerbatim : Obligations.MovCopiesTheWordsVerbatim := fun s rd _ ha =>
  ⟨_, exec_mov ha, reg_setReg_self s rd _, completed_setReg s rd _⟩

/-- Settles O16, by the value of T in what the command reads. -/
theorem cselSelectsOnT : Obligations.CselSelectsOnT := by
  intro s rd a b ha hb
  refine ⟨_, exec_csel ha hb, fun ht => ?_, fun ht => ?_, completed_setReg s rd _⟩
  · rw [reg_complete, reg_setReg_self, if_pos ht]
  · rw [reg_complete, reg_setReg_self, if_neg (Bool.eq_false_iff.mp ht)]

/-! ### Addition, subtraction and tests -/

/-- A command that writes `F[rd] <- v` and FLAGS.C, for a `v` that a register can hold. -/
theorem holds_completed_setVal_setC (s : State) (rd : FReg) (hv : v < radix) (b : Bool) :
    (((s.setVal rd v).setC b).complete .ok).Holds rd v ∧
      Completed [rd] { c := true } .ok s (((s.setVal rd v).setC b).complete .ok) :=
  ⟨(holds_complete _).mpr ((holds_setC b).mpr (holds_setVal hv)),
    (((Frame.refl [rd] _ s).setVal List.mem_cons_self v).setC rfl b).completed rfl rfl .ok⟩

/-- Settles O17: the remainder fits a register, and C is the test of the sum itself. -/
theorem daddAddsWithCarryOut : Obligations.DaddAddsWithCarryOut := by
  intro s rd a b ha hb
  obtain ⟨holds, completed⟩ := holds_completed_setVal_setC s rd
    (mod_radix_lt ((operands s).val a + (operands s).val b)) (carryOut _ _)
  exact ⟨_, exec_dadd ha hb, holds, rfl, completed⟩

/-- Subtraction of residues: the modulus is added when the first is less. -/
theorem subMod_eq_ite {p a b : Nat} (ha : a < p) (hb : b < p) :
    subMod p a b = if a < b then a + p - b else a - b := by
  rw [subMod, Nat.mod_eq_of_lt hb]
  split
  · rw [Nat.mod_eq_of_lt (by omega)]
    omega
  · rw [show a + (p - b) = a - b + p by omega, Nat.add_mod_right, Nat.mod_eq_of_lt (by omega)]

/-- Settles O18: both operands are below `2^540`, so one addition of it at most undoes the wrap. -/
theorem dsubSubtractsWithBorrowOut : Obligations.DsubSubtractsWithBorrowOut := by
  intro s rd a b ha hb
  have hsub := subMod_eq_ite (Snapshot.val_lt ha) (Snapshot.val_lt hb)
  refine ⟨_, exec_dsub ha hb, ?_, rfl,
    (((Frame.refl [rd] _ s).setVal List.mem_cons_self _).setB rfl _).completed rfl rfl .ok⟩
  rw [holds_complete, holds_setB, ← hsub]
  exact holds_setVal (subMod_lt radix_pos _ _)

/-- The bits of CMP that a comparison gives (R40, R110). -/
theorem cmpBits_compare (a b : Nat) :
    cmpBits (compare a b) = if a = b then 0 else if a < b then 1 else 2 := by
  rw [compare]
  split
  · rfl
  · split <;> rfl

/-- Settles O19: DCMP by the order of the two integers, DISZ by its test. -/
theorem dcmpAndDiszTestTheIntegers : Obligations.DcmpAndDiszTestTheIntegers := by
  refine ⟨fun s a b ha hb => ?dcmp, fun s a ha => ?disz⟩
  case dcmp =>
    refine ⟨_, exec_dcmp ha hb,
      ((Frame.refl [] _ s).setCmp rfl (compare _ _)).completed rfl rfl .ok, ?_⟩
    simp only [complete_flags, setCmp_flags, cmpBits_compare]
    refine ⟨fun heq => if_pos heq, fun hlt => ?_, fun hgt => ?_⟩
    · rw [if_neg hlt.ne, if_pos hlt]
    · rw [if_neg hgt.ne', if_neg hgt.asymm]
  case disz =>
    exact ⟨_, exec_disz ha, ((Frame.refl [] _ s).setT rfl (_ == _)).completed rfl rfl .ok,
      beq_eq_decide _ _⟩

/-! ### Shifts and normalization -/

/-- A 1 bit is shifted out at the top when the product reaches `2^540` (R112). -/
theorem shlLost_eq (a n : Nat) : shlLost a n = decide (radix ≤ a * 2 ^ n) := by
  have := radix_pos
  rw [shlLost, Bool.eq_iff_iff, bne_iff_ne, Nat.div_ne_zero_iff, decide_eq_true_iff]
  omega

/-- Settles O20: what C tests, the quotient by `2^540`, is not 0 when the product reaches it. -/
theorem dshlShiftsLeft : Obligations.DshlShiftsLeft := by
  intro s rd a n ha
  obtain ⟨holds, completed⟩ := holds_completed_setVal_setC s rd
    (mod_radix_lt ((operands s).val a * 2 ^ n.toNat)) (shlLost _ _)
  exact ⟨_, exec_dshl ha, holds, shlLost_eq _ _, completed⟩

/-- A 1 bit is shifted out at the bottom when the remainder is not 0 (R113). -/
theorem shrLost_eq (a n : Nat) : shrLost a n = decide (a % 2 ^ n ≠ 0) := by
  rw [shrLost, Bool.eq_iff_iff, bne_iff_ne, decide_eq_true_iff]

/-- Settles O21: the quotient is no larger than the operand. -/
theorem dshrShiftsRight : Obligations.DshrShiftsRight := by
  intro s rd a n ha
  have hlt : (operands s).val a / 2 ^ n.toNat < radix :=
    (Nat.div_le_self _ _).trans_lt (Snapshot.val_lt ha)
  obtain ⟨holds, completed⟩ := holds_completed_setVal_setC s rd hlt (shrLost _ _)
  exact ⟨_, exec_dshr ha, holds, shrLost_eq _ _, completed⟩

/-- DNORM's overflow never happens to a canonical operand (R114). -/
theorem normLost_of_lt {v : Nat} (h : v < radix) : normLost v = false :=
  decide_eq_false (Nat.not_le.mpr h)

/-- Settles O22: the sum is the value of the register, and a canonical register is the digits of its
value, which is below `2^540`. -/
theorem dnormNormalizesTheDigits : Obligations.DnormNormalizesTheDigits := by
  intro s rd a ha
  rw [← regVal_eq_sum]
  obtain ⟨holds, completed⟩ := holds_completed_setVal_setC s rd
    (mod_radix_lt ((operands s).val a)) (normLost _)
  refine ⟨_, exec_dnorm ha, holds, rfl, fun hc => ⟨?copied, normLost_of_lt (Snapshot.val_lt hc)⟩,
    completed⟩
  case copied =>
    rw [reg_complete, reg_setC, reg_setVal_self, Nat.mod_eq_of_lt (Snapshot.val_lt hc)]
    exact regOf_regVal _ hc.1 hc.2

end Sys2Proof.Machine
end

/-! Every constant of LDK is below `2^540` (spec/40_digit_vector.md R106). For `Q` this needs a bound
on the number of points of `E`: a twisted Edwards curve has at most two points with one x coordinate,
so `4 Q = #E ≤ 2 p`. -/

section
namespace Sys2Proof

variable {c : Cfg} {x y z : Nat}

/-- On the curve `x` fixes `y^2`, since `1 - d x^2` is not 0 for a nonsquare `d`. -/
theorem Edwards.sq_eq_of_on {K : Type*} [Field K] {d x y z : K} (hd : ∀ u : K, u * u ≠ d)
    (hy : On d (x, y)) (hz : On d (x, z)) : z * z = y * y := by
  simp only [On] at hy hz
  have hfac : (1 - d * (x * x)) * (z * z - y * y) = 0 := by linear_combination hz - hy
  obtain hden | hsq := mul_eq_zero.mp hfac
  · have hx : x ≠ 0 := by
      rintro rfl
      simp at hden
    refine absurd ?_ (hd x⁻¹)
    field_simp
    linear_combination hden
  · exact sub_eq_zero.mp hsq

/-- Two reduced numbers whose squares have one residue are equal or opposite. -/
theorem eq_or_eq_sub_of_residue_sq [Fact (Nat.Prime c.p)] (hy : y < c.p) (hz : z < c.p)
    (h : (z : ZMod c.p) * z = y * y) : z = y ∨ z = c.p - y := by
  obtain heq | hneg := mul_self_eq_mul_self_iff.mp h
  · exact .inl (eq_of_residue hz hy heq)
  · have hdvd : c.p ∣ z + y := by
      rw [← ZMod.natCast_eq_zero_iff, Nat.cast_add, hneg, neg_add_cancel]
    by_cases h0 : z + y = 0
    · omega
    · have hsum := Nat.eq_of_dvd_of_lt_two_mul h0 hdvd (by omega)
      omega

/-- The points of `E` with one x coordinate have opposite y coordinates. -/
theorem onCurve_same_x (h : c.Valid) (hy : c.onCurve ⟨x, y⟩ = true) (hz : c.onCurve ⟨x, z⟩ = true) :
    z = y ∨ z = c.p - y := by
  have := h.fact
  obtain ⟨-, hyp, hyE⟩ := onCurve_iff.mp hy
  obtain ⟨-, hzp, hzE⟩ := onCurve_iff.mp hz
  exact eq_or_eq_sub_of_residue_sq hyp hzp (Edwards.sq_eq_of_on (residue_nonsquare h) hyE hzE)

theorem countP_onCurve_le_two (h : c.Valid) (x : Nat) :
    (List.range c.p).countP (fun y => c.onCurve ⟨x, y⟩) ≤ 2 := by
  by_cases hex : ∃ y, c.onCurve ⟨x, y⟩ = true
  · obtain ⟨y, hy⟩ := hex
    have hsub : (List.range c.p).filter (fun y => c.onCurve ⟨x, y⟩) ⊆ [y, c.p - y] := by
      intro z hz
      simpa using onCurve_same_x h hy (List.mem_filter.mp hz).2
    rw [List.countP_eq_length_filter]
    exact ((List.nodup_range.filter _).subperm hsub).length_le
  · rw [List.countP_eq_zero.mpr fun y _ hy => hex ⟨y, hy⟩]
    exact Nat.zero_le 2

theorem card_le (h : c.Valid) : c.card ≤ c.p * 2 := by
  have hsum := List.sum_le_card_nsmul
    ((List.range c.p).map fun x => (List.range c.p).countP fun y => c.onCurve ⟨x, y⟩) 2 (by
      intro n hn
      obtain ⟨x, -, rfl⟩ := List.mem_map.mp hn
      exact countP_onCurve_le_two h x)
  rwa [List.length_map, List.length_range, smul_eq_mul] at hsum

/-- The group order is below the modulus (R106). -/
theorem q_lt_p (h : c.Valid) : c.q < c.p := by
  have hcard := card_le h
  have hpos := h.pos
  rw [← h.order, h.cof] at hcard
  omega

end Sys2Proof

namespace Sys2Proof.Machine

/-- The model's table of constants is the rules' (R106). -/
theorem constK_eq (c : Cfg) {k : Nat} (hk : k ≤ 9) : constK c k = Claims.constantOf c k := by
  match k, hk with
  | 0, _ | 1, _ | 2, _ | 3, _ | 4, _ | 5, _ | 6, _ | 7, _ | 8, _ | 9, _ => rfl

/-- Every constant is 0, 1, or at most `p` (R106). -/
theorem constK_le_p {c : Cfg} (h : c.Valid) (k : Nat) : constK c k ≤ c.p := by
  have hbig := h.big
  unfold constK
  split
  · exact Nat.zero_le _
  · omega
  · exact (Nat.mod_lt _ h.pos).le
  · exact le_rfl
  · exact h.r2 ▸ (Nat.mod_lt _ h.pos).le
  · exact (q_lt_p h).le
  · exact (mont_lt h.pos _).le
  · exact (mont_lt h.pos _).le
  · exact (mont_lt h.pos _).le
  · rw [h.cof]
    exact hbig

/-- Settles O15: every constant is at most `p`, which is below `2^540`. -/
theorem ldkLoadsTheConstant : Obligations.LdkLoadsTheConstant := by
  intro s rd k h hk
  refine ⟨_, exec_ldk hk, ?_,
    ((Frame.refl [rd] {} s).setVal List.mem_cons_self _).completed rfl rfl .ok⟩
  rw [holds_complete, ← constK_eq s.cfg hk]
  exact holds_setVal ((constK_le_p h _).trans_lt (p_lt_radix h))

end Sys2Proof.Machine
end

/-! Out-of-contract completions (spec/41_field.md R116, spec/42_point.md R133, spec/60_exceptions.md
R151): the model's checks, destinations and open flags are those of the rules, and one free draw
gives the results. -/

section
namespace Sys2Proof.Machine

variable {i : Instr} {s : State} {k : ModelFault}

/-- A fault of the model's checks breaks the contract that the rules state. -/
theorem not_contractHolds_of_fault {c : Cfg} {v : Snapshot}
    (h : contractFault c v (needs i) = some k) : ¬ Claims.ContractHolds c v i := by
  rw [← contractFault_eq_none, h]
  exact Option.some_ne_none k

/-- A command that has no contract raises no fault. -/
theorem needs_ne_nil_of_fault {c : Cfg} {v : Snapshot}
    (h : contractFault c v (needs i) = some k) : needs i ≠ [] := by
  intro hnil
  rw [hnil, contractFault_nil] at h
  cases h

/-- Each destination holds its part of the free draw, whatever fault was recorded before. -/
theorem reg_recordFault_completeUnspecified (s : State) (k : ModelFault) (i : Instr) (n : Nat)
    (h : n < (dests i).length) :
    ((s.recordFault (some k)).completeUnspecified i).reg (dests i)[n] =
      freeReg (copiesRaw i) s.draws n := by
  rw [reg_completeUnspecified, recordFault_draws]

/-- Settles O10: in contract the effect records no fault and draws nothing; out of contract the
completion with unspecified results takes the next draw. -/
theorem outOfContractCommandRecordsAModelFault :
    Obligations.OutOfContractCommandRecordsAModelFault := by
  intro i s hw
  obtain ⟨effect, he, hfin⟩ := exec_perform s hw
  cases hc : contractFault s.cfg (operands s) (needs i) with
  | none =>
    have hholds := (contractFault_eq_none s.cfg (operands s) i).mp hc
    exact ⟨_, he.trans (perform_of_contract hc),
      fun _ => ⟨(hfin (operands s)).faults, (hfin (operands s)).draws⟩, absurd hholds⟩
  | some k =>
    refine ⟨_, he.trans (perform_of_fault hc), fun h => absurd h (not_contractHolds_of_fault hc),
      fun _ => ⟨?draws, ⟨k, (contractFault_eq_some _ _ _ _).mp hc, ?faults⟩,
        reg_recordFault_completeUnspecified s k i, ?flags, ?err⟩⟩
    case draws => rw [completeUnspecified_draws, recordFault_draws]
    case faults => rw [completeUnspecified_faults, recordFault_some]
    case flags =>
      rw [completeUnspecified_flags, recordFault_draws, recordFault_flags,
        unspecifiedFlags_eq i (needs_ne_nil_of_fault hc)]
    case err => rw [completeUnspecified_err, recordFault_draws]

end Sys2Proof.Machine
end

/-! The Field Engine's arithmetic (spec/41_field.md R118 to R130): the sum, the negative, the
Montgomery product and the inverse as the rules state them, over the residues modulo `p`. -/

section
namespace Sys2Proof

variable {c : Cfg} {p a b r x : Nat}

/-- Below `2 p` one selected subtraction reduces modulo `p` (R117, R119). -/
theorem mod_eq_ite_of_lt_add_self (h : a < p + p) : a % p = if a < p then a else a - p := by
  split
  · exact Nat.mod_eq_of_lt ‹_›
  · rw [Nat.mod_eq_sub_mod (by omega), Nat.mod_eq_of_lt (by omega)]

/-- Negation of a residue: 0 stays 0 (R121). -/
theorem neg_mod_eq_ite (ha : a < p) : (p - a) % p = if a = 0 then 0 else p - a := by
  split
  · rw [‹a = 0›, Nat.sub_zero, Nat.mod_self]
  · exact Nat.mod_eq_of_lt (by omega)

/-- The Montgomery product is the residue whose product with `R` is `a b` (R118). -/
theorem eq_montMul_iff (h : c.Valid) (hr : r < c.p) :
    r = c.montMul a b ↔ radix * r % c.p = a * b % c.p := by
  have := h.fact
  have hR := residue_radix_ne h
  rw [← Nat.ModEq, ← ZMod.natCast_eq_natCast_iff, Nat.cast_mul, Nat.cast_mul, mul_comm,
    ← eq_mul_inv_iff_mul_eq₀ hR, ← residue_montMul h]
  exact ⟨congrArg _, eq_of_residue hr (montMul_lt h.pos a b)⟩

theorem radix_mul_montMul (h : c.Valid) (a b : Nat) :
    radix * c.montMul a b % c.p = a * b % c.p :=
  (eq_montMul_iff h (montMul_lt h.pos a b)).mp rfl

/-- The Montgomery product with `R^2 mod p` is the Montgomery form (R124). -/
theorem montMul_r2 (h : c.Valid) (a : Nat) : c.montMul a c.r2 = c.mont a := by
  refine ((eq_montMul_iff h (mont_lt h.pos a)).mpr ?_).symm
  rw [Cfg.mont, h.r2, Nat.mul_mod_mod, Nat.mul_mod_mod]
  congr 1
  ring

/-- Only 0 has the normal form 0 (R126). -/
theorem unmont_eq_zero_iff (h : c.Valid) (ha : a < c.p) : c.unmont a = 0 ↔ a = 0 := by
  constructor
  · intro h0
    rw [← mont_unmont h ha, h0, Cfg.mont, Nat.mul_zero, Nat.zero_mod]
  · rintro rfl
    rw [Cfg.unmont, Nat.zero_mul, Nat.zero_mod]

/-- Inversion in Montgomery form (R126). -/
theorem mont_inv_unmont_mul (h : c.Valid) (ha : a < c.p) (h0 : a ≠ 0) :
    c.mont (c.inv (c.unmont a)) * a % c.p = radix * radix % c.p := by
  have := h.fact
  have hR := residue_radix_ne h
  have ha0 : (a : ZMod c.p) ≠ 0 := fun e => h0 (eq_of_residue ha h.pos (by rwa [Nat.cast_zero]))
  rw [← Nat.ModEq, ← ZMod.natCast_eq_natCast_iff, Nat.cast_mul, Nat.cast_mul, residue_mont,
    residue_inv h, residue_unmont h]
  field_simp

/-- The normal form of `mont(x)`, for the congruence that the rules write (R19). -/
theorem unmont_of_radix_mul (h : c.Valid) (hx : x < c.p) (ha : radix * x % c.p = a) :
    c.unmont a = x := by
  rw [← ha, ← Cfg.mont, unmont_mont h hx]

theorem rootOf_eq (c : Cfg) (x : Nat) : c.rootOf x = x ^ ((c.p + 1) / 4) % c.p := powMod_eq _ _ _

end Sys2Proof
end

/-! The word-serial reduction (spec/41_field.md R118): after `n` digits of `a` the accumulator times
`(2^60)^n` is `(a mod (2^60)^n) b` modulo `p`, and stays below `b + p`, so that after all nine one
subtraction reduces it. -/

section
namespace Sys2Proof

variable {c : Cfg} {a b t : Nat}

/-- `MCONST` makes the division of a step exact (R12 (c), R118). -/
theorem dvd_add_digit_mul (h : c.Valid) (t : Nat) :
    2 ^ 60 ∣ t + t % 2 ^ 60 * c.mconst % 2 ^ 60 * c.p := by
  have hm : 2 ^ 60 ∣ c.p * c.mconst + 1 := Nat.dvd_of_mod_eq_zero h.mconst
  have hmod : t + t % 2 ^ 60 * c.mconst % 2 ^ 60 * c.p ≡ t + t * c.mconst * c.p [MOD 2 ^ 60] :=
    (((Nat.mod_modEq _ _).trans ((Nat.mod_modEq _ _).mul_right _)).mul_right _).add_left _
  rw [hmod.dvd_iff dvd_rfl, show t + t * c.mconst * c.p = t * (c.p * c.mconst + 1) by ring]
  exact hm.mul_left t

/-- A step divides by the digit base the sum of the accumulator, `ai b` and a multiple of `p`. -/
theorem serialStep_mul (h : c.Valid) (b t ai : Nat) :
    ∃ q < 2 ^ 60, 2 ^ 60 * c.serialStep b t ai = t + ai * b + q * c.p :=
  ⟨_, Nat.mod_lt _ (by decide), Nat.mul_div_cancel' (dvd_add_digit_mul h (t + ai * b))⟩

/-- A step keeps the accumulator below `b + p`. -/
theorem serialStep_lt (h : c.Valid) {ai : Nat} (hai : ai < 2 ^ 60) (ht : t < b + c.p) :
    c.serialStep b t ai < b + c.p := by
  obtain ⟨q, hq, hmul⟩ := serialStep_mul h b t ai
  have h1 : (ai + 1) * b ≤ 2 ^ 60 * b := Nat.mul_le_mul_right b hai
  have h2 : (q + 1) * c.p ≤ 2 ^ 60 * c.p := Nat.mul_le_mul_right c.p hq
  refine Nat.lt_of_mul_lt_mul_left (a := 2 ^ 60) ?_
  rw [hmul]
  linarith

/-- The accumulator of the word-serial reduction after `n` digits of `a`. -/
def Cfg.serialAcc (c : Cfg) (a b n : Nat) : Nat :=
  (List.range n).foldl (fun t i => c.serialStep b t (a / 2 ^ (60 * i) % 2 ^ 60)) 0

theorem serialAcc_succ (c : Cfg) (a b n : Nat) :
    c.serialAcc a b (n + 1) =
      c.serialStep b (c.serialAcc a b n) (a / 2 ^ (60 * n) % 2 ^ 60) := by
  rw [Cfg.serialAcc, List.range_succ, List.foldl_append]
  rfl

theorem montMulSerial_eq (c : Cfg) (a b : Nat) :
    c.montMulSerial a b =
      if c.serialAcc a b 9 < c.p then c.serialAcc a b 9 else c.serialAcc a b 9 - c.p := rfl

theorem serialAcc_lt (h : c.Valid) (a b n : Nat) : c.serialAcc a b n < b + c.p := by
  induction n with
  | zero => exact Nat.add_pos_right b h.pos
  | succ n ih =>
    rw [serialAcc_succ]
    exact serialStep_lt h (Nat.mod_lt _ (by decide)) ih

theorem serialAcc_modEq (h : c.Valid) (a b n : Nat) :
    (2 ^ 60) ^ n * c.serialAcc a b n ≡ a % (2 ^ 60) ^ n * b [MOD c.p] := by
  induction n with
  | zero => simp [Cfg.serialAcc, Nat.mod_one, Nat.ModEq]
  | succ n ih =>
    obtain ⟨q, -, hmul⟩ :=
      serialStep_mul h b (c.serialAcc a b n) (a / 2 ^ (60 * n) % 2 ^ 60)
    rw [serialAcc_succ, Nat.mod_pow_succ (x := a), Nat.pow_succ, Nat.mul_assoc, hmul, Nat.pow_mul]
    generalize 2 ^ 60 = B at *
    generalize a / B ^ n % B = d
    calc B ^ n * (c.serialAcc a b n + d * b + q * c.p)
      _ = B ^ n * c.serialAcc a b n + B ^ n * d * b + c.p * (B ^ n * q) := by ring
      _ ≡ B ^ n * c.serialAcc a b n + B ^ n * d * b [MOD c.p] :=
        Nat.add_modulus_mul_modEq_iff.mpr rfl
      _ ≡ a % B ^ n * b + B ^ n * d * b [MOD c.p] := ih.add_right _
      _ = (a % B ^ n + B ^ n * d) * b := by ring

/-- Settles O45: the invariant of nine steps, and the one subtraction that leaves a residue. -/
theorem wordSerialReductionGivesTheSameProduct :
    Obligations.WordSerialReductionGivesTheSameProduct := by
  intro c a b h ha hb
  have hlt := serialAcc_lt h a b 9
  have hacc : radix * c.serialAcc a b 9 ≡ a * b [MOD c.p] := by
    have hinv := serialAcc_modEq h a b 9
    rwa [← radix, Nat.mod_eq_of_lt (ha.trans (p_lt_radix h))] at hinv
  have hred : c.montMulSerial a b = c.serialAcc a b 9 % c.p := by
    rw [montMulSerial_eq, mod_eq_ite_of_lt_add_self (hlt.trans (Nat.add_lt_add_right hb c.p))]
  rw [hred, eq_montMul_iff h (Nat.mod_lt _ h.pos), Nat.mul_mod_mod]
  exact hacc

end Sys2Proof
end

/-! The Field Engine commands (spec/41_field.md): what each writes is said by `exec_<command>`, and
every value written is a residue, which a register can hold. -/

section
namespace Sys2Proof.Machine

variable {s : State} {rd : FReg} {v : Nat}

/-- A command that writes a residue to `F[rd]` and no flag (R28, R116). -/
theorem holds_completed_setVal (h : s.cfg.Valid) (rd : FReg) (hv : v < s.cfg.p) :
    ((s.setVal rd v).complete .ok).Holds rd v ∧
      Completed [rd] {} .ok s ((s.setVal rd v).complete .ok) :=
  ⟨(holds_complete _).mpr (holds_setVal (hv.trans (p_lt_radix h))), completed_setReg s rd _⟩

/-- A command that writes a residue to `F[rd]` and FLAGS.T (R28, R149). -/
theorem holds_completed_setVal_setT (h : s.cfg.Valid) (rd : FReg) (hv : v < s.cfg.p) (b : Bool)
    (e : ResultCode) :
    (((s.setVal rd v).setT b).complete e).Holds rd v ∧
      (((s.setVal rd v).setT b).complete e).flags.t = b ∧
      Completed [rd] { t := true } e s (((s.setVal rd v).setT b).complete e) :=
  ⟨(holds_complete _).mpr ((holds_setT b).mpr (holds_setVal (hv.trans (p_lt_radix h)))), rfl,
    (((Frame.refl [rd] _ s).setVal List.mem_cons_self v).setT rfl b).completed rfl rfl e⟩

/-- A command that writes FLAGS.T alone. -/
theorem completed_setT (s : State) (b : Bool) (e : ResultCode) :
    Completed [] { t := true } e s ((s.setT b).complete e) :=
  ((Frame.refl [] _ s).setT rfl b).completed rfl rfl e

/-! ### Addition, subtraction and negation -/

/-- Settles O23: the remainder of a sum below `2 p`. -/
theorem faddAddsModuloP : Obligations.FaddAddsModuloP := by
  intro s rd a b h ha hb
  rw [← mod_eq_ite_of_lt_add_self (Nat.add_lt_add ha.2 hb.2)]
  exact ⟨_, exec_fadd ha hb, holds_completed_setVal h rd (Nat.mod_lt _ h.pos)⟩

/-- Settles O24: the difference of residues, as for DSUB. -/
theorem fsubSubtractsModuloP : Obligations.FsubSubtractsModuloP := by
  intro s rd a b h ha hb
  rw [← subMod_eq_ite ha.2 hb.2]
  exact ⟨_, exec_fsub ha hb, holds_completed_setVal h rd (subMod_lt h.pos _ _)⟩

/-- Settles O25: `p - a` is a residue already, but for `a = 0`. -/
theorem fnegNegatesModuloP : Obligations.FnegNegatesModuloP := by
  intro s rd a h ha
  rw [← neg_mod_eq_ite ha.2]
  exact ⟨_, exec_fneg ha, holds_completed_setVal h rd (Nat.mod_lt _ h.pos)⟩

/-! ### Montgomery products -/

/-- A contract checked twice is a contract checked once. -/
theorem contractFault_pair_self (c : Cfg) (v : Snapshot) (n : Need) :
    contractFault c v [n, n] = contractFault c v [n] := by
  simp only [contractFault]
  cases needFault c v n <;> rfl

/-- MSQR is MMUL with equal operands, in contract and out of it (R123). -/
theorem exec_msqr_eq_exec_mmul (rd a : FReg) (s : State) :
    exec (.msqr rd a) s = exec (.mmul rd a a) s := by
  change execMsqr rd a s = execMmul rd a a s
  rw [execMsqr, execMmul]
  have hpair : contractFault s.cfg (operands s) (needs (.mmul rd a a)) =
      contractFault s.cfg (operands s) (needs (.msqr rd a)) := contractFault_pair_self _ _ _
  cases hc : contractFault s.cfg (operands s) (needs (.msqr rd a)) with
  | none => rw [perform_of_contract hc, perform_of_contract (hpair.trans hc)]
  | some k =>
    rw [perform_of_fault hc, perform_of_fault (hpair.trans hc)]
    rfl

/-- Settles O26: the product that both commands write is the one that `R` multiplies to `a b`. -/
theorem mmulAndMsqrGiveTheMontgomeryProduct :
    Obligations.MmulAndMsqrGiveTheMontgomeryProduct := by
  refine ⟨fun s rd a b h ha hb => ?mmul, fun s rd a h ha => ?msqr, fun s rd a => ?equal⟩
  case mmul =>
    have hlt := montMul_lt h.pos ((operands s).val a) ((operands s).val b)
    exact ⟨_, _, exec_mmul ha hb, hlt, radix_mul_montMul h _ _, holds_completed_setVal h rd hlt⟩
  case msqr =>
    have hlt := montMul_lt h.pos ((operands s).val a) ((operands s).val a)
    exact ⟨_, _, exec_msqr ha, hlt, radix_mul_montMul h _ _, holds_completed_setVal h rd hlt⟩
  case equal => exact exec_msqr_eq_exec_mmul rd a s

/-- Settles O27: TOM multiplies by `R^2`, FROMM by 1. -/
theorem tomAndFrommConvertTheForm : Obligations.TomAndFrommConvertTheForm := by
  refine fun s rd a h ha => ⟨?tom, ?fromm⟩
  case tom =>
    rw [← Cfg.mont, ← montMul_r2 h]
    exact ⟨_, exec_tom ha, holds_completed_setVal h rd (montMul_lt h.pos _ _)⟩
  case fromm =>
    have hlt := montMul_lt h.pos ((operands s).val a) 1
    have hmul := radix_mul_montMul h ((operands s).val a) 1
    rw [Nat.mul_one, Nat.mod_eq_of_lt ha.2] at hmul
    exact ⟨_, _, exec_fromm ha, hlt, hmul, holds_completed_setVal h rd hlt⟩

/-! ### Inversion and square root -/

/-- Settles O28, by whether the operand is 0. -/
theorem finvInvertsInMontgomeryForm : Obligations.FinvInvertsInMontgomeryForm := by
  intro s rd a h ha
  have hzero := unmont_eq_zero_iff h ha.2
  refine ⟨fun hne => ?inverse, fun heq => ?sentinel⟩
  case inverse =>
    have hlt := mont_lt h.pos (s.cfg.inv (s.cfg.unmont ((operands s).val a)))
    have hexec := exec_finv (rd := rd) ha
    rw [if_neg (mt hzero.mp hne)] at hexec
    exact ⟨_, _, hexec, hlt, mont_inv_unmont_mul h ha.2 hne,
      holds_completed_setVal_setT h rd hlt true .ok⟩
  case sentinel =>
    have hexec := exec_finv (rd := rd) ha
    rw [if_pos (hzero.mpr heq)] at hexec
    exact ⟨_, hexec, holds_completed_setVal_setT h rd h.pos false .zeroInverse⟩

/-- Settles O29: the root test of the model is whether `x` is a square. -/
theorem fsqrtGivesTheRootOrNoSquareRoot : Obligations.FsqrtGivesTheRootOrNoSquareRoot := by
  intro s rd a x h ha hx hmont
  have hroot := rootOf_sq_iff h hx
  have hexec := exec_fsqrt (rd := rd) ha
  rw [unmont_of_radix_mul h hx hmont] at hexec
  refine ⟨fun hsq => ?root, fun hsq => ?sentinel⟩
  case root =>
    rw [if_pos (hroot.mpr hsq)] at hexec
    obtain ⟨holds, flag, completed⟩ :=
      holds_completed_setVal_setT h rd (mont_lt h.pos (s.cfg.rootOf x)) true .ok
    rw [rootOf_eq, ← Nat.mul_mod] at hroot
    rw [← rootOf_eq]
    exact ⟨_, hexec, holds, hroot.mpr hsq, flag, completed⟩
  case sentinel =>
    rw [if_neg (mt hroot.mp hsq)] at hexec
    exact ⟨_, hexec, holds_completed_setVal_setT h rd h.pos false .noSquareRoot⟩

/-! ### Tests -/

/-- Settles O30: T is the test of the two values, whatever their order to `p`. -/
theorem feqComparesTheIntegers : Obligations.FeqComparesTheIntegers := fun s _ _ ha hb =>
  ⟨_, exec_feq ha hb, beq_eq_decide _ _, completed_setT s _ .ok⟩

/-- Settles O31: the normal form of `mont(x)` is `x`. -/
theorem fparGivesTheParityOfTheNormalForm : Obligations.FparGivesTheParityOfTheNormalForm := by
  intro s a x h ha hx hmont
  have hexec := exec_fpar ha
  rw [unmont_of_radix_mul h hx hmont] at hexec
  exact ⟨_, hexec, beq_eq_decide _ _, ((Frame.refl [] _ s).setP rfl (par x)).completed rfl rfl .ok⟩

/-- Settles O32: the operand is canonical, so at or above `p` no contract is broken. -/
theorem fchkChecksTheRange : Obligations.FchkChecksTheRange := by
  intro s a ha
  refine ⟨_, exec_fchk ha, ?_⟩
  split
  case isTrue hlt => exact ⟨(decide_eq_true hlt).symm, completed_setT s true .ok⟩
  case isFalse hge => exact ⟨(decide_eq_false hge).symm, completed_setT s false .invalidEncoding⟩

end Sys2Proof.Machine
end

/-! The Point Engine's arithmetic (spec/42_point.md R134 to R146): the law as the rules write it,
the negative of a point, the small multiples, and the point that an encoding decompresses to. -/

section
namespace Sys2Proof

variable {c : Cfg} {P Q : Point} {x y : Nat}

/-! ### The group law -/

theorem inv_eq_fermat (c : Cfg) (x : Nat) : c.inv x = Claims.fermat c.p x := powMod_eq _ _ _

/-- The model's sum is the one of the rule (R134). -/
theorem add_eq_sumByFormula (h : c.Valid) (P Q : Point) :
    c.add P Q = Claims.sumByFormula c P Q := by
  have ht := Nat.mod_lt (c.d * P.x * Q.x * P.y * Q.y) h.pos
  have hden : subMod c.p 1 (c.d * P.x * Q.x * P.y * Q.y % c.p) =
      (1 + c.p - c.d * P.x * Q.x * P.y * Q.y % c.p) % c.p := by
    rw [subMod, Nat.mod_mod, Nat.add_sub_assoc ht.le]
  have hnum : subMod c.p (P.y * Q.y % c.p) (P.x * Q.x) =
      (P.y * Q.y + (c.p - P.x * Q.x % c.p)) % c.p := Nat.mod_add_mod _ _ _
  simp only [Cfg.add, Claims.sumByFormula, inv_eq_fermat, hden, hnum, Nat.mod_mul_mod]

/-- Settles O44: read in the field, `t` is neither -1 nor 1, since `D` is not a square. -/
theorem additionLawHasNoExceptionalCase : Obligations.AdditionLawHasNoExceptionalCase := by
  intro c P Q h hP hQ
  have := h.fact
  obtain ⟨-, -, hPE⟩ := onCurve_iff.mp hP
  obtain ⟨-, -, hQE⟩ := onCurve_iff.mp hQ
  have hcomplete {e : ZMod c.p} (he : e * e = 1) :
      ((c.d * P.x * Q.x * P.y * Q.y : Nat) : ZMod c.p) ≠ e := by
    push_cast
    exact Edwards.complete (two_ne h) (residue_nonsquare h) hPE hQE he
  constructor
  · intro h0
    rw [← Nat.dvd_iff_mod_eq_zero, ← ZMod.natCast_eq_zero_iff, Nat.cast_add, Nat.cast_one] at h0
    exact hcomplete (e := -1) (by ring) (eq_neg_of_add_eq_zero_right h0)
  · intro h1
    refine hcomplete (e := 1) (by ring) ?_
    rw [← ZMod.natCast_mod, h1, Nat.cast_one]

/-! ### The negative of a point -/

theorem residue_neg (hx : x ≤ c.p) : (((c.p - x) % c.p : Nat) : ZMod c.p) = -x := by
  rw [ZMod.natCast_mod, Nat.cast_sub hx, ZMod.natCast_self, zero_sub]

/-- Negation commutes with the way back to normal form. -/
theorem unmont_neg (h : c.Valid) (hx : x ≤ c.p) :
    c.unmont ((c.p - x) % c.p) = (c.p - c.unmont x) % c.p := by
  have := h.fact
  refine eq_of_residue (unmont_lt h.pos _) (Nat.mod_lt _ h.pos) ?_
  rw [residue_unmont h, residue_neg hx, residue_neg (unmont_lt h.pos x).le, residue_unmont h,
    neg_mul]

theorem res_neg (hx : P.x < c.p) : c.res (c.neg P) = (-(c.res P).1, (c.res P).2) :=
  Prod.ext (residue_neg hx.le) rfl

/-- `-P` is on the curve with `P` (R134). -/
theorem onCurve_neg (h : c.Valid) (hP : c.onCurve P = true) : c.onCurve (c.neg P) = true := by
  have := h.fact
  rw [onCurve_iff] at *
  obtain ⟨hx, hy, hE⟩ := hP
  rw [res_neg hx]
  exact ⟨Nat.mod_lt _ h.pos, hy, Edwards.on_neg hE⟩

/-- `P + -P = O` on the curve (R134). -/
theorem add_neg_point (h : c.Valid) (hP : c.onCurve P = true) : c.add P (c.neg P) = .zero := by
  have := h.fact
  obtain ⟨hx, -, hE⟩ := onCurve_iff.mp hP
  obtain ⟨hx0, hy0, -⟩ := onCurve_iff.mp (onCurve_zero h)
  refine point_ext (add_x_lt h _ _) (add_y_lt h _ _) hx0 hy0 ?_
  rw [res_add h, res_neg hx, res_zero, Edwards.add_neg (two_ne h) (residue_nonsquare h) hE]

/-! ### Small multiples -/

theorem mul_zero_point (h : c.Valid) (hP : c.onCurve P = true) : c.mul 0 P = .zero :=
  ladderGivesTheKFoldSum c P 0 h hP

theorem mul_one_point (h : c.Valid) (hP : c.onCurve P = true) : c.mul 1 P = P := by
  have := h.fact
  obtain ⟨hx, hy, -⟩ := onCurve_iff.mp hP
  rw [ladderGivesTheKFoldSum c P 1 h hP]
  exact zero_add_point h hx hy

/-- Twice a multiple is its double. -/
theorem mul_double (h : c.Valid) (hP : c.onCurve P = true) (k : Nat) :
    c.mul (k + k) P = c.add (c.mul k P) (c.mul k P) := by
  rw [ladderGivesTheKFoldSum c P _ h hP, ladderGivesTheKFoldSum c P _ h hP, sum_add h hP]

/-- The cofactor is cleared by two doublings (R141). -/
theorem mul_cof (h : c.Valid) (hP : c.onCurve P = true) :
    c.mul c.cof P = c.add (c.add P P) (c.add P P) := by
  rw [h.cof, mul_double h hP 2, mul_double h hP 1, mul_one_point h hP]

/-! ### Decompression -/

/-- On the curve `x` gives `y^2 = (1 - x^2) / (1 - d x^2)`, whose denominator is not 0 for a
nonsquare `d`. -/
theorem Edwards.on_iff_sq {K : Type*} [Field K] {d x y : K} (hd : ∀ u : K, u * u ≠ d) :
    On d (x, y) ↔ y * y = (1 - x * x) * (1 - d * (x * x))⁻¹ := by
  have hden : 1 - d * (x * x) ≠ 0 := by
    intro h0
    have hx : x ≠ 0 := by
      rintro rfl
      simp at h0
    refine hd x⁻¹ ?_
    field_simp
    linear_combination h0
  rw [← div_eq_mul_inv, eq_div_iff hden, On]
  constructor <;> intro h <;> linear_combination h

/-- The value of `y^2` that `x` allows: the `u` of R145. -/
def Cfg.ySquare (c : Cfg) (x : Nat) : Nat :=
  subMod c.p 1 (x * x) * c.inv (subMod c.p 1 (c.d * (x * x))) % c.p

theorem residue_ySquare (h : c.Valid) (x : Nat) : ((c.ySquare x : Nat) : ZMod c.p) =
    (1 - (x : ZMod c.p) * x) * (1 - (c.d : ZMod c.p) * (x * x))⁻¹ := by
  rw [Cfg.ySquare, ZMod.natCast_mod, Nat.cast_mul, residue_inv h, residue_subMod h.pos,
    residue_subMod h.pos]
  push_cast
  rfl

theorem onCurve_iff_ySquare (h : c.Valid) :
    c.onCurve ⟨x, y⟩ = true ↔ x < c.p ∧ y < c.p ∧ y * y % c.p = c.ySquare x := by
  have := h.fact
  have hlt : c.ySquare x < c.p := Nat.mod_lt _ h.pos
  rw [onCurve_iff, Cfg.res, Edwards.on_iff_sq (residue_nonsquare h), ← residue_ySquare h,
    ← Nat.cast_mul, ZMod.natCast_eq_natCast_iff, Nat.ModEq, Nat.mod_eq_of_lt hlt]

/-- Opposite y coordinates are on the curve together. -/
theorem onCurve_sub (h : c.Valid) (h0 : y ≠ 0) (hy : c.onCurve ⟨x, y⟩ = true) :
    c.onCurve ⟨x, c.p - y⟩ = true := by
  have := h.fact
  rw [onCurve_iff] at *
  obtain ⟨hx, hyp, hE⟩ := hy
  refine ⟨hx, Nat.sub_lt h.pos (Nat.pos_of_ne_zero h0), ?_⟩
  simpa [Edwards.On, Cfg.res, Nat.cast_sub hyp.le] using hE

/-- Opposite y coordinates differ in parity: `p` is odd. -/
theorem par_sub (h : c.Valid) (hy : y < c.p) : par (c.p - y) = !par y := by
  have hmod := h.mod4
  rw [Bool.eq_not]
  simp only [par, ne_eq, beq_eq_beq]
  omega

/-- The root that the model computes: the `y0` of R145. -/
def Cfg.yRoot (c : Cfg) (x : Nat) : Nat := c.rootOf (c.ySquare x)

theorem yRoot_lt (h : c.Valid) (x : Nat) : c.yRoot x < c.p := by
  rw [Cfg.yRoot, rootOf_eq]
  exact Nat.mod_lt _ h.pos

/-- If some y goes with `x`, the computed root does (R128). -/
theorem onCurve_yRoot (h : c.Valid) (hy : c.onCurve ⟨x, y⟩ = true) :
    c.onCurve ⟨x, c.yRoot x⟩ = true := by
  obtain ⟨hx, -, hsq⟩ := (onCurve_iff_ySquare h).mp hy
  exact (onCurve_iff_ySquare h).mpr
    ⟨hx, yRoot_lt h x, (rootOf_sq_iff h (Nat.mod_lt _ h.pos)).mpr ⟨y, hsq⟩⟩

end Sys2Proof

namespace Sys2Proof.Machine

variable {c : Cfg} {P : Point} {x y : Nat} {s : Bool}

/-- With a root the sign selects between it and its opposite, and 0 has no opposite (R145). -/
theorem decompress_of_yRoot (h : c.Valid) (hroot : c.onCurve ⟨x, c.yRoot x⟩ = true) :
    decompress c x s =
      if c.yRoot x = 0 ∧ s = true then none
      else some ⟨x, if par (c.yRoot x) = s then c.yRoot x else c.p - c.yRoot x⟩ := by
  obtain ⟨hx, -, hsq⟩ := (onCurve_iff_ySquare h).mp hroot
  unfold decompress
  rw [if_neg (Nat.not_le.mpr hx)]
  exact if_neg (not_not.mpr hsq)

/-- Without a root there is nothing to decompress to (R145). -/
theorem decompress_of_no_yRoot (h : c.Valid) (hroot : ¬ c.onCurve ⟨x, c.yRoot x⟩ = true) :
    decompress c x s = none := by
  unfold decompress
  split
  case isTrue => rfl
  case isFalse hx =>
    refine if_pos fun hsq => hroot ((onCurve_iff_ySquare h).mpr ⟨Nat.not_le.mp hx, ?_, hsq⟩)
    exact yRoot_lt h x

/-- Decompression gives a point of the curve with the encoding's x and sign (R145). -/
theorem decompress_sound (h : c.Valid) (hd : decompress c x s = some P) :
    P.x = x ∧ c.onCurve P = true ∧ par P.y = s := by
  by_cases hroot : c.onCurve ⟨x, c.yRoot x⟩ = true
  case neg =>
    rw [decompress_of_no_yRoot h hroot] at hd
    cases hd
  case pos =>
    rw [decompress_of_yRoot h hroot, Option.ite_none_left_eq_some, Option.some_inj] at hd
    obtain ⟨hzero, rfl⟩ := hd
    by_cases hpar : par (c.yRoot x) = s
    case pos =>
      rw [if_pos hpar]
      exact ⟨rfl, hroot, hpar⟩
    case neg =>
      have h0 : c.yRoot x ≠ 0 := by
        intro h0
        rw [h0] at hpar
        exact hzero ⟨h0, Bool.eq_true_of_not_eq_false (Ne.symm hpar)⟩
      rw [if_neg hpar]
      refine ⟨rfl, onCurve_sub h h0 hroot, ?_⟩
      rw [par_sub h (yRoot_lt h x)]
      exact Bool.not_eq.mpr hpar

/-- Decompression finds the point of the curve with this x and sign (R145). -/
theorem decompress_complete (h : c.Valid) (hy : c.onCurve ⟨x, y⟩ = true) (hs : par y = s) :
    decompress c x s = some ⟨x, y⟩ := by
  have hroot := onCurve_yRoot h hy
  rw [decompress_of_yRoot h hroot]
  obtain rfl | rfl := onCurve_same_x h hroot hy
  case inl =>
    have hzero : ¬ (c.yRoot x = 0 ∧ s = true) := by
      rintro ⟨h0, rfl⟩
      rw [h0] at hs
      cases hs
    rw [if_neg hzero, if_pos hs]
  case inr =>
    have h0 : c.yRoot x ≠ 0 := by
      intro h0
      obtain ⟨-, hlt, -⟩ := (onCurve_iff_ySquare h).mp hy
      omega
    have hpar : ¬ par (c.yRoot x) = s := by
      rw [par_sub h (yRoot_lt h x)] at hs
      exact Bool.not_eq.mp hs
    rw [if_neg (fun hz => h0 hz.1), if_neg hpar]

end Sys2Proof.Machine
end

/-! The Point Engine commands (spec/42_point.md R136 to R146): what each writes is said by
`exec_<command>`, and its value by the arithmetic of the section before. -/

section
namespace Sys2Proof.Machine

variable {t : State} {P : Point} {x y : Nat}

/-! ### Sums and multiples -/

/-- A command that writes a point to `Pd` and no flag (R22, R133). -/
theorem holdsPoint_completed_setPoint {s : State} (h : s.cfg.Valid) (pd : PReg) (P : Point) :
    ((s.setPoint pd P).complete .ok).HoldsPoint pd P ∧
      Completed [xReg pd, yReg pd] {} .ok s ((s.setPoint pd P).complete .ok) :=
  ⟨(holdsPoint_complete _).mpr (holdsPoint_setPoint h),
    ((Frame.refl _ {} s).setPoint (by simp) (by simp) P).completed rfl rfl .ok⟩

/-- Settles O33: both coordinates of the sum are residues, and the model's sum is the rule's. -/
theorem paddAddsByTheGroupLaw : Obligations.PaddAddsByTheGroupLaw := by
  intro s pd a b h ha hb
  rw [← add_eq_sumByFormula h]
  exact ⟨_, exec_padd ha hb, holdsPoint_completed_setPoint h pd _⟩

/-- PDBL is PADD with equal operands, in contract and out of it (R137). -/
theorem exec_pdbl_eq_exec_padd (pd a : PReg) (s : State) :
    exec (.pdbl pd a) s = exec (.padd pd a a) s := by
  change execPdbl pd a s = execPadd pd a a s
  rw [execPdbl, execPadd, perform, perform, needs, needs, contractFault_pair_self]
  rfl

/-- Settles O34: PDBL answers as PADD, so it writes what PADD writes. -/
theorem pdblIsPaddOfAPointWithItself : Obligations.PdblIsPaddOfAPointWithItself := by
  refine ⟨fun s pd a => exec_pdbl_eq_exec_padd pd a s, fun s pd a h ha => ?_⟩
  rw [exec_pdbl_eq_exec_padd]
  exact paddAddsByTheGroupLaw s pd a a h ha ha

/-- Settles O36: the ladder gives `O` for 0 and the point itself for 1. -/
theorem pmulMultipliesByTheReducedScalar : Obligations.PmulMultipliesByTheReducedScalar := by
  intro s pd a k h ha hk
  have ⟨_, _, hE⟩ := ha
  have ⟨holds, completed⟩ := holdsPoint_completed_setPoint h pd
    (s.cfg.mul ((operands s).val k % s.cfg.q) ((operands s).pt s.cfg a))
  refine ⟨_, exec_pmul ha hk, holds, fun h0 => ?zero, fun h1 => ?one, completed⟩
  case zero => rwa [h0, mul_zero_point h hE] at holds ⊢
  case one => rwa [h1, mul_one_point h hE] at holds ⊢

/-- Settles O38: the multiple by `COF = 4` is two doublings. -/
theorem pcofIsTwoDoublings : Obligations.PcofIsTwoDoublings := by
  intro s pd a h ha
  have ⟨_, _, hE⟩ := ha
  simp only [← add_eq_sumByFormula h, ← mul_cof h hE]
  exact ⟨_, exec_pcof ha, holdsPoint_completed_setPoint h pd _⟩

/-! ### The negative -/

/-- What a point register reads once its two registers are known to hold two values. -/
theorem pt_of_holds {c : Cfg} {k : PReg} (hx : t.Holds (xReg k) x) (hy : t.Holds (yReg k) y) :
    t.snapshot.pt c k = ⟨c.unmont x, c.unmont y⟩ := by
  rw [Snapshot.pt, hx.2, hy.2]

/-- Two residues written to the registers of `Pd` are what they hold. -/
theorem holds_setVal_pair {s : State} (h : s.cfg.Valid) (k : PReg) (hx : x < s.cfg.p)
    (hy : y < s.cfg.p) :
    ((s.setVal (xReg k) x).setVal (yReg k) y).Holds (xReg k) x ∧
      ((s.setVal (xReg k) x).setVal (yReg k) y).Holds (yReg k) y :=
  ⟨(holds_setVal_of_ne (xReg_ne_yReg k k)).mpr (holds_setVal (hx.trans (p_lt_radix h))),
    holds_setVal (hy.trans (p_lt_radix h))⟩

/-- Writes of the two registers of `Pd` stay in its frame. -/
theorem frame_setVal_pair (s : State) (w : FlagSet) (k : PReg) (x y : Nat) :
    Frame [xReg k, yReg k] w s ((s.setVal (xReg k) x).setVal (yReg k) y) :=
  ((Frame.refl _ w s).setVal (by simp) x).setVal (by simp) y

/-- The point that PNEG leaves is the negative, in normal form. -/
theorem pt_neg {c : Cfg} (h : c.Valid) {v : Snapshot} {k a : PReg} (ha : v.Reduced c (xReg a))
    (hx : t.Holds (xReg k) ((c.p - v.val (xReg a)) % c.p))
    (hy : t.Holds (yReg k) (v.val (yReg a))) : t.snapshot.pt c k = c.neg (v.pt c a) := by
  rw [pt_of_holds hx hy, unmont_neg h ha.2.le]
  rfl

/-- Settles O35: in normal form the stored pair is the group negative. -/
theorem pnegNegatesTheXCoordinate : Obligations.PnegNegatesTheXCoordinate := by
  intro s pd a h hx hy
  rw [← neg_mod_eq_ite hx.2]
  obtain ⟨holdsX, holdsY⟩ := holds_setVal_pair h pd
    (Nat.mod_lt (s.cfg.p - (operands s).val (xReg a)) h.pos) hy.2
  rw [← holds_complete .ok] at holdsX holdsY
  refine ⟨_, exec_pneg hx hy, holdsX, holdsY,
    (frame_setVal_pair s {} pd _ _).completed rfl rfl .ok, fun hE => ?_⟩
  rw [← add_eq_sumByFormula h, pt_neg h hx holdsX holdsY]
  exact ⟨onCurve_neg h hE, add_neg_point h hE⟩

/-! ### Checks -/

/-- Settles O39, by the first condition of `poncCode` that fails. -/
theorem poncReportsTheFirstFailure : Obligations.PoncReportsTheFirstFailure := by
  intro s a hx hy
  refine ⟨_, _, exec_ponc hx hy, completed_setT s _ _, beq_eq_decide _ _, fun hge => if_pos hge,
    fun hxp hyp => ?_⟩
  exact if_neg (by omega)

/-- Settles O40, by the first condition of `pvalCode` that fails. -/
theorem pvalReportsTheFirstFailure : Obligations.PvalReportsTheFirstFailure := by
  intro s a hx hy
  refine ⟨_, _, exec_pval hx hy, completed_setT s _ _, beq_eq_decide _ _, fun hge => if_pos hge,
    fun hxp hyp => ?_⟩
  have hrange : ¬ (s.cfg.p ≤ (operands s).val (xReg a) ∨ s.cfg.p ≤ (operands s).val (yReg a)) := by
    omega
  rw [pvalCode, if_neg hrange]
  refine ⟨fun hoff => if_pos hoff, fun hon => ?_⟩
  rw [if_neg (by simp [hon])]
  exact ⟨fun hne => if_pos hne, fun heq => if_neg (not_not.mpr heq)⟩

/-! ### Encodings -/

/-- PDEC of an encoding that decompresses (R145). -/
theorem exec_pdec_of_some {s : State} {a : FReg} {sign : Bool} (h : s.cfg.Valid) (pd : PReg)
    (ha : (operands s).Canonical a) (hd : decompress s.cfg ((operands s).val a) sign = some P) :
    ∃ t, exec (.pdec pd a sign) s = .next t ∧ t.HoldsPoint pd P ∧ t.flags.t = true ∧
      Completed [xReg pd, yReg pd] { t := true } .ok s t := by
  have hexec := exec_pdec (pd := pd) (sign := sign) ha
  rw [hd] at hexec
  refine ⟨_, hexec, (holdsPoint_complete _).mpr ((holdsPoint_setT _).mpr (holdsPoint_setPoint h)),
    rfl, ?_⟩
  exact (((Frame.refl _ _ s).setPoint (by simp) (by simp) P).setT rfl true).completed rfl rfl .ok

/-- PDEC of an encoding that does not: the sentinel and InvalidEncoding (R145, R149 (c)). -/
theorem exec_pdec_of_none {s : State} {a : FReg} {sign : Bool} (h : s.cfg.Valid) (pd : PReg)
    (ha : (operands s).Canonical a) (hd : decompress s.cfg ((operands s).val a) sign = none) :
    ∃ t, exec (.pdec pd a sign) s = .next t ∧ t.Holds (xReg pd) 0 ∧ t.Holds (yReg pd) 0 ∧
      t.flags.t = false ∧ Completed [xReg pd, yReg pd] { t := true } .invalidEncoding s t := by
  have hexec := exec_pdec (pd := pd) (sign := sign) ha
  rw [hd] at hexec
  obtain ⟨holdsX, holdsY⟩ := holds_setVal_pair h pd h.pos h.pos
  refine ⟨_, hexec, (holds_complete _).mpr ((holds_setT _).mpr holdsX),
    (holds_complete _).mpr ((holds_setT _).mpr holdsY), rfl, ?_⟩
  exact ((frame_setVal_pair s _ pd 0 0).setT rfl false).completed rfl rfl .invalidEncoding

/-- Settles O41: decompression is complete for the first clause and sound for the second. -/
theorem pdecFindsThePointOrReportsInvalidEncoding :
    Obligations.PdecFindsThePointOrReportsInvalidEncoding := by
  intro s pd a sign h ha
  refine ⟨fun y hy hs => ?point, fun hno => ?sentinel⟩
  case point =>
    exact exec_pdec_of_some h pd ha (decompress_complete h hy ((beq_eq_decide _ _).trans hs))
  case sentinel =>
    refine exec_pdec_of_none h pd ha (Option.eq_none_iff_forall_ne_some.mpr fun P hd => hno ?_)
    obtain ⟨hx, hE, hpar⟩ := decompress_sound h hd
    exact ⟨P.y, hx ▸ hE, (beq_eq_decide _ _).symm.trans hpar⟩

/-- Settles O42: the normal form of `mont(x)` is `x`, and so for `y`. -/
theorem pencCompresses : Obligations.PencCompresses := by
  intro s rd a x y h hx hy hxp hxm hyp hym
  have hexec := exec_penc (rd := rd) hx hy
  rw [unmont_of_radix_mul h hxp hxm, unmont_of_radix_mul h hyp hym] at hexec
  have holds := holds_setVal (s := s) (i := rd) (hxp.trans (p_lt_radix h))
  refine ⟨_, hexec, (holds_complete _).mpr ((holds_setP _).mpr holds), beq_eq_decide _ _, ?_⟩
  exact (((Frame.refl [rd] _ s).setVal List.mem_cons_self x).setP rfl _).completed rfl rfl .ok

/-- PENC of a register that holds a point gives its encoding (R146). -/
theorem exec_penc_of_holdsPoint (h : t.cfg.Valid) (hidle : t.busy = false) (rd : FReg) {k : PReg}
    (hP : t.HoldsPoint k P) (hx : P.x < t.cfg.p) (hy : P.y < t.cfg.p) :
    ∃ u, exec (.penc rd k) t = .next u ∧ u.Holds rd P.x ∧ u.flags.p = par P.y := by
  have hop : operands t = t.snapshot := operands_of_idle t ((busy_eq_false_iff t).mp hidle)
  obtain ⟨⟨canonX, valX⟩, canonY, valY⟩ := hP
  rw [← hop] at canonX valX canonY valY
  obtain ⟨u, hu, holds, hpar, -⟩ := pencCompresses t rd k P.x P.y h
    ⟨canonX, valX.trans_lt (mont_lt h.pos _)⟩ ⟨canonY, valY.trans_lt (mont_lt h.pos _)⟩
    hx valX.symm hy valY.symm
  exact ⟨u, hu, holds, hpar.trans (beq_eq_decide _ _).symm⟩

/-- Settles O43: with result code 0 the encoding decompressed, and PENC encodes the point found. -/
theorem pencAfterPdecGivesBackTheEncoding : Obligations.PencAfterPdecGivesBackTheEncoding := by
  intro s t u pd a rd sign h ha hdec hok henc
  cases hd : decompress s.cfg ((operands s).val a) sign with
  | none =>
    obtain ⟨t', ht', -, -, -, completed⟩ := exec_pdec_of_none h pd ha hd
    obtain rfl : t = t' := Host.Outcome.next.inj (hdec.symm.trans ht')
    rw [completed.err] at hok
    cases hok
  | some P =>
    obtain ⟨t', ht', holds, -, completed⟩ := exec_pdec_of_some h pd ha hd
    obtain rfl : t = t' := Host.Outcome.next.inj (hdec.symm.trans ht')
    obtain ⟨hx, hE, hpar⟩ := decompress_sound h hd
    obtain ⟨hxp, hyp, -⟩ := (onCurve_iff_ySquare h).mp hE
    rw [← completed.frame.cfg] at h hxp hyp
    obtain ⟨u', hu', holdsX, hp⟩ := exec_penc_of_holdsPoint h completed.idle rd holds hxp hyp
    obtain rfl : u = u' := Host.Outcome.next.inj (henc.symm.trans hu')
    exact ⟨hx ▸ holdsX, hp.trans hpar⟩

end Sys2Proof.Machine
end

/-! `irq` follows DONE and IRQ_EN (spec/10_state.md R49, spec/60_exceptions.md R155, R156): what each
event that can move it makes of it. -/

section
namespace Sys2Proof.Machine

variable {s t : State} {w v : Word} {rest : List Event}

@[simp] theorem reply_irq (s : State) (r : Reply) : (s.reply r).irq = s.irq := rfl
@[simp] theorem softReset_irq (s : State) : s.softReset.irq = false := rfl
@[simp] theorem hardReset_irq (s : State) : s.hardReset.irq = false := rfl

/-- With DONE set, `irq` is IRQ_EN (R49). -/
theorem irq_of_done (h : t.status.done = true) : t.irq = t.irqEn := by
  rw [State.irq, h, Bool.true_and]

/-- Every completion sets DONE and keeps IRQ_EN (R95, R155). -/
theorem exec_irq {i : Instr} (h : exec i s = .next t) : t.irq = s.irqEn := by
  obtain hf | ⟨k, rfl⟩ | rfl := exec_cases h
  case inl => exact (irq_of_done hf.done).trans hf.frame.irqEn
  case inr.inl =>
    exact (irq_of_done (completeUnspecified_done _ i)).trans (frame_completeUnspecified _ i).irqEn
  case inr.inr => exact irq_of_done rfl

/-- A legal word clears DONE at its acceptance, an illegal one sets it at its completion (R92 to
R94). -/
theorem issue_irq_of_idle (hb : s.busy = false) (w : Word) :
    (s.issue w).irq = (s.irqEn && !legal w) := by
  cases hd : decode w with
  | legal i => simp [issue_of_legal hb hd, State.irq, legal, hd]
  | illegal why => simp [issue_of_illegal hb hd, State.irq, legal, hd]

/-- A STATUS write with bit 1 set clears DONE (R42). -/
theorem writeStatus_irq_of_done_bit (s : State) (h : v.getLsbD 1 = true) :
    (s.writeStatus v).irq = false := by
  simp [writeStatus_eq, State.irq, h]

/-- A write to STATUS (R42, R66). -/
theorem step_write_status (h : s.inbox = writeAt s.base 0x10 v :: rest) :
    step s = .next (({ s with inbox := rest }.writeStatus v).reply .ack) :=
  step_writeAt h (by decide) (by decide)

/-- A write to CTRL (R44, R66). -/
theorem step_write_ctrl (h : s.inbox = writeAt s.base 0x08 v :: rest) :
    step s = .next (({ s with inbox := rest }.writeCtrl v).reply .ack) :=
  step_writeAt h (by decide) (by decide)

/-- The reset input (R166). -/
theorem step_hardReset (h : s.inbox = .hardReset :: rest) :
    step s = .next { s with inbox := rest }.hardReset := by
  simp only [step, h]

/-- A step has one answer, so its `irq` is read off the computed one. -/
theorem irq_of_step_eq {u : State} {b : Bool} (ht : step s = .next t) (hu : step s = .next u)
    (hb : u.irq = b) : t.irq = b :=
  Host.Outcome.next.inj (ht.symm.trans hu) ▸ hb

/-- Settles O49, event by event. -/
theorem irqFollowsDoneAndEnable : Obligations.IrqFollowsDoneAndEnable := by
  refine ⟨fun i s t => exec_irq, fun s t w rest hb hin ht => ?cmd, fun s t v rest hv ht hin => ?fall,
    fun s t v rest hv hin ht => ?enable⟩
  case cmd =>
    exact irq_of_step_eq ht (step_write_cmd hin)
      (issue_irq_of_idle (s := { s with inbox := rest }) hb w)
  case fall =>
    obtain hstatus | hctrl | hreset := hin
    · exact irq_of_step_eq ht (step_write_status hstatus) (writeStatus_irq_of_done_bit _ hv)
    · refine irq_of_step_eq ht (step_write_ctrl hctrl) ?_
      rw [writeCtrl_of_srst _ hv, reply_irq, softReset_irq]
    · exact irq_of_step_eq ht (step_hardReset hreset) (hardReset_irq _)
  case enable =>
    refine irq_of_step_eq ht (step_write_ctrl hin) ?_
    rw [writeCtrl_of_not_srst _ hv]
    rfl

end Sys2Proof.Machine
end

/-! Reset (spec/70_reset_and_hazards.md R166 to R169): a hardware reset gives the values of R167
wherever it finds the core; a soft reset gives those of FLAGS, STATUS, CTRL and LASTCMD and makes
the destination registers of the command it discards unspecified. -/

section
namespace Sys2Proof.Machine

variable {s : State} {v : Word} {rest : List Event} {is : List FReg} {k : FReg}

/-! ### The host's view of the reset values -/

theorem flagsWord_zero : flagsWord Flags.zero = 0 := by decide

theorem statusWord_eq_zero (hstatus : s.status = Status.zero) (hidle : s.inflight = none) :
    statusWord s = 0 := by
  rw [statusWord, State.busy, hstatus, hidle]
  rfl

theorem ctrlWord_eq_zero (h : s.irqEn = false) : ctrlWord s = 0 := by
  rw [ctrlWord, h]
  rfl

/-- The ghost bits of the power-up register file are clear (R50, R167). -/
theorem unwritten_written (i : FReg) (j : Fin 9) :
    ((RegFile.unwritten.get i).get j).written = false := by
  simp [RegFile.unwritten, Vector.get_eq_getElem]

/-! ### Hardware reset -/

/-- R167, whatever the state was; `State.reset` itself is the reset of itself. -/
theorem atReset_hardReset (s : State) : Claims.AtReset s.hardReset :=
  ⟨unwritten_written, flagsWord_zero, statusWord_eq_zero rfl rfl, ctrlWord_eq_zero rfl, rfl, rfl,
    rfl⟩

/-- Settles O46: power-up is a hardware reset, and the reset input is one in any state. -/
theorem hardwareResetFromAnyState : Obligations.HardwareResetFromAnyState :=
  ⟨atReset_hardReset State.reset, fun _ _ hin =>
    ⟨_, step_hardReset hin, atReset_hardReset _, rfl, rfl⟩⟩

/-- Settles O57: after reset there is no command in flight. -/
theorem resetMeetsTheInFlightInvariant : Obligations.ResetMeetsTheInFlightInvariant :=
  inFlightOk_of_idle rfl

/-! ### Soft reset -/

theorem forgetReg_written (r : FieldReg) (j : Fin 9) : ((forgetReg r).get j).written = false := by
  rw [forgetReg, mapReg_get]

/-- A register that is not forgotten stays (R169). -/
theorem reg_forgetRegs_of_notMem (hk : k ∉ is) (s : State) : (forgetRegs is s).reg k = s.reg k := by
  induction is generalizing s with
  | nil => rfl
  | cons i is ih =>
    obtain ⟨hne, hmem⟩ := List.ne_and_not_mem_of_not_mem_cons hk
    rw [forgetRegs, ih hmem, reg_setReg_of_ne s _ hne]

/-- A forgotten register has no written storage word left (R50, R169). -/
theorem forgetRegs_written_of_mem (hk : k ∈ is) (s : State) (j : Fin 9) :
    (((forgetRegs is s).reg k).get j).written = false := by
  induction is generalizing s with
  | nil => cases hk
  | cons i is ih =>
    rw [forgetRegs]
    by_cases hmem : k ∈ is
    · exact ih hmem _
    · obtain rfl := (List.mem_cons.mp hk).resolve_right hmem
      rw [reg_forgetRegs_of_notMem hmem, reg_setReg_self, forgetReg_written]

theorem reg_softReset (s : State) (k : FReg) :
    s.softReset.reg k = (forgetRegs s.pendingDests s).reg k := rfl

@[simp] theorem softReset_inbox : s.softReset.inbox = s.inbox := by
  rw [State.softReset, forgetRegs_fields]

/-- With no command in flight a soft reset leaves the register file alone (R168). -/
theorem softReset_regs_of_idle (h : s.inflight = none) : s.softReset.regs = s.regs := by
  have hnone : s.pendingDests = [] := by rw [State.pendingDests, h]
  rw [State.softReset, hnone]
  rfl

/-- What a soft reset may forget is what the discarded command would have written (R95, R169). -/
theorem mem_pendingDests {r : InFlight} (h : s.inflight = some r) :
    k ∈ s.pendingDests ↔ Claims.IsDestination r.instr k := by
  rw [State.pendingDests, h]
  exact mem_dests r.instr k

/-- A CTRL write with SRST is a soft reset, busy or not (R44, R168). -/
theorem step_write_srst (h : s.inbox = writeAt s.base 0x08 v :: rest) (hv : v.getLsbD 1 = true) :
    step s = .next ({ s with inbox := rest }.softReset.reply .ack) := by
  rw [step_write_ctrl h, writeCtrl_of_srst _ hv]

/-- Settles O47: the registers of the discarded command are forgotten, the others kept. -/
theorem softResetAbortsTheCommand : Obligations.SoftResetAbortsTheCommand := by
  intro s v rest hv hin
  refine ⟨_, step_write_srst hin hv, flagsWord_zero, statusWord_eq_zero rfl rfl,
    ctrlWord_eq_zero rfl, rfl, rfl, softReset_cfg, softReset_faults, softReset_inbox,
    softReset_regs_of_idle (s := { s with inbox := rest }), fun r hr => ⟨fun k hk => ?kept,
      fun k hk j => ?forgotten⟩⟩
  case kept =>
    rw [reg_reply, reg_softReset]
    exact reg_forgetRegs_of_notMem (mt (mem_pendingDests hr).mp hk) _
  case forgotten =>
    rw [reg_reply, reg_softReset]
    exact forgetRegs_written_of_mem ((mem_pendingDests hr).mpr hk) _ j

end Sys2Proof.Machine
end

/-! The machine comes to rest (spec/70_reset_and_hazards.md R177): a step inside the window always
has a next state and uses up one event, and the turn of the core after the last event completes
what is then in flight. -/

section
namespace Sys2Proof.Machine

variable {s t : State} {rest : List Event}

/-! ### Every effect leaves the inbox alone -/

theorem exec_inbox {i : Instr} (h : exec i s = .next t) : t.inbox = s.inbox := by
  obtain hf | ⟨k, rfl⟩ | rfl := exec_cases h
  · exact hf.frame.inbox
  · exact (frame_completeUnspecified _ i).inbox
  · rfl

theorem WriteEffect.inbox (h : WriteEffect s t) : t.inbox = s.inbox := by
  cases h with
  | softReset => exact softReset_inbox
  | accept idle legal => exact accept_inbox _ _
  | ovr b => rfl
  | irqEn b => rfl
  | status v => rfl
  | illegal w idle => rfl
  | setReg i r idle => rfl

theorem StepEffect.inbox (h : StepEffect s t) : t.inbox = s.inbox := by
  cases h with
  | idle => rfl
  | completion h => exact exec_inbox h
  | hardReset => rfl
  | busError => rfl
  | read g => rw [readTarget_fields]
  | write h => exact h.inbox

/-! ### Every step inside the window has a next state -/

/-- `exec` answers a next state for every command, the ill-formed LDK included (R95, Log 27). -/
theorem exists_exec (i : Instr) (s : State) : ∃ t, exec i s = .next t := by
  cases hw : i.wellFormed
  case false =>
    obtain ⟨rd, k, rfl, hk⟩ := exists_ldk_of_not_wellFormed hw
    exact ⟨_, exec_ldk_illegal hk⟩
  case true =>
    obtain ⟨t, ht, -⟩ := everyCommandCompletesWithItsFrame i s hw
    exact ⟨t, ht⟩

/-- After the core's turn nothing is in flight (R95). -/
theorem exists_coreStep (s : State) : ∃ t, coreStep s = .next t ∧ t.inflight = none := by
  unfold coreStep
  split
  · obtain ⟨t, ht⟩ := exists_exec _ s
    exact ⟨t, ht, exec_inflight ht⟩
  · exact ⟨s, rfl, ‹_›⟩

/-- The only access the block gives no answer to is one outside the window (R53). -/
theorem exists_busAccess {a : Access} (h : Claims.inWindow s (.access a)) :
    ∃ t, busAccess a s = .next t := by
  have hin : ¬ (a.addr < s.base ∨ s.base + 0x2000 ≤ a.addr) :=
    not_or.mpr ⟨Nat.not_lt.mpr h.1, Nat.not_le.mpr h.2⟩
  simp only [busAccess, if_neg hin]
  split
  · exact ⟨_, rfl⟩
  · split <;> exact ⟨_, rfl⟩

/-- A step with an event to come takes it from the inbox and keeps BASE (R65, R76). -/
theorem exists_step_of_cons {e : Event} (hin : s.inbox = e :: rest) (he : Claims.inWindow s e) :
    ∃ t, step s = .next t ∧ t.inbox = rest ∧ t.base = s.base := by
  have step_answers : ∃ t, step s = .next t ∧ StepEffect { s with inbox := rest } t := by
    cases e with
    | access a =>
      obtain ⟨t, ht⟩ := exists_busAccess (s := { s with inbox := rest }) he
      exact ⟨t, by simp only [step, hin, ht], busAccess_effect ht⟩
    | hardReset => exact ⟨_, step_hardReset hin, .hardReset⟩
    | coreTurn =>
      obtain ⟨t, ht, -⟩ := exists_coreStep { s with inbox := rest }
      exact ⟨t, by simp only [step, hin, ht], coreStep_effect ht⟩
  obtain ⟨t, hstep, effect⟩ := step_answers
  exact ⟨t, hstep, effect.inbox, congrArg (0x2000 * ·) effect.persists.basePage⟩

/-- With nothing to arrive the core has its turn and is at rest after it (R177, Log 7). -/
theorem exists_step_of_empty (hin : s.inbox = []) :
    ∃ t, step s = .next t ∧ t.busy = false ∧ t.inbox = [] := by
  obtain ⟨t, ht, hidle⟩ := exists_coreStep s
  exact ⟨t, by simp only [step, hin, ht], (busy_eq_false_iff t).mpr hidle,
    (coreStep_effect ht).inbox.trans hin⟩

/-- The window is where BASE puts it (R53, R65). -/
theorem inWindow_congr (h : t.base = s.base) (e : Event) :
    Claims.inWindow t e ↔ Claims.inWindow s e := by
  cases e <;> simp only [Claims.inWindow, h]

/-- As many steps as there are events, and the core's turn after them. -/
theorem run_comes_to_rest (es : List Event) : ∀ s : State, s.inbox = es →
    (∀ e ∈ es, Claims.inWindow s e) →
    ∃ t, core.run (es.length + 1) s = .next t ∧ t.busy = false ∧ t.inbox = [] := by
  induction es with
  | nil =>
    intro s hin _
    obtain ⟨t, ht, hrest⟩ := exists_step_of_empty hin
    exact ⟨t, run_succ_of_step 0 ht, hrest⟩
  | cons e es ih =>
    intro s hin hwindow
    obtain ⟨he, hes⟩ := List.forall_mem_cons.mp hwindow
    obtain ⟨u, hstep, hinu, hbase⟩ := exists_step_of_cons hin he
    obtain ⟨t, hrun, hrest⟩ := ih u hinu fun f hf => (inWindow_congr hbase f).mpr (hes f hf)
    exact ⟨t, (run_succ_of_step _ hstep).trans hrun, hrest⟩

/-- Settles O59, by induction on what is to arrive; the bound is reached. -/
theorem theMachineComesToRest : Obligations.TheMachineComesToRest := by
  intro s hwindow
  obtain ⟨t, hrun, hidle, hempty⟩ := run_comes_to_rest s.inbox s rfl hwindow
  exact ⟨_, t, le_rfl, hrun, hidle, hempty⟩

end Sys2Proof.Machine
end
